-- ==== Sys2Proof/Word.lean ====
section
/-! DEFINITION. The word types of the 80386 'L' instructions (rules R5 and R6). -/

namespace Sys2Proof

/-- A byte, 8 bits (R6). -/
abbrev Byte := BitVec 8

/-- A word, 16 bits (R6). -/
abbrev Word := BitVec 16

/-- A doubleword, 32 bits (R6). -/
abbrev Dword := BitVec 32

end Sys2Proof
end

