-- ==== Sys2Proof/Config.lean ====
section
/-! DEFINITION. What the spec leaves to the implementation (rule R5): the parameters of the model and its free
values. A free value is an opaque constant, so a statement about it holds for every value it may have. -/

namespace Sys2Proof.Config

/-- The access kinds of `PageTranslate` (R79). -/
inductive Access where
  | read
  | write
  | fetch
  deriving DecidableEq, Repr, Inhabited

/-- The two levels an access is made at (R66, R79). -/
inductive Level where
  | user
  | supervisor
  deriving DecidableEq, Repr, Inhabited

/-- What `PageTranslate` answers (R79): a physical address, or a page fault with an opaque fault code, whose width the
spec does not give (R79, R308): 32 bits, DESIGN CHOICE (log 36). -/
inductive Translation where
  | phys (p : Dword)
  | pageFault (code : Dword)
  deriving DecidableEq, Repr, Inhabited

/-- `PageTranslate(lin, access, level)` (R79, D27): OPEN, hence without a body. It is consulted only outside Real
Address Mode and with CR0.PG = 1; elsewhere translation is the identity (log 6). -/
opaque pageTranslate : Dword → Access → Level → Translation

/-- `LAHF_UNDEF` (R5, R141): the three indeterminate bits of the n-th draw. DESIGN CHOICE of form (log 4), safe. -/
opaque lahfUndef : Nat → BitVec 3

/-- `LAR_UNDEF` (R5, R150): the four undefined bits of the n-th draw. DESIGN CHOICE of form (log 4), safe. -/
opaque larUndef : Nat → BitVec 4

/-- The `draw_1()` of the accessed bit (R201) at the n-th draw. DESIGN CHOICE of form (log 4), safe. -/
opaque accessedUndef : Nat → BitVec 1

/-- `PHYS_BITS` (R5, D27), default 32. -/
def physBits : Nat := 32

/-- `LARLSL_MEM32_WIDTH` (R154, D15), default 4 bytes. -/
def larLslMem32Width : Nat := 4

/-- The longest instruction the decoder reads, in bytes (R103, D6); a longer one is refused. -/
def maxInstrLen : Nat := 15

end Sys2Proof.Config
end

