-- ==== Sys2Proof/Syntax.lean ====
section
/-! DEFINITION. The instructions as data: registers, prefixes, ModRM operands (rules R20, R32, R100 to R114) and
`Instr`, one constructor for each row of spec/opcode_table.json. -/

namespace Sys2Proof

/-- A size attribute, 16 or 32 bits (R5, R104, R105). -/
inductive Size where
  | s16
  | s32
  deriving DecidableEq, Repr, Inhabited

/-- The eight general registers, in the order of their numbers 0 to 7 (R20). -/
inductive Reg where
  | eax | ecx | edx | ebx | esp | ebp | esi | edi
  deriving DecidableEq, Repr, Inhabited

/-- The eight byte registers, in the order of their numbers 0 to 7 (R20, last column). -/
inductive Reg8 where
  | al | cl | dl | bl | ah | ch | dh | bh
  deriving DecidableEq, Repr, Inhabited

/-- The six segment registers, in the order of their numbers 0 to 5 (R32). -/
inductive SegName where
  | es | cs | ss | ds | fs | gs
  deriving DecidableEq, Repr, Inhabited

/-- The bytes the decoder knows as prefixes (R102). -/
inductive Pfx where
  | lock
  | opSize
  | addrSize
  | seg (s : SegName)
  | repne
  | rep
  deriving DecidableEq, Repr, Inhabited

/-- What stands before the opcode: the default size the instruction was decoded under (R104) and its prefix
bytes in stream order (R103). -/
structure Head where
  dflt : Size
  pfx : List Pfx
  deriving DecidableEq, Repr, Inhabited

/-- The base of a 16-bit memory operand, in the order of the `rm` column of R110. -/
inductive Base16 where
  | bxsi | bxdi | bpsi | bpdi | si | di | bp | bx
  deriving DecidableEq, Repr, Inhabited

/-- The displacement after ModRM and SIB: absent (`mod = 00`), a signed byte (`mod = 01`) or one of the full
address size (`mod = 10`). -/
inductive Disp (w : Nat) where
  | absent
  | d8 (d : Byte)
  | full (d : BitVec w)
  deriving DecidableEq, Repr, Inhabited

/-- A memory operand (`mod` other than 11) of either address size (R110 to R112). `scale` is the two-bit field. -/
inductive MemOp where
  | abs16 (d : Word)
  | base16 (b : Base16) (d : Disp 16)
  | abs32 (d : Dword)
  | base32 (b : Reg) (d : Disp 32)
  | sib (scale : BitVec 2) (index : Option Reg) (b : Reg) (d : Disp 32)
  | sibAbs (scale : BitVec 2) (index : Option Reg) (d : Dword)
  deriving DecidableEq, Repr, Inhabited

/-- The operand named by `mod` and `rm`: a general register (R108) or memory (R109). -/
inductive RM where
  | reg (r : Reg)
  | mem (m : MemOp)
  deriving DecidableEq, Repr, Inhabited

/-- Opcodes in scope that stand alone: `9F`, `C9`, `AC`, `AD` (R117). -/
inductive OpN where
  | lahf | leave | lodsByte | lodsWide
  deriving DecidableEq, Repr, Inhabited

/-- Opcodes in scope followed by a `cb` byte: `E2`, `E1`, `E0` (R117). -/
inductive OpL where
  | loop | loope | loopne
  deriving DecidableEq, Repr, Inhabited

/-- Opcodes in scope of the form `/r` (R117, R118). -/
inductive OpR where
  | lea | les | lds | lar | lsl | lss | lfs | lgs
  deriving DecidableEq, Repr, Inhabited

/-- Opcodes in scope of the form `/digit` (R118, R120). -/
inductive OpD where
  | lldt | ltr | lgdt | lidt | lmsw
  deriving DecidableEq, Repr, Inhabited

/-- The bytes of an in-scope instruction after its prefixes, as fields (R100): what the size attributes do not yet
tell apart. -/
inductive Raw where
  | alone (op : OpN)
  | rel (op : OpL) (d : Byte)
  | slashR (op : OpR) (reg : Reg) (rm : RM)
  | digit (op : OpD) (rm : RM)
  deriving DecidableEq, Repr, Inhabited

/-- An opcode that is not in the tables of R117 and R118 (R122): one byte, two bytes after `0F`, or a ModRM byte of
the groups `0F 00` (`grp00`) and `0F 01` (`grp01`) whose `reg` field is another instruction's (R120). -/
inductive Opcode where
  | one (b : Byte)
  | two (b : Byte)
  | grp00 (m : Byte)
  | grp01 (m : Byte)
  deriving DecidableEq, Repr, Inhabited

/-- The instruction an `F0` byte is a prefix of (R230): one of this spec, or an out-of-scope opcode (R237). -/
inductive LockTarget where
  | inScope (r : Raw)
  | outOfScope (o : Opcode)
  deriving DecidableEq, Repr, Inhabited

/-- The instructions, one constructor for each row of the opcode table. The suffix 16 or 32 is the operand size
that tells two rows of the same bytes apart (R101); `lodsb`, `lodsw`, `lodsd`, `loopz` and `loopnz` are the second
spellings of R127. -/
inductive Instr where
  | lahf (h : Head)
  | lar16 (h : Head) (dst : Reg) (src : RM)
  | lar32 (h : Head) (dst : Reg) (src : RM)
  | lea16 (h : Head) (dst : Reg) (src : RM)
  | lea32 (h : Head) (dst : Reg) (src : RM)
  | leave (h : Head)
  | lgdt (h : Head) (src : RM)
  | lidt (h : Head) (src : RM)
  | lds16 (h : Head) (dst : Reg) (src : RM)
  | lds32 (h : Head) (dst : Reg) (src : RM)
  | lss16 (h : Head) (dst : Reg) (src : RM)
  | lss32 (h : Head) (dst : Reg) (src : RM)
  | les16 (h : Head) (dst : Reg) (src : RM)
  | les32 (h : Head) (dst : Reg) (src : RM)
  | lfs16 (h : Head) (dst : Reg) (src : RM)
  | lfs32 (h : Head) (dst : Reg) (src : RM)
  | lgs16 (h : Head) (dst : Reg) (src : RM)
  | lgs32 (h : Head) (dst : Reg) (src : RM)
  | lldt (h : Head) (src : RM)
  | lmsw (h : Head) (src : RM)
  | lock (h : Head) (target : LockTarget)
  | lods8 (h : Head)
  | lodsb (h : Head)
  | lods16 (h : Head)
  | lodsw (h : Head)
  | lods32 (h : Head)
  | lodsd (h : Head)
  | loop (h : Head) (rel : Byte)
  | loope (h : Head) (rel : Byte)
  | loopz (h : Head) (rel : Byte)
  | loopne (h : Head) (rel : Byte)
  | loopnz (h : Head) (rel : Byte)
  | lsl16 (h : Head) (dst : Reg) (src : RM)
  | lsl32 (h : Head) (dst : Reg) (src : RM)
  | ltr (h : Head) (src : RM)
  deriving DecidableEq, Repr, Inhabited

end Sys2Proof
end

