-- ==== Sys2Proof/Decode.lean ====
section
/-! DEFINITION. The size attributes, the decoder and the encoder (rules R100 to R125). The decoder reads any bytes:
it answers an instruction, asks for more bytes, or rejects by name. The encoder is written from the same tables. -/

namespace Sys2Proof

/-! ### Numbers of registers and fields -/

/-- The number of a general register (R20). -/
def Reg.num : Reg → BitVec 3
  | .eax => 0 | .ecx => 1 | .edx => 2 | .ebx => 3 | .esp => 4 | .ebp => 5 | .esi => 6 | .edi => 7

/-- The general register of a number (R20, R107). -/
def Reg.ofNum (n : BitVec 3) : Reg :=
  if n = 0 then .eax else if n = 1 then .ecx else if n = 2 then .edx else if n = 3 then .ebx
  else if n = 4 then .esp else if n = 5 then .ebp else if n = 6 then .esi else .edi

/-- The `rm` field of a 16-bit base (R110). -/
def Base16.num : Base16 → BitVec 3
  | .bxsi => 0 | .bxdi => 1 | .bpsi => 2 | .bpdi => 3 | .si => 4 | .di => 5 | .bp => 6 | .bx => 7

/-- The 16-bit base an `rm` field names (R110). -/
def Base16.ofNum (n : BitVec 3) : Base16 :=
  if n = 0 then .bxsi else if n = 1 then .bxdi else if n = 2 then .bpsi else if n = 3 then .bpdi
  else if n = 4 then .si else if n = 5 then .di else if n = 6 then .bp else .bx

/-- The `index` field of a SIB byte; 100 is "no index" (R112). -/
def indexNum : Option Reg → BitVec 3
  | none => 4
  | some r => r.num

/-- The index register a SIB byte's `index` field names, if any (R112). -/
def indexOf (n : BitVec 3) : Option Reg :=
  if n = 4 then none else some (Reg.ofNum n)

/-- ModRM: `mod` in bits 7:6, `reg` in 5:3, `rm` in 2:0; SIB has the same shape (R100). -/
def modrmByte (mod : BitVec 2) (reg rm : BitVec 3) : Byte :=
  mod ++ reg ++ rm

def modField (b : Byte) : BitVec 2 := b.extractLsb' 6 2
def regField (b : Byte) : BitVec 3 := b.extractLsb' 3 3
def rmField (b : Byte) : BitVec 3 := b.extractLsb' 0 3

/-! ### Prefixes and size attributes -/

/-- The segment override bytes (R102). -/
def SegName.overrideByte : SegName → Byte
  | .es => 0x26 | .cs => 0x2E | .ss => 0x36 | .ds => 0x3E | .fs => 0x64 | .gs => 0x65

/-- The byte of a prefix (R102). -/
def Pfx.byte : Pfx → Byte
  | .lock => 0xF0
  | .opSize => 0x66
  | .addrSize => 0x67
  | .seg s => s.overrideByte
  | .repne => 0xF2
  | .rep => 0xF3

/-- The table of R102, byte by byte. -/
def pfxRows : List (Byte × Pfx) :=
  [(0xF0, .lock), (0x66, .opSize), (0x67, .addrSize), (0x26, .seg .es), (0x2E, .seg .cs), (0x36, .seg .ss),
   (0x3E, .seg .ds), (0x64, .seg .fs), (0x65, .seg .gs), (0xF2, .repne), (0xF3, .rep)]

/-- Prefixes are read until a byte that is not in R102's table (R116). -/
def splitPfx : List Byte → List Pfx × List Byte
  | [] => ([], [])
  | b :: bs =>
    match pfxRows.lookup b with
    | some p =>
      match splitPfx bs with
      | (ps, rest) => (p :: ps, rest)
    | none => ([], b :: bs)

/-- The other size: what a `66` or `67` selects (R104, R105). -/
def Size.flip : Size → Size
  | .s16 => .s32
  | .s32 => .s16

/-- OperandSize: the default, or the other one under one or more `66` (R103, R104). -/
def Head.opSize (h : Head) : Size :=
  if .opSize ∈ h.pfx then h.dflt.flip else h.dflt

/-- AddressSize: the default, or the other one under one or more `67` (R103, R105). -/
def Head.addrSize (h : Head) : Size :=
  if .addrSize ∈ h.pfx then h.dflt.flip else h.dflt

/-- The last segment override of a run of prefixes (R103: the last one wins). -/
def lastOverride : List Pfx → Option SegName
  | [] => none
  | p :: ps =>
    match lastOverride ps, p with
    | some s, _ => some s
    | none, .seg s => some s
    | none, _ => none

/-- The segment override in force, if any (R103, R114). -/
def Head.segOverride (h : Head) : Option SegName :=
  lastOverride h.pfx

def Head.hasLock (h : Head) : Bool :=
  decide (.lock ∈ h.pfx)

/-- Whether `F2` or `F3` stands among the prefixes (R102, D11). -/
def Head.hasRep (h : Head) : Bool :=
  decide (.rep ∈ h.pfx) || decide (.repne ∈ h.pfx)

/-! ### Operands -/

/-- A 16-bit displacement, little-endian (R113). -/
def take16 : List Byte → Option (Word × List Byte)
  | b0 :: b1 :: rest => some (b1 ++ b0, rest)
  | _ => none

/-- A 32-bit displacement, little-endian (R113). -/
def take32 : List Byte → Option (Dword × List Byte)
  | b0 :: b1 :: b2 :: b3 :: rest => some (b3 ++ b2 ++ b1 ++ b0, rest)
  | _ => none

/-- The displacement of a 16-bit operand, by `mod` (R110). -/
def parseDisp16 (mod : BitVec 2) (bs : List Byte) : Option (Disp 16 × List Byte) :=
  if mod = 0 then some (.absent, bs)
  else if mod = 1 then
    match bs with
    | d :: rest => some (.d8 d, rest)
    | [] => none
  else (take16 bs).map fun p => (.full p.1, p.2)

/-- The displacement of a 32-bit operand, by `mod` (R111, R112). -/
def parseDisp32 (mod : BitVec 2) (bs : List Byte) : Option (Disp 32 × List Byte) :=
  if mod = 0 then some (.absent, bs)
  else if mod = 1 then
    match bs with
    | d :: rest => some (.d8 d, rest)
    | [] => none
  else (take32 bs).map fun p => (.full p.1, p.2)

/-- The table of R110. -/
def parseMem16 (mod : BitVec 2) (rm : BitVec 3) (bs : List Byte) : Option (MemOp × List Byte) :=
  if mod = 0 ∧ rm = 6 then (take16 bs).map fun p => (.abs16 p.1, p.2)
  else (parseDisp16 mod bs).map fun p => (.base16 (Base16.ofNum rm) p.1, p.2)

/-- The SIB byte (R112); its `scale`, `index` and `base` stand where ModRM has `mod`, `reg` and `rm`. -/
def parseSib (mod : BitVec 2) : List Byte → Option (MemOp × List Byte)
  | [] => none
  | s :: bs =>
    if mod = 0 ∧ rmField s = 5 then
      (take32 bs).map fun p => (.sibAbs (modField s) (indexOf (regField s)) p.1, p.2)
    else
      (parseDisp32 mod bs).map fun p =>
        (.sib (modField s) (indexOf (regField s)) (Reg.ofNum (rmField s)) p.1, p.2)

/-- The table of R111, with the SIB byte of R112 for `rm = 100`. -/
def parseMem32 (mod : BitVec 2) (rm : BitVec 3) (bs : List Byte) : Option (MemOp × List Byte) :=
  if rm = 4 then parseSib mod bs
  else if mod = 0 ∧ rm = 5 then (take32 bs).map fun p => (.abs32 p.1, p.2)
  else (parseDisp32 mod bs).map fun p => (.base32 (Reg.ofNum rm) p.1, p.2)

/-- ModRM with all that follows it: the `reg` field's register and the `mod`/`rm` operand (R107 to R112). -/
def parseModRM (asz : Size) : List Byte → Option (Reg × RM × List Byte)
  | [] => none
  | m :: bs =>
    if modField m = 3 then some (Reg.ofNum (regField m), .reg (Reg.ofNum (rmField m)), bs)
    else
      let mem := match asz with
        | .s16 => parseMem16 (modField m) (rmField m) bs
        | .s32 => parseMem32 (modField m) (rmField m) bs
      mem.map fun p => (Reg.ofNum (regField m), .mem p.1, p.2)

/-! ### Opcodes -/

/-- What a one-byte opcode is followed by. -/
inductive OneByte where
  | alone (op : OpN)
  | rel (op : OpL)
  | slashR (op : OpR)
  deriving DecidableEq, Repr

/-- The one-byte opcodes in scope (R117). -/
def oneByteRows : List (Byte × OneByte) :=
  [(0x8D, .slashR .lea), (0x9F, .alone .lahf), (0xAC, .alone .lodsByte), (0xAD, .alone .lodsWide),
   (0xC4, .slashR .les), (0xC5, .slashR .lds), (0xC9, .alone .leave), (0xE0, .rel .loopne),
   (0xE1, .rel .loope), (0xE2, .rel .loop)]

/-- The `/r` opcodes in scope after `0F` (R118). -/
def twoByteRows : List (Byte × OpR) :=
  [(0x02, .lar), (0x03, .lsl), (0xB2, .lss), (0xB4, .lfs), (0xB5, .lgs)]

/-- The members of group `0F 00` in scope, by `reg` (R120). -/
def grp00Rows : List (BitVec 3 × OpD) := [(2, .lldt), (3, .ltr)]

/-- The members of group `0F 01` in scope, by `reg` (R120). -/
def grp01Rows : List (BitVec 3 × OpD) := [(2, .lgdt), (3, .lidt), (6, .lmsw)]

/-- What reading one instruction's bytes after the prefixes ends in. -/
inductive Parse where
  | done (r : Raw) (rest : List Byte)
  | short
  | outOfScope (o : Opcode) (rest : List Byte)
  deriving DecidableEq, Repr

/-- The rest of a `/r` row. -/
def parseSlashR (asz : Size) (op : OpR) (bs : List Byte) : Parse :=
  match parseModRM asz bs with
  | some (reg, rm, rest) => .done (.slashR op reg rm) rest
  | none => .short

/-- The rest of a group opcode: `reg` chooses the row (R120). -/
def parseGroup (asz : Size) (rows : List (BitVec 3 × OpD)) (out : Byte → Opcode) : List Byte → Parse
  | [] => .short
  | m :: bs =>
    match rows.lookup (regField m) with
    | none => .outOfScope (out m) bs
    | some op =>
      match parseModRM asz (m :: bs) with
      | some (_, rm, rest) => .done (.digit op rm) rest
      | none => .short

/-- The second opcode byte, after `0F` (R116, R118). -/
def parseTwo (asz : Size) : List Byte → Parse
  | [] => .short
  | b :: bs =>
    if b = 0x00 then parseGroup asz grp00Rows .grp00 bs
    else if b = 0x01 then parseGroup asz grp01Rows .grp01 bs
    else match twoByteRows.lookup b with
      | some op => parseSlashR asz op bs
      | none => .outOfScope (.two b) bs

/-- The bytes after the prefixes (R116). -/
def parseRaw (asz : Size) : List Byte → Parse
  | [] => .short
  | b :: bs =>
    if b = 0x0F then parseTwo asz bs
    else match oneByteRows.lookup b with
      | some (.alone op) => .done (.alone op) bs
      | some (.rel op) =>
        match bs with
        | d :: rest => .done (.rel op d) rest
        | [] => .short
      | some (.slashR op) => parseSlashR asz op bs
      | none => .outOfScope (.one b) bs

/-- The instruction of an opcode: rows of the same bytes are told apart by OperandSize (R101, R119). -/
def build (h : Head) : Raw → Instr
  | .alone .lahf => .lahf h
  | .alone .leave => .leave h
  | .alone .lodsByte => .lods8 h
  | .alone .lodsWide => match h.opSize with | .s16 => .lods16 h | .s32 => .lods32 h
  | .rel .loop d => .loop h d
  | .rel .loope d => .loope h d
  | .rel .loopne d => .loopne h d
  | .slashR .lea r m => match h.opSize with | .s16 => .lea16 h r m | .s32 => .lea32 h r m
  | .slashR .les r m => match h.opSize with | .s16 => .les16 h r m | .s32 => .les32 h r m
  | .slashR .lds r m => match h.opSize with | .s16 => .lds16 h r m | .s32 => .lds32 h r m
  | .slashR .lar r m => match h.opSize with | .s16 => .lar16 h r m | .s32 => .lar32 h r m
  | .slashR .lsl r m => match h.opSize with | .s16 => .lsl16 h r m | .s32 => .lsl32 h r m
  | .slashR .lss r m => match h.opSize with | .s16 => .lss16 h r m | .s32 => .lss32 h r m
  | .slashR .lfs r m => match h.opSize with | .s16 => .lfs16 h r m | .s32 => .lfs32 h r m
  | .slashR .lgs r m => match h.opSize with | .s16 => .lgs16 h r m | .s32 => .lgs32 h r m
  | .digit .lldt m => .lldt h m
  | .digit .ltr m => .ltr h m
  | .digit .lgdt m => .lgdt h m
  | .digit .lidt m => .lidt h m
  | .digit .lmsw m => .lmsw h m

/-- Why the decoder rejects bytes it could read. -/
inductive Reject where
  /-- An opcode of no rule of this spec (R122). -/
  | outOfScope (o : Opcode)
  /-- `F2` or `F3` before an instruction in scope (R122, R244). -/
  | repBefore
  /-- More than fifteen bytes (R103). -/
  | tooLong
  deriving DecidableEq, Repr

/-- What the decoder answers. `more`: the bytes end before the instruction does. -/
inductive Decoded where
  | instr (i : Instr)
  | more
  | rejected (r : Reject)
  deriving DecidableEq, Repr

/-- One instruction from the front of `bs`, of any length. A `F0` among the prefixes makes it a LOCK (R230, log 14);
`F2` and `F3` reject what they precede, with whatever other prefixes (R244, log 13). -/
def decodeAny (dflt : Size) (bs : List Byte) : Decoded :=
  match splitPfx bs with
  | (ps, rest) =>
    let h : Head := ⟨dflt, ps⟩
    match parseRaw h.addrSize rest with
    | .short => .more
    | .done r _ =>
      if h.hasRep then .rejected .repBefore
      else if h.hasLock then .instr (.lock h (.inScope r))
      else .instr (build h r)
    | .outOfScope o _ =>
      if h.hasRep then .rejected (.outOfScope o)
      else if h.hasLock then .instr (.lock h (.outOfScope o))
      else .rejected (.outOfScope o)

/-- The decoder: one instruction of at most fifteen bytes (R103) from the front of `bs`, under a default size. Beyond
them it refuses before anything else is looked at, an `F0` or another cause of #UD included (DEDUCED, log 34). -/
def decode (dflt : Size) (bs : List Byte) : Decoded :=
  match decodeAny dflt (bs.take Config.maxInstrLen) with
  | .more => if Config.maxInstrLen ≤ bs.length then .rejected .tooLong else .more
  | d => d

/-! ### The encoder -/

/-- A word as bytes, the least significant first (R64, R113). -/
def bytes16 (w : Word) : List Byte := [w.extractLsb' 0 8, w.extractLsb' 8 8]

/-- A doubleword as bytes, the least significant first (R64, R113). -/
def bytes32 (w : Dword) : List Byte :=
  [w.extractLsb' 0 8, w.extractLsb' 8 8, w.extractLsb' 16 8, w.extractLsb' 24 8]

/-- The `mod` field that announces a displacement (R110, R111). -/
def Disp.mod {w : Nat} : Disp w → BitVec 2
  | .absent => 0
  | .d8 _ => 1
  | .full _ => 2

def Disp.bytes16 : Disp 16 → List Byte
  | .absent => []
  | .d8 d => [d]
  | .full d => Sys2Proof.bytes16 d

def Disp.bytes32 : Disp 32 → List Byte
  | .absent => []
  | .d8 d => [d]
  | .full d => Sys2Proof.bytes32 d

/-- ModRM, SIB and displacement of an operand, under a `reg` field (R107 to R112). -/
def RM.bytes (reg : BitVec 3) : RM → List Byte
  | .reg r => [modrmByte 3 reg r.num]
  | .mem (.abs16 d) => modrmByte 0 reg 6 :: bytes16 d
  | .mem (.base16 b d) => modrmByte d.mod reg b.num :: d.bytes16
  | .mem (.abs32 d) => modrmByte 0 reg 5 :: bytes32 d
  | .mem (.base32 b d) => modrmByte d.mod reg b.num :: d.bytes32
  | .mem (.sib sc ix b d) => modrmByte d.mod reg 4 :: modrmByte sc (indexNum ix) b.num :: d.bytes32
  | .mem (.sibAbs sc ix d) => modrmByte 0 reg 4 :: modrmByte sc (indexNum ix) 5 :: bytes32 d

/-- The opcode bytes of R117. -/
def OpN.byte : OpN → Byte
  | .lahf => 0x9F | .leave => 0xC9 | .lodsByte => 0xAC | .lodsWide => 0xAD

def OpL.byte : OpL → Byte
  | .loop => 0xE2 | .loope => 0xE1 | .loopne => 0xE0

/-- The opcode bytes of the `/r` rows (R117, R118). -/
def OpR.bytes : OpR → List Byte
  | .lea => [0x8D] | .les => [0xC4] | .lds => [0xC5]
  | .lar => [0x0F, 0x02] | .lsl => [0x0F, 0x03]
  | .lss => [0x0F, 0xB2] | .lfs => [0x0F, 0xB4] | .lgs => [0x0F, 0xB5]

/-- The opcode bytes of the `/digit` rows (R118). -/
def OpD.bytes : OpD → List Byte
  | .lldt | .ltr => [0x0F, 0x00]
  | .lgdt | .lidt | .lmsw => [0x0F, 0x01]

/-- The digit, a value of `reg` (R118, R120). -/
def OpD.digit : OpD → BitVec 3
  | .lldt => 2 | .ltr => 3 | .lgdt => 2 | .lidt => 3 | .lmsw => 6

def Raw.bytes : Raw → List Byte
  | .alone op => [op.byte]
  | .rel op d => [op.byte, d]
  | .slashR op reg rm => op.bytes ++ rm.bytes reg.num
  | .digit op rm => op.bytes ++ rm.bytes op.digit

def Opcode.bytes : Opcode → List Byte
  | .one b => [b]
  | .two b => [0x0F, b]
  | .grp00 m => [0x0F, 0x00, m]
  | .grp01 m => [0x0F, 0x01, m]

def LockTarget.bytes : LockTarget → List Byte
  | .inScope r => r.bytes
  | .outOfScope o => o.bytes

/-- The prefixes and default size of an instruction. -/
def Instr.head : Instr → Head
  | .lahf h | .leave h | .lods8 h | .lodsb h | .lods16 h | .lodsw h | .lods32 h | .lodsd h => h
  | .lar16 h _ _ | .lar32 h _ _ | .lea16 h _ _ | .lea32 h _ _ | .lsl16 h _ _ | .lsl32 h _ _ => h
  | .lds16 h _ _ | .lds32 h _ _ | .lss16 h _ _ | .lss32 h _ _ | .les16 h _ _ | .les32 h _ _ => h
  | .lfs16 h _ _ | .lfs32 h _ _ | .lgs16 h _ _ | .lgs32 h _ _ => h
  | .lgdt h _ | .lidt h _ | .lldt h _ | .lmsw h _ | .ltr h _ => h
  | .loop h _ | .loope h _ | .loopz h _ | .loopne h _ | .loopnz h _ => h
  | .lock h _ => h

/-- What stands after the prefixes. A second spelling has the bytes of the first (R127). -/
def Instr.target : Instr → LockTarget
  | .lahf _ => .inScope (.alone .lahf)
  | .lar16 _ r m | .lar32 _ r m => .inScope (.slashR .lar r m)
  | .lea16 _ r m | .lea32 _ r m => .inScope (.slashR .lea r m)
  | .leave _ => .inScope (.alone .leave)
  | .lgdt _ m => .inScope (.digit .lgdt m)
  | .lidt _ m => .inScope (.digit .lidt m)
  | .lds16 _ r m | .lds32 _ r m => .inScope (.slashR .lds r m)
  | .lss16 _ r m | .lss32 _ r m => .inScope (.slashR .lss r m)
  | .les16 _ r m | .les32 _ r m => .inScope (.slashR .les r m)
  | .lfs16 _ r m | .lfs32 _ r m => .inScope (.slashR .lfs r m)
  | .lgs16 _ r m | .lgs32 _ r m => .inScope (.slashR .lgs r m)
  | .lldt _ m => .inScope (.digit .lldt m)
  | .lmsw _ m => .inScope (.digit .lmsw m)
  | .lock _ t => t
  | .lods8 _ | .lodsb _ => .inScope (.alone .lodsByte)
  | .lods16 _ | .lodsw _ | .lods32 _ | .lodsd _ => .inScope (.alone .lodsWide)
  | .loop _ d => .inScope (.rel .loop d)
  | .loope _ d | .loopz _ d => .inScope (.rel .loope d)
  | .loopne _ d | .loopnz _ d => .inScope (.rel .loopne d)
  | .lsl16 _ r m | .lsl32 _ r m => .inScope (.slashR .lsl r m)
  | .ltr _ m => .inScope (.digit .ltr m)

/-- The bytes of an instruction, prefixes first (R100). -/
def encode (i : Instr) : List Byte :=
  i.head.pfx.map Pfx.byte ++ i.target.bytes

/-- `len`, the number of bytes of an instruction, prefixes included (R26, R103). -/
def Instr.len (i : Instr) : Nat := (encode i).length

/-- The spelling the decoder answers with: the row a synonym is another name of (R127; log 15). -/
def Instr.canonical : Instr → Instr
  | .lodsb h => .lods8 h
  | .lodsw h => .lods16 h
  | .lodsd h => .lods32 h
  | .loopz h d => .loope h d
  | .loopnz h d => .loopne h d
  | i => i

/-! ### The host's word -/

/-- The bytes of a table word: byte k is bits 8k+7..8k below `nbits`, and 0 above, up to the longest instruction. -/
def wordBytes (nbits w : Nat) : List Byte :=
  (List.range Config.maxInstrLen).map fun k => if 8 * k < nbits then BitVec.ofNat 8 (w >>> (8 * k)) else 0

/-- The instruction the decoder reads from a table word, under the default size of the mode after reset (Real
Address Mode: 16, R104). -/
def decodeTableWord (nbits w : Nat) : Option Instr :=
  match decode .s16 (wordBytes nbits w) with
  | .instr i => some i
  | _ => none

end Sys2Proof
end

