-- ==== Sys2Proof/Machine/State.lean ====
section
/-! DEFINITION. The state of the 80386 as the 'L' instructions see it (rules R20 to R46), the exceptions, faults and
refusals a step can end in (R300 to R308), and the state after reset. -/

namespace Sys2Proof.Machine

/-- The eight general registers (R20). -/
structure Regs where
  eax : Dword
  ecx : Dword
  edx : Dword
  ebx : Dword
  esp : Dword
  ebp : Dword
  esi : Dword
  edi : Dword
  deriving DecidableEq, Repr, Inhabited

/-- A segment register: the visible selector and the hidden descriptor (R32 to R34). -/
structure SegReg where
  sel : Word
  base : Dword
  limit : Dword
  ar : Dword
  valid : Bool
  deriving DecidableEq, Repr, Inhabited

/-- The six segment registers (R32). -/
structure Segs where
  es : SegReg
  cs : SegReg
  ss : SegReg
  ds : SegReg
  fs : SegReg
  gs : SegReg
  deriving DecidableEq, Repr, Inhabited

/-- GDTR and IDTR: a linear base and a 16-bit limit (R36, R37). -/
structure TableReg where
  base : Dword
  limit : Word
  deriving DecidableEq, Repr, Inhabited

/-- LDTR (R38). -/
structure LdtReg where
  sel : Word
  base : Dword
  limit : Dword
  valid : Bool
  deriving DecidableEq, Repr, Inhabited

/-- TR (R39). -/
structure TaskReg where
  sel : Word
  base : Dword
  limit : Dword
  ar : Dword
  deriving DecidableEq, Repr, Inhabited

/-- The machine. `mem` lists the populated physical bytes with rising addresses (R69). The last three fields are the
MODEL's own: `jumpPending`, a jump is owed after an LMSW that set PE (R346; log 10); `stored`, the physical addresses
written by descriptor-table writes (R82; log 11); `draws`, the free values used so far (R10; log 4). -/
structure State where
  regs : Regs
  segs : Segs
  eip : Dword
  eflags : Dword
  gdtr : TableReg
  idtr : TableReg
  ldtr : LdtReg
  tr : TaskReg
  cr0 : Dword
  cpl : BitVec 2
  mem : List Host.Cell
  jumpPending : Bool
  stored : List Nat
  draws : Nat
  deriving DecidableEq, Repr, Inhabited

/-- The three modes (R42); `prot` is Protected Mode. -/
inductive Mode where
  | real
  | prot
  | v86
  deriving DecidableEq, Repr

/-- The five exceptions of R301 with their error codes (R306). Each is raised by the instructions R309 lists. All are
safe: the spec ends the run there (R300, D7). -/
inductive Exception where
  /-- #UD, Interrupt 6: LOCK, a register form where memory is required, an instruction the mode does not recognize
  (R302). -/
  | ud
  /-- #NP(selector): a pointer load, LLDT or LTR of a segment that is not present (R307). -/
  | np (code : Word)
  /-- #SS: an illegal stack-segment operand, LEAVE, or LSS of a segment that is not present (R305). -/
  | ss (code : Word)
  /-- #GP with its code in Protected Mode (R303), without one as Interrupt 13 elsewhere (R304). -/
  | gp (code : Option Word)
  /-- #PF(fault-code), and the linear address that faulted (R308); the width of the code is the model's (log 36). -/
  | pf (code : Dword) (lin : Dword)
  deriving DecidableEq, Repr

/-- How a step faults (R300). -/
inductive Fault where
  /-- `Fault(X, code, state)`: raised by every instruction and by the fetch, with the exception, its code and the
  state before the instruction. Safe: nothing is claimed about delivery, which the spec does not describe (R318). -/
  | exception (x : Exception) (before : State)
  deriving DecidableEq, Repr

/-- The situations the spec gives no meaning (R10, `refuse`). All are safe: nothing is claimed about what follows. -/
inductive Refusal where
  /-- An instruction whose meaning is not written; raised by `exec` alone. -/
  | notModelled (mnemonic : String)
  /-- The fetched opcode is in no table of this spec (R122, D9); raised by the fetch. -/
  | outOfScope (o : Opcode)
  /-- `F2` or `F3` before an instruction in scope (R244, D11); raised by the fetch. -/
  | repBefore
  /-- An instruction longer than fifteen bytes (R103, D6); raised by the fetch. -/
  | tooLong
  /-- LOCK before an out-of-scope opcode (R237, D10); raised by LOCK. -/
  | lockOutOfScope (o : Opcode)
  /-- A physical byte outside the populated set (R69, R341); raised by every access. -/
  | unpopulated (p : Nat)
  /-- LGDT or LIDT with a memory operand in Virtual 8086 Mode (R185, D26). -/
  | v86TableLoad
  /-- LMSW in Virtual 8086 Mode (R221, D26). -/
  | v86Lmsw
  /-- A memory source of LAR or LSL of which two bytes can be read and four cannot (R154, D15). -/
  | memWidthBand
  /-- The accessed-bit write of a segment load would page-fault (R201, D20). -/
  | accessedBitPageFault
  /-- A taken LOOP with operand size 32 to a target above 0FFFFH outside Protected Mode (R251, D23). -/
  | loopTargetBeyond64K (t : Dword)
  /-- The step after an LMSW that set PE (R346, D25); raised by the fetch. -/
  | noJumpAfterLmsw
  /-- Executing a byte that a descriptor-table write stored to (R82, D31); raised by the fetch. -/
  | executesStoredByte (p : Nat)
  deriving DecidableEq, Repr

/-- What stops an operation: an exception, or a situation without meaning. -/
inductive Stop where
  | raised (x : Exception)
  | refused (r : Refusal)
  deriving DecidableEq, Repr

/-- The outcome of a step of this machine. -/
abbrev Outcome := Host.Outcome State Fault Refusal

/-- The result of an operation inside an instruction. -/
abbrev Res := Except Stop

/-- DS, ES, FS, GS and SS after reset: PRESUMED (log 2), with `ar` and `valid` a DESIGN CHOICE (log 3); unsafe. -/
def resetDataSeg : SegReg := ⟨0, 0, 0x0000FFFF, 0x00009300, true⟩

/-- CS after reset: PRESUMED (log 2), with `ar` and `valid` a DESIGN CHOICE (log 3); unsafe. -/
def resetCodeSeg : SegReg := ⟨0xF000, 0xFFFF0000, 0x0000FFFF, 0x00009B00, true⟩

/-- The machine right after reset: Real Address Mode at CPL 0 with nothing populated (R46, R340); every other value is
named in logs 2 and 3 (PRESUMED and DESIGN CHOICE, unsafe). -/
def State.reset : State where
  regs := ⟨0, 0, 0, 0, 0, 0, 0, 0⟩
  segs := ⟨resetDataSeg, resetCodeSeg, resetDataSeg, resetDataSeg, resetDataSeg, resetDataSeg⟩
  eip := 0x0000FFF0
  eflags := 0x00000002
  gdtr := ⟨0, 0⟩
  idtr := ⟨0, 0x03FF⟩
  ldtr := ⟨0, 0, 0, false⟩
  tr := ⟨0, 0, 0, 0⟩
  cr0 := 0
  cpl := 0
  mem := []
  jumpPending := false
  stored := []
  draws := 0

end Sys2Proof.Machine
end

