-- ==== Sys2Proof/Machine/Flags.lean ====
section
/-! DEFINITION. The flags (rules R28 to R31): their positions, the byte LAHF reads, the one flag an instruction in
scope writes. -/

namespace Sys2Proof.Machine

def State.cf (s : State) : Bool := s.eflags.getLsbD 0
def State.pf (s : State) : Bool := s.eflags.getLsbD 2
def State.af (s : State) : Bool := s.eflags.getLsbD 4
def State.zf (s : State) : Bool := s.eflags.getLsbD 6
def State.sf (s : State) : Bool := s.eflags.getLsbD 7
/-- DF, bit 10 (R29, D39). -/
def State.df (s : State) : Bool := s.eflags.getLsbD 10
/-- VM, bit 17 (R29, D39). -/
def State.vm (s : State) : Bool := s.eflags.getLsbD 17

/-- The flags word with its ZF bit replaced; no other bit changes (R30). -/
def putZF (flags : Dword) (z : Bool) : Dword :=
  flags.extractLsb' 7 25 ++ BitVec.ofBool z ++ flags.extractLsb' 0 6

/-- The low byte of the flags word with its three indeterminate bits: SF:ZF:u2:AF:u1:PF:u0:CF (R28, R140). -/
def flagsByte (flags : Dword) (u : BitVec 3) : Byte :=
  flags.extractLsb' 7 1 ++ flags.extractLsb' 6 1 ++ u.extractLsb' 2 1 ++ flags.extractLsb' 4 1
    ++ u.extractLsb' 1 1 ++ flags.extractLsb' 2 1 ++ u.extractLsb' 0 1 ++ flags.extractLsb' 0 1

end Sys2Proof.Machine
end

