-- ==== Sys2Proof/Machine/Ops.lean ====
section
/-! DEFINITION. The shared operations: registers (R20 to R27), modes (R42), taking an exception (R300), memory and
translation (R64 to R69, R79), segment checks (R70 to R75), descriptors (R76 to R78). -/

namespace Sys2Proof.Machine

open Config (Access Level)

/-! ### One update per field of the state -/

def State.withRegs (s : State) (g : Regs) : State := { s with regs := g }
def State.withSegs (s : State) (g : Segs) : State := { s with segs := g }
def State.withEip (s : State) (a : Dword) : State := { s with eip := a }
def State.withFlags (s : State) (f : Dword) : State := { s with eflags := f }
def State.withGdtr (s : State) (t : TableReg) : State := { s with gdtr := t }
def State.withIdtr (s : State) (t : TableReg) : State := { s with idtr := t }
def State.withLdtr (s : State) (t : LdtReg) : State := { s with ldtr := t }
def State.withTr (s : State) (t : TaskReg) : State := { s with tr := t }
def State.withCr0 (s : State) (c : Dword) : State := { s with cr0 := c }
def State.withMem (s : State) (m : List Host.Cell) : State := { s with mem := m }
def State.withJumpPending (s : State) (b : Bool) : State := { s with jumpPending := b }
def State.withStored (s : State) (l : List Nat) : State := { s with stored := l }
def State.withDraws (s : State) (n : Nat) : State := { s with draws := n }

/-! ### General registers -/

def Regs.get (g : Regs) : Reg → Dword
  | .eax => g.eax | .ecx => g.ecx | .edx => g.edx | .ebx => g.ebx
  | .esp => g.esp | .ebp => g.ebp | .esi => g.esi | .edi => g.edi

def Regs.set (g : Regs) (r : Reg) (v : Dword) : Regs :=
  match r with
  | .eax => { g with eax := v } | .ecx => { g with ecx := v }
  | .edx => { g with edx := v } | .ebx => { g with ebx := v }
  | .esp => { g with esp := v } | .ebp => { g with ebp := v }
  | .esi => { g with esi := v } | .edi => { g with edi := v }

/-- `r32[i]` (R20). -/
def State.r32 (s : State) (r : Reg) : Dword := s.regs.get r

/-- `r16[i]`, the low half (R21). -/
def State.r16 (s : State) (r : Reg) : Word := (s.r32 r).extractLsb' 0 16

/-- The register a byte register is part of: AL and AH of EAX (R22). For CL, DL, BL, CH, DH and BH the spec gives a
number alone (R20); PRESUMED, the family's: CL and CH are of ECX, DL and DH of EDX, BL and BH of EBX (log 33). -/
def reg8Parent : Reg8 → Reg
  | .al | .ah => .eax
  | .cl | .ch => .ecx
  | .dl | .dh => .edx
  | .bl | .bh => .ebx

/-- Whether a byte register is bits 15:8 of its parent: AH is, AL is not (R22); of the others PRESUMED (log 33). -/
def reg8High : Reg8 → Bool
  | .al | .cl | .dl | .bl => false
  | .ah | .ch | .dh | .bh => true

/-- `r8[i]` (R22; log 33). -/
def State.r8 (s : State) (r : Reg8) : Byte :=
  (s.r32 (reg8Parent r)).extractLsb' (if reg8High r then 8 else 0) 8

def State.setR32 (s : State) (r : Reg) (v : Dword) : State :=
  s.withRegs (s.regs.set r v)

/-- A write of a 16-bit register leaves bits 31:16 (R23). -/
def State.setR16 (s : State) (r : Reg) (v : Word) : State :=
  s.setR32 r ((s.r32 r).extractLsb' 16 16 ++ v)

/-- A write of a byte register leaves the other bits (R23). -/
def State.setR8 (s : State) (r : Reg8) (v : Byte) : State :=
  let old := s.r32 (reg8Parent r)
  s.setR32 (reg8Parent r)
    (if reg8High r then (old.extractLsb' 16 16 ++ v ++ old.extractLsb' 0 8 : Dword)
     else (old.extractLsb' 8 24 ++ v : Dword))

/-- The low `z` bits of a value, zero-extended. -/
def truncTo (z : Size) (v : Dword) : Dword :=
  match z with
  | .s16 => (v.extractLsb' 0 16).setWidth 32
  | .s32 => v

/-- A size in bytes. -/
def sizeBytes : Size → Nat
  | .s16 => 2
  | .s32 => 4

/-- A general register read at a size, zero-extended. -/
def State.reg (s : State) (z : Size) (r : Reg) : Dword := truncTo z (s.r32 r)

/-- A general register written at a size. -/
def State.setReg (s : State) (z : Size) (r : Reg) (v : Dword) : State :=
  match z with
  | .s16 => s.setR16 r (v.extractLsb' 0 16)
  | .s32 => s.setR32 r v

/-! ### Instruction pointer -/

/-- `next_pc` for an instruction of `len` bytes (R26). -/
def State.nextPc (s : State) (len : Nat) : Dword := s.eip + BitVec.ofNat 32 len

/-- `pc <- next_pc` (R26). -/
def State.advance (s : State) (len : Nat) : State := s.withEip (s.nextPc len)

/-- ZF written, the other flags kept (R30). -/
def State.setZF (s : State) (z : Bool) : State := s.withFlags (putZF s.eflags z)

/-! ### System registers and modes -/

/-- CR0.PE, bit 0 (R40). -/
def State.pe (s : State) : Bool := s.cr0.getLsbD 0
/-- CR0.PG, bit 31 (R40). -/
def State.pg (s : State) : Bool := s.cr0.getLsbD 31
/-- The machine status word, CR0[15:0] (R40). -/
def State.msw (s : State) : Word := s.cr0.extractLsb' 0 16

/-- `Mode` (R42). -/
def State.mode (s : State) : Mode :=
  if s.pe then (if s.vm then .v86 else .prot) else .real

/-! ### Segment registers -/

def Segs.get (g : Segs) : SegName → SegReg
  | .es => g.es | .cs => g.cs | .ss => g.ss | .ds => g.ds | .fs => g.fs | .gs => g.gs

def Segs.set (g : Segs) (n : SegName) (v : SegReg) : Segs :=
  match n with
  | .es => { g with es := v } | .cs => { g with cs := v } | .ss => { g with ss := v }
  | .ds => { g with ds := v } | .fs => { g with fs := v } | .gs => { g with gs := v }

def State.seg (s : State) (n : SegName) : SegReg := s.segs.get n

def State.setSeg (s : State) (n : SegName) (v : SegReg) : State := s.withSegs (s.segs.set n v)

/-! ### Attribute bits of a descriptor's high doubleword and of a hidden `ar` (R76, R78) -/

/-- S: a code or data segment. -/
def attrS (hi : Dword) : Bool := hi.getLsbD 12
/-- The four type bits. -/
def attrType (hi : Dword) : BitVec 4 := hi.extractLsb' 8 4
def attrDpl (hi : Dword) : BitVec 2 := hi.extractLsb' 13 2
def attrPresent (hi : Dword) : Bool := hi.getLsbD 15
/-- D of a code segment, B of a stack segment. -/
def attrBig (hi : Dword) : Bool := hi.getLsbD 22
def attrGranular (hi : Dword) : Bool := hi.getLsbD 23

def isCode (hi : Dword) : Bool := attrS hi && hi.getLsbD 11
def isData (hi : Dword) : Bool := attrS hi && !hi.getLsbD 11
def isConforming (hi : Dword) : Bool := isCode hi && hi.getLsbD 10
def isReadableCode (hi : Dword) : Bool := isCode hi && hi.getLsbD 9
def isExpandDown (hi : Dword) : Bool := isData hi && hi.getLsbD 10
def isWritableData (hi : Dword) : Bool := isData hi && hi.getLsbD 9
/-- A system descriptor of type `t`. -/
def isSystem (hi : Dword) (t : BitVec 4) : Bool := !attrS hi && decide (attrType hi = t)

/-- The attribute bits a hidden part keeps (R33). -/
def arMask : Dword := 0x00F0FF00

/-! ### Size attributes of the machine -/

/-- The default of OperandSize and AddressSize (R104, R105). -/
def State.defaultSize (s : State) : Size :=
  match s.mode with
  | .prot => if attrBig s.segs.cs.ar then .s32 else .s16
  | .real | .v86 => .s16

/-- StackAddrSize (R106). -/
def State.stackSize (s : State) : Size :=
  match s.mode with
  | .prot => if attrBig s.segs.ss.ar then .s32 else .s16
  | .real | .v86 => .s16

/-! ### Exceptions and refusals -/

def raise {α : Type} (x : Exception) : Res α := .error (.raised x)

def refuse {α : Type} (r : Refusal) : Res α := .error (.refused r)

/-- The check must hold, else the exception. -/
def require (c : Bool) (x : Exception) : Res Unit := if c then .ok () else raise x

/-- A situation the spec gives no meaning must not hold. -/
def refuseIf (c : Bool) (r : Refusal) : Res Unit := if c then refuse r else .ok ()

/-- TAKING AN EXCEPTION (R300, R317): the fault outcome, with the exception, its code and the state before the
instruction; nothing is written, and delivery is not described (R318, D7; log 1). There is no return (R319). -/
def takeException (x : Exception) (s : State) : Outcome := .fault (.exception x s)

/-- How a stopped operation ends the step begun in `s`. -/
def stopped (e : Stop) (s : State) : Outcome :=
  match e with
  | .raised x => takeException x s
  | .refused r => .refused r

/-- How an instruction begun in `s` ends: all of its writes, or none (R8, R317). -/
def complete (s : State) (r : Res State) : Outcome :=
  match r with
  | .ok t => .next t
  | .error e => stopped e s

/-- Interrupt 13 (R304). -/
def interrupt13 : Exception := .gp none

/-- #GP(0). -/
def gp0 : Exception := .gp (some 0)

/-- The error code of a selector: its RPL bits zero (R306, D32). -/
def selCode (sel : Word) : Word := sel &&& 0xFFFC

/-- #GP(selector). -/
def gpSel (sel : Word) : Exception := .gp (some (selCode sel))

/-- #NP(selector). -/
def npSel (sel : Word) : Exception := .np (selCode sel)

/-- The vector of an exception (R301, D37); no rule uses it. -/
def Exception.vector : Exception → Nat
  | .ud => 6 | .np _ => 11 | .ss _ => 12 | .gp _ => 13 | .pf _ _ => 14

/-! ### Physical memory -/

/-- The byte at a physical address; an unlisted address has no value (R69, R341; log 9). -/
def memGet : List Host.Cell → Nat → Option Byte
  | [], _ => none
  | c :: m, a => if a = c.1 then some c.2 else memGet m a

/-- A byte stored at its place in the rising order. -/
def memSet : List Host.Cell → Nat → Byte → List Host.Cell
  | [], a, b => [(a, b)]
  | c :: m, a, b =>
    if a < c.1 then (a, b) :: c :: m else if a = c.1 then (a, b) :: m else c :: memSet m a b

/-- The canonical form: addresses strictly rising from above `lo`, and physical (R5). -/
def memRising : Option Nat → List Host.Cell → Bool
  | _, [] => true
  | lo, c :: m => (match lo with | none => true | some l => decide (l < c.1)) && decide (c.1 < 2 ^ Config.physBits)
      && memRising (some c.1) m

/-- The canonical form of memory. -/
def Memory.wf (m : List Host.Cell) : Bool := memRising none m

/-- An address added to a list without repeats. -/
def addStored (l : List Nat) (p : Nat) : List Nat := if p ∈ l then l else p :: l

/-! ### Translation and linear accesses -/

/-- The level of an instruction's own operand access (R66). The stack read of LEAVE and the string read of LODS are taken
as such accesses, DEDUCED (log 35). -/
def State.level (s : State) : Level := if s.cpl = 3 then .user else .supervisor

/-- `PageTranslate` where it applies, the identity elsewhere (R79). -/
def translate (a : Dword) (acc : Access) (lvl : Level) (s : State) : Res Nat :=
  if s.mode = .real ∨ s.pg = false then .ok a.toNat
  else match Config.pageTranslate a acc lvl with
    | .phys p => .ok p.toNat
    | .pageFault code => raise (.pf code a)

/-- The `n` bytes from `a` upward, each translated on its own, in rising order and modulo 2^32 (R65, R66). -/
def translateRange (acc : Access) (lvl : Level) (s : State) : Nat → Dword → Res (List Nat)
  | 0, _ => .ok []
  | n + 1, a => do
    let p ← translate a acc lvl s
    let ps ← translateRange acc lvl s n (a + 1)
    .ok (p :: ps)

/-- A populated byte, else `refuse` (R69, R341). -/
def readCell (m : List Host.Cell) (p : Nat) : Res Byte :=
  match memGet m p with
  | some b => .ok b
  | none => refuse (.unpopulated p)

def readCells (m : List Host.Cell) : List Nat → Res (List Byte)
  | [] => .ok []
  | p :: ps => do
    let b ← readCell m p
    let bs ← readCells m ps
    .ok (b :: bs)

/-- The little-endian value of bytes (R64), zero-extended to the widest access of R66. -/
def leValue : List Byte → BitVec 64
  | [] => 0
  | b :: bs => (leValue bs <<< 8) ||| b.setWidth 64

/-- `MemRead(addr, n)` (R66). -/
def memRead (a : Dword) (n : Nat) (lvl : Level) (s : State) : Res (BitVec 64) := do
  let ps ← translateRange .read lvl s n a
  let bs ← readCells s.mem ps
  .ok (leValue bs)

/-- The bytes of a value stored at physical addresses, the least significant first. -/
def writeCells : List Host.Cell → List Nat → BitVec 64 → Res (List Host.Cell)
  | m, [], _ => .ok m
  | m, p :: ps, v =>
    match memGet m p with
    | some _ => writeCells (memSet m p (v.extractLsb' 0 8)) ps (v >>> 8)
    | none => refuse (.unpopulated p)

/-- `MemWrite(addr, n, v)` (R67): translated whole before any byte is written. The addresses written are remembered
for R82 (log 11). -/
def memWrite (a : Dword) (n : Nat) (v : BitVec 64) (lvl : Level) (s : State) : Res State := do
  let ps ← translateRange .write lvl s n a
  let m ← writeCells s.mem ps v
  .ok ((s.withMem m).withStored (ps.foldl addStored s.stored))

/-! ### Segment checks -/

/-- The exception of an illegal address in a segment (R72). -/
def segFault (n : SegName) : Exception :=
  match n with
  | .ss => .ss 0
  | .es | .cs | .ds | .fs | .gs => gp0

/-- The limit test of R72 for `n` bytes (`n` at least 1) at offset `off`. -/
def limitOk (r : SegReg) (off : Dword) (n : Nat) : Bool :=
  let last := off.toNat + n - 1
  if isExpandDown r.ar then
    decide (r.limit.toNat < off.toNat) && decide (last ≤ if attrBig r.ar then 0xFFFFFFFF else 0xFFFF)
  else decide (last ≤ r.limit.toNat)

/-- The access-type test of R73; it says nothing of a fetch (log 8). -/
def typeOk (r : SegReg) (acc : Access) : Bool :=
  match acc with
  | .read => !(isCode r.ar && !isReadableCode r.ar)
  | .write => !(isCode r.ar) && !(isData r.ar && !isWritableData r.ar)
  | .fetch => true

/-- The segment check of the current mode (R70; R71, R72, R73 in that order). -/
def segCheck (n : SegName) (off : Dword) (len : Nat) (acc : Access) (s : State) : Res Unit :=
  match s.mode with
  | .real | .v86 => require (decide (off.toNat + len - 1 ≤ 0xFFFF)) interrupt13
  | .prot => do
    require (s.seg n).valid gp0
    require (limitOk (s.seg n) off len) (segFault n)
    require (typeOk (s.seg n) acc) (segFault n)

/-- The linear address of an offset (R61). -/
def State.linear (s : State) (n : SegName) (off : Dword) : Dword := (s.seg n).base + off

/-- `SegRead(Seg, off, n)` (R74), at the level of an operand access whichever instruction reads, LEAVE and LODS among them
(DEDUCED, log 35). -/
def segRead (n : SegName) (off : Dword) (len : Nat) (s : State) : Res (BitVec 64) := do
  segCheck n off len .read s
  memRead (s.linear n off) len s.level s

/-- `SegWrite(Seg, off, n, v)` (R74); no instruction in scope uses it (R73). -/
def segWrite (n : SegName) (off : Dword) (len : Nat) (v : BitVec 64) (s : State) : Res State := do
  segCheck n off len .write s
  memWrite (s.linear n off) len v s.level s

/-! ### Descriptors -/

/-- A descriptor as two doublewords (R76), and the linear address it was read at. -/
structure Desc where
  lo : Dword
  hi : Dword
  addr : Dword
  deriving DecidableEq, Repr

/-- `base(d)` (R76). -/
def Desc.base (d : Desc) : Dword :=
  d.hi.extractLsb' 24 8 ++ d.hi.extractLsb' 0 8 ++ d.lo.extractLsb' 16 16

/-- The 20-bit raw limit (R76). -/
def Desc.rawLimit (d : Desc) : BitVec 20 := d.hi.extractLsb' 16 4 ++ d.lo.extractLsb' 0 16

/-- The byte-granular limit (R76, R262). -/
def Desc.byteLimit (d : Desc) : Dword :=
  if attrGranular d.hi then (d.rawLimit.setWidth 32 <<< 12) ||| 0x00000FFF else d.rawLimit.setWidth 32

/-- RPL (R77). -/
def selRpl (sel : Word) : BitVec 2 := sel.extractLsb' 0 2
/-- TI: the LDT (R77). -/
def selTI (sel : Word) : Bool := sel.getLsbD 2
/-- The index (R77). -/
def selIndex (sel : Word) : Nat := (sel.extractLsb' 3 13).toNat
/-- A null selector, 0000 to 0003 (R77). -/
def selNull (sel : Word) : Bool := decide (sel.extractLsb' 2 14 = 0)

/-- The base, limit and validity of the table a selector points into (R77). -/
def State.table (s : State) (sel : Word) : Dword × Nat × Bool :=
  if selTI sel then (s.ldtr.base, s.ldtr.limit.toNat, s.ldtr.valid)
  else (s.gdtr.base, s.gdtr.limit.toNat, true)

/-- The linear address of the descriptor a selector names (R61, R77). -/
def State.descAddr (s : State) (sel : Word) : Dword :=
  (s.table sel).1 + BitVec.ofNat 32 (8 * selIndex sel)

/-- Whether a selector lies within its table (R77). -/
def State.inTable (s : State) (sel : Word) : Bool :=
  (s.table sel).2.2 && decide (8 * selIndex sel + 7 ≤ (s.table sel).2.1)

/-- `DescFetch(sel)` (R77); `none` is `OutOfTable`. -/
def descFetch (sel : Word) (s : State) : Res (Option Desc) :=
  if s.inTable sel then do
    let d ← memRead (s.descAddr sel) 8 .supervisor s
    .ok (some ⟨d.extractLsb' 0 32, d.extractLsb' 32 32, s.descAddr sel⟩)
  else .ok none

/-- `DescFetch` for the instructions that turn `OutOfTable` into #GP(selector) (R77, R315). -/
def descFetchOrGp (sel : Word) (s : State) : Res Desc := do
  match ← descFetch sel s with
  | some d => .ok d
  | none => raise (gpSel sel)

/-- The linear address of byte 5 of a descriptor, its access-rights byte (R61, R76). -/
def Desc.arAddr (d : Desc) : Dword := d.addr + 5

/-- The access-rights byte (R76). -/
def Desc.arByte (d : Desc) : Byte := d.hi.extractLsb' 8 8

/-! ### Privilege -/

/-- The CPL test of LGDT, LIDT, LLDT, LMSW and LTR: it binds in Protected Mode (R321). -/
def requireCpl0 (s : State) : Res Unit :=
  require (decide (s.mode = .prot → s.cpl = 0)) gp0

/-- Recognized in Protected Mode only: LAR, LSL, LLDT, LTR (R302 e). -/
def requireProtected (s : State) : Res Unit := require (decide (s.mode = .prot)) .ud

end Sys2Proof.Machine
end

