-- ==== Sys2Proof/Machine/Operands.lean ====
section
/-! DEFINITION. Operand forms: effective addresses (rules R109 to R115), the segment of a memory operand (R114), and
the reads of register-or-memory operands (R108, R154). -/

namespace Sys2Proof.Machine

/-- The base of a 16-bit operand, modulo 2^16 (R110). -/
def base16Value (s : State) : Base16 → Word
  | .bxsi => s.r16 .ebx + s.r16 .esi
  | .bxdi => s.r16 .ebx + s.r16 .edi
  | .bpsi => s.r16 .ebp + s.r16 .esi
  | .bpdi => s.r16 .ebp + s.r16 .edi
  | .si => s.r16 .esi
  | .di => s.r16 .edi
  | .bp => s.r16 .ebp
  | .bx => s.r16 .ebx

/-- A displacement at its address size: a byte is sign-extended (R109). -/
def dispValue {w : Nat} : Disp w → BitVec w
  | .absent => 0
  | .d8 d => d.signExtend w
  | .full d => d

/-- The scaled index, 0 when there is none (R112). -/
def indexValue (s : State) (scale : BitVec 2) : Option Reg → Dword
  | none => 0
  | some r => s.r32 r <<< scale.toNat

/-- `EA`, a 16-bit one zero-extended (R110 to R112, R115). -/
def effAddr (m : MemOp) (s : State) : Dword :=
  match m with
  | .abs16 d => d.setWidth 32
  | .base16 b d => (base16Value s b + dispValue d).setWidth 32
  | .abs32 d => d
  | .base32 b d => s.r32 b + dispValue d
  | .sib sc ix b d => s.r32 b + indexValue s sc ix + dispValue d
  | .sibAbs sc ix d => indexValue s sc ix + d

/-- The default segment: SS for a base of BP, EBP or ESP (R110 to R112). -/
def defaultSeg : MemOp → SegName
  | .abs16 _ => .ds
  | .base16 b _ =>
    match b with
    | .bpsi | .bpdi | .bp => .ss
    | .bxsi | .bxdi | .si | .di | .bx => .ds
  | .abs32 _ => .ds
  | .base32 b _ | .sib _ _ b _ =>
    match b with
    | .esp | .ebp => .ss
    | .eax | .ecx | .edx | .ebx | .esi | .edi => .ds
  | .sibAbs _ _ _ => .ds

/-- `EASeg`: the override, else the default (R114). -/
def easeg (h : Head) (m : MemOp) : SegName := h.segOverride.getD (defaultSeg m)

/-- `SegRead(EASeg, EA, n)`. -/
def readMem (h : Head) (m : MemOp) (n : Nat) (s : State) : Res (BitVec 64) :=
  segRead (easeg h m) (effAddr m s) n s

/-- The operand of LLDT, LMSW and LTR: 16 bits whatever the operand size (R108). -/
def readRm16 (h : Head) (rm : RM) (s : State) : Res Word :=
  match rm with
  | .reg r => .ok (s.r16 r)
  | .mem m => do
    let v ← readMem h m 2 s
    .ok (v.extractLsb' 0 16)

/-- The memory source of the 32-bit LAR and LSL: four bytes, refused where two bytes can be read and four raise
(R154, D15; log 16). -/
def readBand (h : Head) (m : MemOp) (s : State) : Res (BitVec 64) :=
  match readMem h m Config.larLslMem32Width s, readMem h m 2 s with
  | .error (.raised _), .ok _ => refuse .memWidthBand
  | r, _ => r

/-- The selector LAR and LSL examine: the low 16 bits of the source (R150, R154). -/
def readSelector (z : Size) (h : Head) (rm : RM) (s : State) : Res Word :=
  match rm with
  | .reg r => .ok (s.r16 r)
  | .mem m => do
    let v ← match z with
      | .s16 => readMem h m 2 s
      | .s32 => readBand h m s
    .ok (v.extractLsb' 0 16)

end Sys2Proof.Machine
end

