-- ==== Sys2Proof/Machine/AccessRights.lean ====
section
/-! DEFINITION. LAR and LSL (rules R150 to R156 and R260 to R266). -/

namespace Sys2Proof.Machine

/-- The LAR column of R151 for the sixteen system types. -/
def larSystemType (t : BitVec 4) : Bool :=
  match t.toNat with
  | 0x0 => false  -- Invalid
  | 0x1 => true   -- Available 80286 TSS
  | 0x2 => true   -- LDT
  | 0x3 => true   -- Busy 80286 TSS
  | 0x4 => true   -- 80286 call gate
  | 0x5 => true   -- 80286/80386 task gate
  | 0x6 => true   -- 80286 trap gate
  | 0x7 => true   -- 80286 interrupt gate
  | 0x8 => false  -- Invalid
  | 0x9 => true   -- Available 80386 TSS
  | 0xA => false  -- Invalid
  | 0xB => true   -- Busy 80386 TSS
  | 0xC => true   -- 80386 call gate
  | 0xD => false  -- Invalid
  | 0xE => true   -- 80386 trap gate
  | _ => true     -- F: 80386 interrupt gate

/-- The LSL column of R261 (this spec's reading; type 8 is invalid, C3, D17). -/
def lslSystemType (t : BitVec 4) : Bool :=
  match t.toNat with
  | 0x0 => false  -- Invalid
  | 0x1 => true   -- Available 80286 TSS
  | 0x2 => true   -- LDT
  | 0x3 => true   -- Busy 80286 TSS
  | 0x4 => false  -- 80286 call gate
  | 0x5 => false  -- 80286/80386 task gate
  | 0x6 => false  -- 80286 trap gate
  | 0x7 => false  -- 80286 interrupt gate
  | 0x8 => false  -- Invalid
  | 0x9 => true   -- Available 80386 TSS
  | 0xA => false  -- Invalid
  | 0xB => true   -- Busy 80386 TSS
  | 0xC => false  -- 80386 call gate
  | 0xD => false  -- Invalid
  | 0xE => false  -- 80386 trap gate
  | _ => false    -- F: 80386 interrupt gate

/-- `LarTypeValid` (R151): every code and data segment, and the valid system types. -/
def larTypeValid (hi : Dword) : Bool := attrS hi || larSystemType (attrType hi)

/-- `LslTypeValid` (R261). -/
def lslTypeValid (hi : Dword) : Bool := attrS hi || lslSystemType (attrType hi)

/-- `Visible(sel, hi)` (R152, D13). -/
def visible (sel : Word) (hi : Dword) (s : State) : Bool :=
  isConforming hi || (decide (s.cpl ≤ attrDpl hi) && decide (selRpl sel ≤ attrDpl hi))

/-- The descriptor LAR and LSL find: none for a null selector, one outside its table, of a wrong type or not visible
(R150, R153, R260). -/
def examine (typeValid : Dword → Bool) (sel : Word) (s : State) : Res (Option Desc) :=
  if selNull sel then .ok none
  else do
    match ← descFetch sel s with
    | some d => .ok (if typeValid d.hi && visible sel d.hi s then some d else none)
    | none => .ok none

/-- The value LAR loads: the high doubleword masked by 00FxFF00, x a draw (R150). -/
def larValue (hi : Dword) (u : BitVec 4) : Dword := (hi &&& arMask) ||| (u.setWidth 32 <<< 16)

/-- LAR (R150): the destination and ZF = 1 on success, ZF = 0 alone otherwise (R156). -/
def larOp (z : Size) (h : Head) (dst : Reg) (src : RM) (len : Nat) (s : State) : Res State := do
  requireProtected s
  let sel ← readSelector z h src s
  match ← examine larTypeValid sel s with
  | some d =>
    .ok ((((s.setReg z dst (larValue d.hi (Config.larUndef s.draws))).withDraws (s.draws + 1)).setZF true).advance len)
  | none => .ok ((s.setZF false).advance len)

/-- LSL (R260): the byte-granular limit and ZF = 1 on success, ZF = 0 alone otherwise. -/
def lslOp (z : Size) (h : Head) (dst : Reg) (src : RM) (len : Nat) (s : State) : Res State := do
  requireProtected s
  let sel ← readSelector z h src s
  match ← examine lslTypeValid sel s with
  | some d => .ok (((s.setReg z dst d.byteLimit).setZF true).advance len)
  | none => .ok ((s.setZF false).advance len)

/-- LAR r16,r/m16 (R150). -/
def execLar16 (h : Head) (dst : Reg) (src : RM) (s : State) : Outcome :=
  complete s (larOp .s16 h dst src (Instr.lar16 h dst src).len s)

/-- LAR r32,r/m32 (R150). -/
def execLar32 (h : Head) (dst : Reg) (src : RM) (s : State) : Outcome :=
  complete s (larOp .s32 h dst src (Instr.lar32 h dst src).len s)

/-- LSL r16,r/m16 (R260, R263). -/
def execLsl16 (h : Head) (dst : Reg) (src : RM) (s : State) : Outcome :=
  complete s (lslOp .s16 h dst src (Instr.lsl16 h dst src).len s)

/-- LSL r32,r/m32 (R260, R263). -/
def execLsl32 (h : Head) (dst : Reg) (src : RM) (s : State) : Outcome :=
  complete s (lslOp .s32 h dst src (Instr.lsl32 h dst src).len s)

end Sys2Proof.Machine
end

