-- ==== Sys2Proof/Machine/FarPointer.lean ====
section
/-! DEFINITION. LDS, LES, LFS, LGS, LSS and the loading of a segment register (rules R190 to R204). -/

namespace Sys2Proof.Machine

/-- `LoadSegReal(sel)` (R195): the base is the selector times 16; limit, attributes and valid bit stay. -/
def loadSegReal (n : SegName) (sel : Word) (s : State) : State :=
  s.setSeg n { s.seg n with sel := sel, base := sel.setWidth 32 <<< 4 }

/-- The checks on the descriptor when SS is loaded, in the listed order (R197 items 3 to 6). -/
def stackSegChecks (sel : Word) (hi : Dword) (s : State) : Res Unit := do
  require (decide (selRpl sel = s.cpl)) (gpSel sel)
  require (isWritableData hi) (gpSel sel)
  require (decide (attrDpl hi = s.cpl)) (gpSel sel)
  require (attrPresent hi) (.ss (selCode sel))

/-- The checks on the descriptor when DS, ES, FS or GS is loaded, in the listed order (R198 items 2 to 4). -/
def dataSegChecks (sel : Word) (hi : Dword) (s : State) : Res Unit := do
  require (isData hi || isReadableCode hi) (gpSel sel)
  require (isConforming hi || (decide (selRpl sel ≤ attrDpl hi) && decide (s.cpl ≤ attrDpl hi))) (gpSel sel)
  require (attrPresent hi) (npSel sel)

/-- The accessed bit after a load (R201, D20; log 5): old OR a draw, in memory and in the attributes kept; every other
bit of the byte in memory stays. -/
def markAccessed (d : Desc) (s : State) : Res (State × Dword) :=
  if d.hi.getLsbD 8 then .ok (s, d.hi)
  else
    let u := Config.accessedUndef s.draws
    match translate d.arAddr .write .supervisor s with
    | .ok p => do
      let b ← readCell s.mem p
      .ok (((s.withMem (memSet s.mem p (b ||| u.setWidth 8))).withStored (addStored s.stored p)).withDraws (s.draws + 1),
        d.hi ||| (u.setWidth 32 <<< 8))
    | .error (.raised _) => refuse .accessedBitPageFault
    | .error (.refused r) => refuse r

/-- `LoadSegProtected(S, sel)` (R196 to R201). A null selector is #GP(0) for SS and clears the valid bit of the others
(R199). -/
def loadSegProtected (n : SegName) (sel : Word) (s : State) : Res State :=
  if selNull sel then
    if n = .ss then raise gp0 else .ok (s.setSeg n { s.seg n with sel := sel, valid := false })
  else do
    let d ← descFetchOrGp sel s
    if n = .ss then stackSegChecks sel d.hi s else dataSegChecks sel d.hi s
    let p ← markAccessed d s
    .ok (p.1.setSeg n ⟨sel, d.base, d.byteLimit, p.2 &&& arMask, true⟩)

/-- The load of a segment register in the current mode (R190). -/
def loadSeg (n : SegName) (sel : Word) (s : State) : Res State :=
  match s.mode with
  | .prot => loadSegProtected n sel s
  | .real | .v86 => .ok (loadSegReal n sel s)

/-- A pointer load (R190): the whole pointer is read in one check (R192); segment and general register are written
together, after every check (R194); a register operand is #UD (R193). -/
def farOp (n : SegName) (z : Size) (h : Head) (dst : Reg) (src : RM) (len : Nat) (s : State) : Res State :=
  match src with
  | .reg _ => raise .ud
  | .mem m => do
    let p ← readMem h m (sizeBytes z + 2) s
    let t ← loadSeg n (p.extractLsb' (8 * sizeBytes z) 16) s
    .ok ((t.setReg z dst (p.extractLsb' 0 32)).advance len)

/-- LDS r16,m16:16 (R190). -/
def execLds16 (h : Head) (dst : Reg) (src : RM) (s : State) : Outcome :=
  complete s (farOp .ds .s16 h dst src (Instr.lds16 h dst src).len s)

/-- LDS r32,m16:32 (R190). -/
def execLds32 (h : Head) (dst : Reg) (src : RM) (s : State) : Outcome :=
  complete s (farOp .ds .s32 h dst src (Instr.lds32 h dst src).len s)

/-- LSS r16,m16:16 (R190). -/
def execLss16 (h : Head) (dst : Reg) (src : RM) (s : State) : Outcome :=
  complete s (farOp .ss .s16 h dst src (Instr.lss16 h dst src).len s)

/-- LSS r32,m16:32 (R190). -/
def execLss32 (h : Head) (dst : Reg) (src : RM) (s : State) : Outcome :=
  complete s (farOp .ss .s32 h dst src (Instr.lss32 h dst src).len s)

/-- LES r16,m16:16 (R190). -/
def execLes16 (h : Head) (dst : Reg) (src : RM) (s : State) : Outcome :=
  complete s (farOp .es .s16 h dst src (Instr.les16 h dst src).len s)

/-- LES r32,m16:32 (R190). -/
def execLes32 (h : Head) (dst : Reg) (src : RM) (s : State) : Outcome :=
  complete s (farOp .es .s32 h dst src (Instr.les32 h dst src).len s)

/-- LFS r16,m16:16 (R190). -/
def execLfs16 (h : Head) (dst : Reg) (src : RM) (s : State) : Outcome :=
  complete s (farOp .fs .s16 h dst src (Instr.lfs16 h dst src).len s)

/-- LFS r32,m16:32 (R190). -/
def execLfs32 (h : Head) (dst : Reg) (src : RM) (s : State) : Outcome :=
  complete s (farOp .fs .s32 h dst src (Instr.lfs32 h dst src).len s)

/-- LGS r16,m16:16 (R190, R191). -/
def execLgs16 (h : Head) (dst : Reg) (src : RM) (s : State) : Outcome :=
  complete s (farOp .gs .s16 h dst src (Instr.lgs16 h dst src).len s)

/-- LGS r32,m16:32 (R190, R191). -/
def execLgs32 (h : Head) (dst : Reg) (src : RM) (s : State) : Outcome :=
  complete s (farOp .gs .s32 h dst src (Instr.lgs32 h dst src).len s)

end Sys2Proof.Machine
end

