-- ==== Sys2Proof/Machine/Lahf.lean ====
section
/-! DEFINITION. LAHF (rules R140 to R142). -/

namespace Sys2Proof.Machine

/-- LAHF (R140): AH takes the low byte of the flags word; its three indeterminate bits are a draw (R141). -/
def execLahf (h : Head) (s : State) : Outcome :=
  complete s (.ok (((s.setR8 .ah (flagsByte s.eflags (Config.lahfUndef s.draws))).withDraws (s.draws + 1)).advance
    (Instr.lahf h).len))

end Sys2Proof.Machine
end

