-- ==== Sys2Proof/Machine/Lea.lean ====
section
/-! DEFINITION. LEA (rules R160 to R163). -/

namespace Sys2Proof.Machine

/-- LEA at an operand size (R160): the offset, truncated or zero-extended to the destination; no segment check and no
memory access (R161); a register operand is #UD (R162). -/
def leaOp (z : Size) (dst : Reg) (src : RM) (len : Nat) (s : State) : Res State :=
  match src with
  | .reg _ => raise .ud
  | .mem m => .ok ((s.setReg z dst (effAddr m s)).advance len)

/-- LEA r16,m (R160). -/
def execLea16 (h : Head) (dst : Reg) (src : RM) (s : State) : Outcome :=
  complete s (leaOp .s16 dst src (Instr.lea16 h dst src).len s)

/-- LEA r32,m (R160). -/
def execLea32 (h : Head) (dst : Reg) (src : RM) (s : State) : Outcome :=
  complete s (leaOp .s32 dst src (Instr.lea32 h dst src).len s)

end Sys2Proof.Machine
end

