-- ==== Sys2Proof/Machine/Leave.lean ====
section
/-! DEFINITION. LEAVE (rules R170 to R174). -/

namespace Sys2Proof.Machine

/-- The read of `Pop()` (R171): `SegRead` on SS, whose checks R71 to R73 are all behind LEAVE's #SS(0) in Protected Mode
(R173, R309, D35), so that an invalid SS is #SS(0) too (against the words of R71 alone, log 12). -/
def popRead (off : Dword) (n : Nat) (s : State) : Res (BitVec 64) :=
  if s.mode = .prot ∧ (s.seg .ss).valid = false then raise (.ss 0) else segRead .ss off n s

/-- LEAVE (R170): the stack pointer is the frame pointer plus the bytes popped, at StackAddrSize; the frame pointer is
what was popped, at OperandSize; the read is checked before either is written. -/
def leaveOp (h : Head) (len : Nat) (s : State) : Res State := do
  let fp := s.reg s.stackSize .ebp
  let n := sizeBytes h.opSize
  let v ← popRead fp n s
  .ok (((s.setReg s.stackSize .esp (fp + BitVec.ofNat 32 n)).setReg h.opSize .ebp (v.extractLsb' 0 32)).advance len)

/-- LEAVE (R170). -/
def execLeave (h : Head) (s : State) : Outcome :=
  complete s (leaveOp h (Instr.leave h).len s)

end Sys2Proof.Machine
end

