-- ==== Sys2Proof/Machine/Lock.lean ====
section
/-! DEFINITION. The LOCK prefix (rules R230 to R237). -/

namespace Sys2Proof.Machine

/-- LOCK (R230): #UD before every instruction of this spec, none being in R231's list (R232); no meaning before an
out-of-scope opcode (R237). -/
def execLock (_h : Head) (target : LockTarget) (s : State) : Outcome :=
  complete s (match target with
    | .inScope _ => raise .ud
    | .outOfScope o => refuse (.lockOutOfScope o))

end Sys2Proof.Machine
end

