-- ==== Sys2Proof/Machine/Lods.lean ====
section
/-! DEFINITION. LODS and its synonyms LODSB, LODSW, LODSD (rules R240 to R245, R127). -/

namespace Sys2Proof.Machine

/-- The three widths of LODS. -/
inductive LodsWidth where
  | byte
  | word
  | dword
  deriving DecidableEq, Repr

def lodsBytes : LodsWidth → Nat
  | .byte => 1
  | .word => 2
  | .dword => 4

/-- AL, AX or EAX takes the value (R240). -/
def loadAccumulator (w : LodsWidth) (v : BitVec 64) (s : State) : State :=
  match w with
  | .byte => s.setR8 .al (v.extractLsb' 0 8)
  | .word => s.setR16 .eax (v.extractLsb' 0 16)
  | .dword => s.setR32 .eax (v.extractLsb' 0 32)

/-- The index after the load (R241): up when DF is 0, down when it is 1. -/
def nextIndex (df : Bool) (idx : Dword) (n : Nat) : Dword :=
  if df then idx - BitVec.ofNat 32 n else idx + BitVec.ofNat 32 n

/-- LODS (R240): from SI or ESI by address size (R241), in DS or the overriding segment (R242). -/
def lodsOp (w : LodsWidth) (h : Head) (len : Nat) (s : State) : Res State := do
  let idx := s.reg h.addrSize .esi
  let v ← segRead (h.segOverride.getD .ds) idx (lodsBytes w) s
  .ok (((loadAccumulator w v s).setReg h.addrSize .esi (nextIndex s.df idx (lodsBytes w))).advance len)

/-- LODS m8 (R240). -/
def execLods8 (h : Head) (s : State) : Outcome := complete s (lodsOp .byte h (Instr.lods8 h).len s)

/-- LODSB, LODS m8 with the operand implied (R127). -/
def execLodsb (h : Head) (s : State) : Outcome := complete s (lodsOp .byte h (Instr.lodsb h).len s)

/-- LODS m16 (R240). -/
def execLods16 (h : Head) (s : State) : Outcome := complete s (lodsOp .word h (Instr.lods16 h).len s)

/-- LODSW, LODS m16 with the operand implied (R127). -/
def execLodsw (h : Head) (s : State) : Outcome := complete s (lodsOp .word h (Instr.lodsw h).len s)

/-- LODS m32 (R240). -/
def execLods32 (h : Head) (s : State) : Outcome := complete s (lodsOp .dword h (Instr.lods32 h).len s)

/-- LODSD, LODS m32 with the operand implied (R127). -/
def execLodsd (h : Head) (s : State) : Outcome := complete s (lodsOp .dword h (Instr.lodsd h).len s)

end Sys2Proof.Machine
end

