-- ==== Sys2Proof/Machine/Loop.lean ====
section
/-! DEFINITION. LOOP, LOOPE = LOOPZ, LOOPNE = LOOPNZ (rules R250 to R256, R127). -/

namespace Sys2Proof.Machine

/-- The count after the decrement, at the address size (R253). -/
def loopCount (h : Head) (s : State) : Dword := truncTo h.addrSize (s.reg h.addrSize .ecx - 1)

/-- The target of a taken branch: from the end of the instruction, of 16 bits when OperandSize is 16 (R250, R255). -/
def loopTarget (h : Head) (rel : Byte) (len : Nat) (s : State) : Dword :=
  truncTo h.opSize (s.nextPc len + rel.signExtend 32)

/-- `TargetCheck(t)` (R251): the CS limit in Protected Mode; no meaning above 0FFFFH elsewhere. -/
def targetCheck (t : Dword) (s : State) : Res Unit :=
  match s.mode with
  | .prot => require (decide (t ≤ (s.seg .cs).limit)) gp0
  | .real | .v86 => refuseIf (decide (0xFFFF < t)) (.loopTargetBeyond64K t)

/-- The LOOP family (R250): the count is decremented; the branch is taken when the count is not zero and the condition
on ZF holds. -/
def loopOp (cond : Bool → Bool) (h : Head) (rel : Byte) (len : Nat) (s : State) : Res State :=
  let c := loopCount h s
  if c ≠ 0 ∧ cond s.zf = true then do
    targetCheck (loopTarget h rel len s) s
    .ok ((s.setReg h.addrSize .ecx c).withEip (loopTarget h rel len s))
  else .ok ((s.setReg h.addrSize .ecx c).advance len)

/-- LOOP rel8 (R250). -/
def execLoop (h : Head) (rel : Byte) (s : State) : Outcome :=
  complete s (loopOp (fun _ => true) h rel (Instr.loop h rel).len s)

/-- LOOPE rel8 (R250). -/
def execLoope (h : Head) (rel : Byte) (s : State) : Outcome :=
  complete s (loopOp (fun z => z) h rel (Instr.loope h rel).len s)

/-- LOOPZ rel8, another spelling of LOOPE (R127). -/
def execLoopz (h : Head) (rel : Byte) (s : State) : Outcome :=
  complete s (loopOp (fun z => z) h rel (Instr.loopz h rel).len s)

/-- LOOPNE rel8 (R250). -/
def execLoopne (h : Head) (rel : Byte) (s : State) : Outcome :=
  complete s (loopOp (fun z => !z) h rel (Instr.loopne h rel).len s)

/-- LOOPNZ rel8, another spelling of LOOPNE (R127). -/
def execLoopnz (h : Head) (rel : Byte) (s : State) : Outcome :=
  complete s (loopOp (fun z => !z) h rel (Instr.loopnz h rel).len s)

end Sys2Proof.Machine
end

