-- ==== Sys2Proof/Machine/Tables.lean ====
section
/-! DEFINITION. The system-register loads: LGDT, LIDT (rules R180 to R186), LLDT (R210 to R215), LMSW (R216 to R222)
and LTR (R270 to R275). -/

namespace Sys2Proof.Machine

/-- The value of the six-byte operand: limit in the low word, base above it, of 24 bits when the operand size is 16
(R180, R181). -/
def tableValue (z : Size) (v : BitVec 64) : TableReg :=
  match z with
  | .s16 => ⟨(v.extractLsb' 16 24).setWidth 32, v.extractLsb' 0 16⟩
  | .s32 => ⟨v.extractLsb' 16 32, v.extractLsb' 0 16⟩

/-- The operand of LGDT and LIDT with its tests: #UD for a register, CPL 0 in Protected Mode, no meaning in Virtual
8086 Mode, then the read of all six bytes (R180, R183 to R185). -/
def tableOperand (h : Head) (src : RM) (s : State) : Res TableReg :=
  match src with
  | .reg _ => raise .ud
  | .mem m => do
    requireCpl0 s
    refuseIf (decide (s.mode = .v86)) .v86TableLoad
    let v ← readMem h m 6 s
    .ok (tableValue h.opSize v)

def lgdtOp (h : Head) (src : RM) (len : Nat) (s : State) : Res State := do
  let t ← tableOperand h src s
  .ok ((s.withGdtr t).advance len)

def lidtOp (h : Head) (src : RM) (len : Nat) (s : State) : Res State := do
  let t ← tableOperand h src s
  .ok ((s.withIdtr t).advance len)

/-- LLDT (R210): a null selector marks LDTR invalid (R211); else the GDT entry must be a present LDT (R212). -/
def lldtOp (h : Head) (src : RM) (len : Nat) (s : State) : Res State := do
  requireProtected s
  requireCpl0 s
  let sel ← readRm16 h src s
  if selNull sel then
    .ok ((s.withLdtr { s.ldtr with sel := sel, valid := false }).advance len)
  else do
    require (!selTI sel) (gpSel sel)
    let d ← descFetchOrGp sel s
    require (isSystem d.hi 2) (gpSel sel)
    require (attrPresent d.hi) (npSel sel)
    .ok ((s.withLdtr ⟨sel, d.base, d.byteLimit, true⟩).advance len)

/-- The machine status word LMSW stores: PE cannot be cleared (R216, R217). -/
def newMsw (pe : Bool) (src : Word) : Word := if pe then src ||| 1 else src

/-- LMSW (R216); setting PE owes an intrasegment jump (R219, R346). -/
def lmswOp (h : Head) (src : RM) (len : Nat) (s : State) : Res State := do
  requireCpl0 s
  refuseIf (decide (s.mode = .v86)) .v86Lmsw
  let v ← readRm16 h src s
  .ok (((s.withCr0 (s.cr0.extractLsb' 16 16 ++ newMsw s.pe v)).withJumpPending
    (s.jumpPending || (!s.pe && v.getLsbD 0))).advance len)

/-- LTR (R270): the GDT entry must be a present, available TSS (R272); its busy bit is set in memory (R271). -/
def ltrOp (h : Head) (src : RM) (len : Nat) (s : State) : Res State := do
  requireProtected s
  requireCpl0 s
  let sel ← readRm16 h src s
  require (!selNull sel && !selTI sel) (gpSel sel)
  let d ← descFetchOrGp sel s
  require (isSystem d.hi 1 || isSystem d.hi 9) (gpSel sel)
  require (attrPresent d.hi) (npSel sel)
  let t ← memWrite d.arAddr 1 ((d.arByte ||| 0x02).setWidth 64) .supervisor s
  .ok ((t.withTr ⟨sel, d.base, d.byteLimit, (d.hi ||| 0x00000200) &&& arMask⟩).advance len)

/-- LGDT m16&32 (R180). -/
def execLgdt (h : Head) (src : RM) (s : State) : Outcome :=
  complete s (lgdtOp h src (Instr.lgdt h src).len s)

/-- LIDT m16&32 (R180). -/
def execLidt (h : Head) (src : RM) (s : State) : Outcome :=
  complete s (lidtOp h src (Instr.lidt h src).len s)

/-- LLDT r/m16 (R210). -/
def execLldt (h : Head) (src : RM) (s : State) : Outcome :=
  complete s (lldtOp h src (Instr.lldt h src).len s)

/-- LMSW r/m16 (R216). -/
def execLmsw (h : Head) (src : RM) (s : State) : Outcome :=
  complete s (lmswOp h src (Instr.lmsw h src).len s)

/-- LTR r/m16 (R270). -/
def execLtr (h : Head) (src : RM) (s : State) : Outcome :=
  complete s (ltrOp h src (Instr.ltr h src).len s)

end Sys2Proof.Machine
end

