-- ==== Sys2Proof/Machine/Dispatch.lean ====
section
/-! DEFINITION. The meaning of every instruction: one arm for each constructor. -/

namespace Sys2Proof.Machine

def exec (i : Instr) (s : State) : Host.Outcome State Fault Refusal :=
  match i with
  | .lahf h => Sys2Proof.Machine.execLahf h s
  | .lar16 h dst src => Sys2Proof.Machine.execLar16 h dst src s
  | .lar32 h dst src => Sys2Proof.Machine.execLar32 h dst src s
  | .lea16 h dst src => Sys2Proof.Machine.execLea16 h dst src s
  | .lea32 h dst src => Sys2Proof.Machine.execLea32 h dst src s
  | .leave h => Sys2Proof.Machine.execLeave h s
  | .lgdt h src => Sys2Proof.Machine.execLgdt h src s
  | .lidt h src => Sys2Proof.Machine.execLidt h src s
  | .lds16 h dst src => Sys2Proof.Machine.execLds16 h dst src s
  | .lds32 h dst src => Sys2Proof.Machine.execLds32 h dst src s
  | .lss16 h dst src => Sys2Proof.Machine.execLss16 h dst src s
  | .lss32 h dst src => Sys2Proof.Machine.execLss32 h dst src s
  | .les16 h dst src => Sys2Proof.Machine.execLes16 h dst src s
  | .les32 h dst src => Sys2Proof.Machine.execLes32 h dst src s
  | .lfs16 h dst src => Sys2Proof.Machine.execLfs16 h dst src s
  | .lfs32 h dst src => Sys2Proof.Machine.execLfs32 h dst src s
  | .lgs16 h dst src => Sys2Proof.Machine.execLgs16 h dst src s
  | .lgs32 h dst src => Sys2Proof.Machine.execLgs32 h dst src s
  | .lldt h src => Sys2Proof.Machine.execLldt h src s
  | .lmsw h src => Sys2Proof.Machine.execLmsw h src s
  | .lock h target => Sys2Proof.Machine.execLock h target s
  | .lods8 h => Sys2Proof.Machine.execLods8 h s
  | .lodsb h => Sys2Proof.Machine.execLodsb h s
  | .lods16 h => Sys2Proof.Machine.execLods16 h s
  | .lodsw h => Sys2Proof.Machine.execLodsw h s
  | .lods32 h => Sys2Proof.Machine.execLods32 h s
  | .lodsd h => Sys2Proof.Machine.execLodsd h s
  | .loop h rel => Sys2Proof.Machine.execLoop h rel s
  | .loope h rel => Sys2Proof.Machine.execLoope h rel s
  | .loopz h rel => Sys2Proof.Machine.execLoopz h rel s
  | .loopne h rel => Sys2Proof.Machine.execLoopne h rel s
  | .loopnz h rel => Sys2Proof.Machine.execLoopnz h rel s
  | .lsl16 h dst src => Sys2Proof.Machine.execLsl16 h dst src s
  | .lsl32 h dst src => Sys2Proof.Machine.execLsl32 h dst src s
  | .ltr h src => Sys2Proof.Machine.execLtr h src s

end Sys2Proof.Machine
end

