-- ==== Sys2Proof/Machine/Fetch.lean ====
section
/-! DEFINITION. Fetching and decoding the next instruction (rules R25, R75, R82, R314), and placing one there. -/

namespace Sys2Proof.Machine

/-- One instruction byte (R75): the code segment's check, translation, and the refusal of a byte a descriptor-table
write has stored to (R82; log 11). -/
def fetchByte (off : Dword) (s : State) : Res Byte := do
  segCheck .cs off 1 .fetch s
  let p ← translate (s.linear .cs off) .fetch .supervisor s
  refuseIf (decide (p ∈ s.stored)) (.executesStoredByte p)
  readCell s.mem p

/-- The bytes that can be fetched from `off` upward, at most `n`, and what stops the next one: the failure of its
fetch, or the length cap (R103). R25 and R75 give the offsets as `pc + i` and say modulo 2^32 of `next_pc` alone (R26);
the byte after offset 0FFFFFFFFH is taken to be at offset 0, DEDUCED (log 37). -/
def fetchWindow (s : State) : Nat → Dword → List Byte × Stop
  | 0, _ => ([], .refused .tooLong)
  | n + 1, off =>
    match fetchByte off s with
    | .ok b =>
      match fetchWindow s n (off + 1) with
      | (bs, e) => (b :: bs, e)
    | .error e => ([], e)

/-- How a rejection of the decoder ends the step. -/
def rejection : Reject → Refusal
  | .outOfScope o => .outOfScope o
  | .repBefore => .repBefore
  | .tooLong => .tooLong

/-- The next instruction. A jump owed after LMSW refuses first, no instruction of this spec being one (R346; log 10).
Bytes are fetched as the decoder needs them: a byte that cannot be fetched stops the step only when it is needed
(R314 item 1). -/
def fetchInstr (s : State) : Res Instr :=
  if s.jumpPending then refuse .noJumpAfterLmsw
  else
    match fetchWindow s Config.maxInstrLen s.eip with
    | (bs, e) =>
      match decode s.defaultSize bs with
      | .instr i => .ok i
      | .more => .error e
      | .rejected r => refuse (rejection r)

/-- The physical address the byte at `off` is fetched from; where translation faults, the linear address. -/
def fetchAddr (off : Dword) (s : State) : Nat :=
  match translate (s.linear .cs off) .fetch .supervisor s with
  | .ok p => p
  | .error _ => (s.linear .cs off).toNat

/-- Bytes stored where the fetch reads them, from `off` upward. -/
def placeBytes : State → Dword → List Byte → State
  | s, _, [] => s
  | s, off, b :: bs =>
    placeBytes ((s.withMem (memSet s.mem (fetchAddr off s) b)).withStored
      (s.stored.filter fun p => decide (p ≠ fetchAddr off s))) (off + 1) bs

/-- A table word placed at the program counter, as a program loaded from outside (log 9): its bytes, none of them a
stored byte, and no jump owed. -/
def placeWord (s : State) (nbits w : Nat) : State :=
  placeBytes (s.withJumpPending false) s.eip (wordBytes nbits w)

end Sys2Proof.Machine
end

