-- ==== Sys2Proof/WellFormed.lean ====
section
/-! DEFINITION. Which terms of `Instr` an encoding stands for: the operand shapes R110 to R112 can express, the
sizes R104 and R105 give, and the length cap of R103. -/

namespace Sys2Proof

/-- ESP cannot be an index (R112). -/
def indexWf (ix : Option Reg) : Bool := decide (ix ≠ some .esp)

/-- The operands the ModRM and SIB tables can express: `[BP]` and `[EBP]` without displacement are the
displacement-only forms, and a base of ESP needs a SIB byte (R110 to R112). -/
def MemOp.wf : MemOp → Bool
  | .abs16 _ => true
  | .base16 b d => decide (b = .bp → d ≠ .absent)
  | .abs32 _ => true
  | .base32 b d => decide (b ≠ .esp) && decide (b = .ebp → d ≠ .absent)
  | .sib _ ix b d => indexWf ix && decide (b = .ebp → d ≠ .absent)
  | .sibAbs _ ix _ => indexWf ix

/-- The address size whose table an operand belongs to (R105). -/
def MemOp.size : MemOp → Size
  | .abs16 _ | .base16 _ _ => .s16
  | .abs32 _ | .base32 _ _ | .sib _ _ _ _ | .sibAbs _ _ _ => .s32

def RM.wf (asz : Size) : RM → Bool
  | .reg _ => true
  | .mem m => m.wf && decide (m.size = asz)

def Raw.wf (asz : Size) : Raw → Bool
  | .alone _ => true
  | .rel _ _ => true
  | .slashR _ _ rm => rm.wf asz
  | .digit _ rm => rm.wf asz

/-- An opcode outside the tables of R117 and R118, and no prefix byte. -/
def Opcode.wf : Opcode → Bool
  | .one b => (pfxRows.lookup b).isNone && (oneByteRows.lookup b).isNone && decide (b ≠ 0x0F)
  | .two b => (twoByteRows.lookup b).isNone && decide (b ≠ 0x00) && decide (b ≠ 0x01)
  | .grp00 m => (grp00Rows.lookup (regField m)).isNone
  | .grp01 m => (grp01Rows.lookup (regField m)).isNone

def LockTarget.wf (asz : Size) : LockTarget → Bool
  | .inScope r => r.wf asz
  | .outOfScope o => o.wf

/-- The operand size of a row that OperandSize tells apart from another (R101). -/
def Instr.rowSize : Instr → Option Size
  | .lar16 _ _ _ | .lea16 _ _ _ | .lds16 _ _ _ | .lss16 _ _ _ | .les16 _ _ _ | .lfs16 _ _ _ | .lgs16 _ _ _
  | .lsl16 _ _ _ | .lods16 _ | .lodsw _ => some .s16
  | .lar32 _ _ _ | .lea32 _ _ _ | .lds32 _ _ _ | .lss32 _ _ _ | .les32 _ _ _ | .lfs32 _ _ _ | .lgs32 _ _ _
  | .lsl32 _ _ _ | .lods32 _ | .lodsd _ => some .s32
  | .lahf _ | .leave _ | .lgdt _ _ | .lidt _ _ | .lldt _ _ | .lmsw _ _ | .lock _ _ | .lods8 _ | .lodsb _
  | .loop _ _ | .loope _ _ | .loopz _ _ | .loopne _ _ | .loopnz _ _ | .ltr _ _ => none

def Instr.isLock : Instr → Bool
  | .lock _ _ => true
  | _ => false

/-- No `F2` or `F3`; a `F0` exactly when the instruction is LOCK; the row's operand size; an operand its ModRM can
express at the address size in force; at most fifteen bytes. -/
def Instr.wf (i : Instr) : Bool :=
  !i.head.hasRep && decide (i.head.hasLock = i.isLock)
    && decide (∀ z, i.rowSize = some z → i.head.opSize = z)
    && i.target.wf i.head.addrSize && decide (i.len ≤ Config.maxInstrLen)

end Sys2Proof
end

