-- ==== Sys2Proof/Safety.lean ====
section
/-! DEFINITION. The terms claims are stated in: the invariant of a sound state, launch states, the families that share
a rule, and what each instruction may write. -/

namespace Sys2Proof.Machine

/-! ### The invariant -/

/-- CPL agrees with the mode (R41, R320): 0 in Real Address Mode, the two low bits of CS in Protected Mode, 3 in Virtual
8086 Mode. The Protected Mode clause waits for the jump owed after LMSW (CS still holds a Real Address Mode selector
then), and VM is clear in Real Address Mode: both are the model's (log 18). -/
def State.cplAgrees (s : State) : Prop :=
  (s.mode = .real → s.cpl = 0 ∧ s.vm = false)
    ∧ (s.mode = .prot → s.jumpPending = false → s.cpl = selRpl (s.seg .cs).sel)
    ∧ (s.mode = .v86 → s.cpl = 3)

/-- Hidden attributes hold only the bits R33 keeps. -/
def arKept (ar : Dword) : Prop := ar &&& arMask = ar

/-- A byte-granular limit comes from 20 raw bits, plain or scaled by pages (R33, R76, R262). -/
def limitForm (l : Dword) : Prop := l.toNat ≤ 0xFFFFF ∨ l &&& 0xFFF = 0xFFF

/-- The hidden parts of the segment registers, LDTR and TR hold what a descriptor can give (R33, R38, R39). -/
def State.hiddenKept (s : State) : Prop :=
  (∀ n, arKept (s.seg n).ar ∧ limitForm (s.seg n).limit) ∧ limitForm s.ldtr.limit ∧ arKept s.tr.ar
    ∧ limitForm s.tr.limit

/-- The remembered stores are populated bytes, each listed once (R82; log 11). -/
def State.storedPopulated (s : State) : Prop :=
  s.stored.Nodup ∧ ∀ p ∈ s.stored, (memGet s.mem p).isSome = true

/-- A jump is owed only with PE set (R346; log 10). -/
def State.jumpOwedOk (s : State) : Prop := s.jumpPending = true → s.pe = true

/-- What every step keeps: memory in its canonical form, and the four properties above. -/
structure State.Inv (s : State) : Prop where
  memory : Memory.wf s.mem = true
  cpl : s.cplAgrees
  hidden : s.hiddenKept
  stored : s.storedPopulated
  jump : s.jumpOwedOk

/-! ### Launching (R341) -/

/-- A present segment of a type a load of `n` accepts (R197, R198). The spec describes no load of CS: a present code
segment is asked of it (log 32). -/
def loadableAttrs (n : SegName) (ar : Dword) : Bool :=
  attrPresent ar && match n with
    | .cs => isCode ar
    | .ss => isWritableData ar
    | .es | .ds | .fs | .gs => isData ar || isReadableCode ar

/-- A limit as a load scales it: by pages with G set, raw with G clear (R76, R200). -/
def limitScaled (ar limit : Dword) : Prop :=
  if attrGranular ar then limit &&& 0xFFF = 0xFFF else limit.toNat ≤ 0xFFFFF

/-- The checks of a Protected Mode load of `n` pass (R197, R198); for CS, see `loadableAttrs`. -/
def loadAccepts (n : SegName) (sel : Word) (hi : Dword) (s : State) : Prop :=
  match n with
  | .cs => loadableAttrs .cs hi = true
  | .ss => stackSegChecks sel hi s = .ok ()
  | .es | .ds | .fs | .gs => dataSegChecks sel hi s = .ok ()

/-- What a Protected Mode load of its selector, from the tables as they are, makes of a segment register (R196 to R201):
the valid bit clear for a null selector of DS, ES, FS or GS; else the fields of the descriptor, marked accessed or not. -/
def State.loadedProtected (s : State) (n : SegName) : Prop :=
  let r := s.seg n
  (selNull r.sel = true ∧ n ≠ .cs ∧ n ≠ .ss ∧ r.valid = false)
    ∨ (selNull r.sel = false ∧ ∃ (d : Desc) (u : BitVec 1), descFetch r.sel s = .ok (some d)
        ∧ loadAccepts n r.sel d.hi s
        ∧ r = ⟨r.sel, d.base, d.byteLimit, (d.hi ||| (u.setWidth 32 <<< 8)) &&& arMask, true⟩)

/-- What a load of its selector in Real Address or Virtual 8086 Mode makes of a segment register (R195): the base is the
selector times 16, the rest as it was. In Protected Mode, where the rest takes part in the checks (R323), it is asked to
be what an earlier load gave (log 32). -/
def State.loadedReal (s : State) (n : SegName) : Prop :=
  let r := s.seg n
  r.base = r.sel.setWidth 32 <<< 4
    ∧ (s.mode = .prot → loadableAttrs n r.ar = true ∧ limitScaled r.ar r.limit ∧ (n = .cs ∨ n = .ss → r.valid = true))

/-- The hidden part of a segment register is what a load of its selector under some mode would have produced (R341). -/
def State.segLoaded (s : State) (n : SegName) : Prop := s.loadedReal n ∨ s.loadedProtected n

/-- The second condition of R341: a segment register the claim states outright, in `given`, is as it states; each other
one is what a load of its selector would have produced. -/
def State.segsLaunch (given : List (SegName × SegReg)) (s : State) : Prop :=
  (∀ g ∈ given, s.seg g.1 = g.2) ∧ ∀ n, n ∈ given.map Prod.fst ∨ s.segLoaded n

/-- The bytes the next `n` steps fetch and read are populated: none of them is refused for one that is not. -/
def State.runPopulated : Nat → State → Prop
  | 0, _ => True
  | n + 1, s => (∀ p, step s ≠ .refused (.unpopulated p)) ∧ ∀ t, step s = .next t → State.runPopulated n t

/-- A launch state well formed for a run of `n` steps (R341; log 32): CPL agrees with the mode; each segment register is
what a load of its selector would have produced, or as the claim states it outright in `given`; the bytes the run needs
are populated. Hidden parts have the form of R33, the model's own fields are as before any step, and memory has its form
(logs 9, 10, 11). -/
structure State.Launch (given : List (SegName × SegReg)) (n : Nat) (s : State) : Prop where
  memory : Memory.wf s.mem = true
  cpl : s.cplAgrees
  segs : s.segsLaunch given
  hidden : s.hiddenKept
  populated : s.runPopulated n
  stored : s.stored = []
  jump : s.jumpPending = false

/-- `t` is reached from `s` in exactly `k` steps. -/
def State.reaches : Nat → State → State → Prop
  | 0, s, t => t = s
  | k + 1, s, t => ∃ u, step s = .next u ∧ State.reaches k u t

/-! ### Families: the instructions of one rule, with their operands -/

/-- LAR (R150): size, prefixes, destination, source. -/
def larForm : Instr → Option (Size × Head × Reg × RM)
  | .lar16 h dst src => some (.s16, h, dst, src)
  | .lar32 h dst src => some (.s32, h, dst, src)
  | _ => none

/-- LSL (R260). -/
def lslForm : Instr → Option (Size × Head × Reg × RM)
  | .lsl16 h dst src => some (.s16, h, dst, src)
  | .lsl32 h dst src => some (.s32, h, dst, src)
  | _ => none

/-- LEA (R160). -/
def leaForm : Instr → Option (Size × Head × Reg × RM)
  | .lea16 h dst src => some (.s16, h, dst, src)
  | .lea32 h dst src => some (.s32, h, dst, src)
  | _ => none

/-- LDS, LES, LFS, LGS, LSS (R190, R191): the segment register, then as above. -/
def farForm : Instr → Option (SegName × Size × Head × Reg × RM)
  | .lds16 h dst src => some (.ds, .s16, h, dst, src)
  | .lds32 h dst src => some (.ds, .s32, h, dst, src)
  | .lss16 h dst src => some (.ss, .s16, h, dst, src)
  | .lss32 h dst src => some (.ss, .s32, h, dst, src)
  | .les16 h dst src => some (.es, .s16, h, dst, src)
  | .les32 h dst src => some (.es, .s32, h, dst, src)
  | .lfs16 h dst src => some (.fs, .s16, h, dst, src)
  | .lfs32 h dst src => some (.fs, .s32, h, dst, src)
  | .lgs16 h dst src => some (.gs, .s16, h, dst, src)
  | .lgs32 h dst src => some (.gs, .s32, h, dst, src)
  | _ => none

/-- LODS and its synonyms (R240, R127): the width and the prefixes. -/
def lodsForm : Instr → Option (LodsWidth × Head)
  | .lods8 h | .lodsb h => some (.byte, h)
  | .lods16 h | .lodsw h => some (.word, h)
  | .lods32 h | .lodsd h => some (.dword, h)
  | _ => none

/-- The condition on ZF of a LOOP (R252). -/
inductive LoopCond where
  | always
  | zero
  | notZero
  deriving DecidableEq, Repr

/-- Whether a condition holds of ZF (R252). -/
def LoopCond.holds : LoopCond → Bool → Prop
  | .always, _ => True
  | .zero, z => z = true
  | .notZero, z => z = false

/-- LOOP, LOOPE = LOOPZ, LOOPNE = LOOPNZ (R250, R127): the condition, the prefixes, `rel8`. -/
def loopForm : Instr → Option (LoopCond × Head × Byte)
  | .loop h rel => some (.always, h, rel)
  | .loope h rel | .loopz h rel => some (.zero, h, rel)
  | .loopne h rel | .loopnz h rel => some (.notZero, h, rel)
  | _ => none

/-! ### What an instruction may write -/

/-- The general registers an instruction may write (R24, R107). -/
def regsWritten : Instr → List Reg
  | .lahf _ => [.eax]
  | .lar16 _ r _ | .lar32 _ r _ | .lea16 _ r _ | .lea32 _ r _ | .lsl16 _ r _ | .lsl32 _ r _
  | .lds16 _ r _ | .lds32 _ r _ | .lss16 _ r _ | .lss32 _ r _ | .les16 _ r _ | .les32 _ r _
  | .lfs16 _ r _ | .lfs32 _ r _ | .lgs16 _ r _ | .lgs32 _ r _ => [r]
  | .leave _ => [.esp, .ebp]
  | .lods8 _ | .lodsb _ | .lods16 _ | .lodsw _ | .lods32 _ | .lodsd _ => [.eax, .esi]
  | .loop _ _ | .loope _ _ | .loopz _ _ | .loopne _ _ | .loopnz _ _ => [.ecx]
  | .lgdt _ _ | .lidt _ _ | .lldt _ _ | .lmsw _ _ | .lock _ _ | .ltr _ _ => []

/-- The physical address the store of an access-rights byte goes to, if its linear address translates. -/
def arStoreAddr (a : Dword) (s : State) : Option Nat :=
  match translate a .write .supervisor s with
  | .ok p => some p
  | .error _ => none

/-- The physical address of the one byte LTR stores (R270, R271). -/
def ltrStoreAddr (h : Head) (src : RM) (s : State) : Option Nat :=
  match readRm16 h src s with
  | .ok sel => arStoreAddr (s.descAddr sel + 5) s
  | .error _ => none

/-- The selector a pointer load reads: what stands after the offset (R192). -/
def farSelector (z : Size) (p : BitVec 64) : Word := p.extractLsb' (8 * sizeBytes z) 16

/-- The physical address of the one byte a pointer load may store: its descriptor's access-rights byte, in Protected
Mode, for a selector that is not null and a descriptor whose accessed bit is clear (R201). -/
def farStoreAddr (z : Size) (h : Head) (src : RM) (s : State) : Option Nat :=
  match src with
  | .reg _ => none
  | .mem m =>
    match readMem h m (sizeBytes z + 2) s with
    | .error _ => none
    | .ok p =>
      if s.mode = .prot ∧ selNull (farSelector z p) = false then
        match descFetch (farSelector z p) s with
        | .ok (some d) => if d.hi.getLsbD 8 then none else arStoreAddr d.arAddr s
        | _ => none
      else none

/-- The physical address of the byte an instruction may store (R67): every other instruction stores nothing. -/
def storeAddr (i : Instr) (s : State) : Option Nat :=
  match i with
  | .ltr h src => ltrStoreAddr h src s
  | .lds16 h _ src | .lss16 h _ src | .les16 h _ src | .lfs16 h _ src | .lgs16 h _ src => farStoreAddr .s16 h src s
  | .lds32 h _ src | .lss32 h _ src | .les32 h _ src | .lfs32 h _ src | .lgs32 h _ src => farStoreAddr .s32 h src s
  | .lahf _ | .lar16 _ _ _ | .lar32 _ _ _ | .lea16 _ _ _ | .lea32 _ _ _ | .leave _ | .lgdt _ _ | .lidt _ _
  | .lldt _ _ | .lmsw _ _ | .lock _ _ | .lods8 _ | .lodsb _ | .lods16 _ | .lodsw _ | .lods32 _ | .lodsd _
  | .loop _ _ | .loope _ _ | .loopz _ _ | .loopne _ _ | .loopnz _ _ | .lsl16 _ _ _ | .lsl32 _ _ _ => none

/-! ### Values and lengths -/

/-- A value of a size in a 32-bit register that held `old`: a 16-bit write keeps bits 31:16 (R23). -/
def merge (z : Size) (old v : Dword) : Dword :=
  match z with
  | .s16 => old.extractLsb' 16 16 ++ v.extractLsb' 0 16
  | .s32 => v

/-- The bytes of a displacement of width `w`. -/
def dispBytes {w : Nat} : Disp w → Nat
  | .absent => 0
  | .d8 _ => 1
  | .full _ => w / 8

/-- The addressing bytes of an operand: SIB and displacement (R116). -/
def addressingBytes : RM → Nat
  | .reg _ => 0
  | .mem (.abs16 _) => 2
  | .mem (.base16 _ d) => dispBytes d
  | .mem (.abs32 _) => 4
  | .mem (.base32 _ d) => dispBytes d
  | .mem (.sib _ _ _ d) => 1 + dispBytes d
  | .mem (.sibAbs _ _ _) => 5

/-! ### Undefined opcodes -/

/-- The causes of #UD (R302, R121): a LOCK before an instruction of this spec, a register where memory is required, an
instruction that only Protected Mode recognizes. -/
def udCause (i : Instr) (s : State) : Prop :=
  match i with
  | .lock _ (.inScope _) => True
  | .lock _ (.outOfScope _) => False
  | .lea16 _ _ src | .lea32 _ _ src | .lgdt _ src | .lidt _ src
  | .lds16 _ _ src | .lds32 _ _ src | .lss16 _ _ src | .lss32 _ _ src | .les16 _ _ src | .les32 _ _ src
  | .lfs16 _ _ src | .lfs32 _ _ src | .lgs16 _ _ src | .lgs32 _ _ src => ∃ r, src = .reg r
  | .lar16 _ _ _ | .lar32 _ _ _ | .lsl16 _ _ _ | .lsl32 _ _ _ | .lldt _ _ | .ltr _ _ => s.mode ≠ .prot
  | .lahf _ | .leave _ | .lmsw _ _ | .lods8 _ | .lodsb _ | .lods16 _ | .lodsw _ | .lods32 _ | .lodsd _
  | .loop _ _ | .loope _ _ | .loopz _ _ | .loopne _ _ | .loopnz _ _ => False

end Sys2Proof.Machine
end

