-- ==== Sys2Proof/Certificates/Slice0/Obligations.lean ====
section
/-! DEFINITION. The statements for the provers. A statement that rests on a choice of the spec or of the model names the
decision (D) or the log entry in its docstring. -/

section

open Sys2Proof Sys2Proof.Machine

/-! ### Encoding and decoding -/

/-- Decoding the bytes of a well-formed instruction, whatever follows them, gives the instruction back; a second
spelling comes back as the row it is another name of (R127). All 35 constructors, every operand. -/
def Obligations.DecodeOfEncode : Prop :=
  ∀ (i : Instr) (rest : List Byte), i.wf = true →
    decode i.head.dflt (encode i ++ rest) = .instr i.canonical

/-- What the decoder answers is well formed, is no second spelling, was decoded under the given default size, and its
encoding is exactly the bytes it was read from: no bit of an encoding is dropped. -/
def Obligations.EncodeOfDecode : Prop :=
  ∀ (d : Size) (bs : List Byte) (i : Instr), decode d bs = .instr i →
    i.wf = true ∧ i.canonical = i ∧ i.head.dflt = d ∧ ∃ rest, bs = encode i ++ rest

/-- Words written out from the spec's encodings and examples (R140, R150, R160, R170, R180, R190, R210, R216, R240,
R250, R260, R270) decode to the instructions they stand for. -/
def Obligations.DecodedWordsOfTheSpec : Prop :=
  decode .s16 [0x9F] = .instr (.lahf ⟨.s16, []⟩)
  ∧ decode .s32 [0x0F, 0x02, 0xC3] = .instr (.lar32 ⟨.s32, []⟩ .eax (.reg .ebx))
  ∧ decode .s32 [0x8D, 0x44, 0x8B, 0x08]
      = .instr (.lea32 ⟨.s32, []⟩ .eax (.mem (.sib 2 (some .ecx) .ebx (.d8 8))))
  ∧ decode .s16 [0xC9] = .instr (.leave ⟨.s16, []⟩)
  ∧ decode .s16 [0x66, 0x0F, 0x01, 0x16, 0x00, 0x7E] = .instr (.lgdt ⟨.s16, [.opSize]⟩ (.mem (.abs16 0x7E00)))
  ∧ decode .s16 [0xC5, 0x37] = .instr (.lds16 ⟨.s16, []⟩ .esi (.mem (.base16 .bx .absent)))
  ∧ decode .s32 [0x0F, 0x00, 0xD0] = .instr (.lldt ⟨.s32, []⟩ (.reg .eax))
  ∧ decode .s16 [0x0F, 0x01, 0xF0] = .instr (.lmsw ⟨.s16, []⟩ (.reg .eax))
  ∧ decode .s16 [0x2E, 0x66, 0xAD] = .instr (.lods32 ⟨.s16, [.seg .cs, .opSize]⟩)
  ∧ decode .s32 [0xE2, 0xFB] = .instr (.loop ⟨.s32, []⟩ 0xFB)
  ∧ decode .s32 [0x0F, 0x03, 0xC3] = .instr (.lsl32 ⟨.s32, []⟩ .eax (.reg .ebx))
  ∧ decode .s32 [0x0F, 0x00, 0xD8] = .instr (.ltr ⟨.s32, []⟩ (.reg .eax))

/-- The lengths of R116 with the addressing bytes of R110 to R112: one byte for each of the prefixes, then 1 for LAHF,
LEAVE and LODS, 2 for the LOOP family, 2 and the addressing bytes for LEA, LDS and LES, 3 and the addressing bytes for
the others. LOCK has the length of the instruction it stands before, `F0` being one of the prefixes (R230); before an
opcode out of scope, whose operands the spec does not know, that of the opcode's own bytes (the model's choice, log
14). -/
def Obligations.InstructionLengths : Prop :=
  ∀ (h : Head) (r : Reg) (m : RM) (d : Byte),
    (∀ i ∈ [.lahf h, .leave h, .lods8 h, .lodsb h, .lods16 h, .lodsw h, .lods32 h, .lodsd h],
        Instr.len i = h.pfx.length + 1)
    ∧ (∀ i ∈ [.loop h d, .loope h d, .loopz h d, .loopne h d, .loopnz h d], Instr.len i = h.pfx.length + 2)
    ∧ (∀ i ∈ [.lea16 h r m, .lea32 h r m, .lds16 h r m, .lds32 h r m, .les16 h r m, .les32 h r m],
        Instr.len i = h.pfx.length + 2 + addressingBytes m)
    ∧ (∀ i ∈ [.lar16 h r m, .lar32 h r m, .lsl16 h r m, .lsl32 h r m, .lss16 h r m, .lss32 h r m, .lfs16 h r m,
          .lfs32 h r m, .lgs16 h r m, .lgs32 h r m, .lgdt h m, .lidt h m, .lldt h m, .lmsw h m, .ltr h m],
        Instr.len i = h.pfx.length + 3 + addressingBytes m)
    ∧ (∀ op, Instr.len (.lock h (.inScope (.alone op))) = h.pfx.length + 1)
    ∧ (∀ op, Instr.len (.lock h (.inScope (.rel op d))) = h.pfx.length + 2)
    ∧ (∀ op ∈ [OpR.lea, .les, .lds],
        Instr.len (.lock h (.inScope (.slashR op r m))) = h.pfx.length + 2 + addressingBytes m)
    ∧ (∀ op ∈ [OpR.lar, .lsl, .lss, .lfs, .lgs],
        Instr.len (.lock h (.inScope (.slashR op r m))) = h.pfx.length + 3 + addressingBytes m)
    ∧ (∀ op, Instr.len (.lock h (.inScope (.digit op m))) = h.pfx.length + 3 + addressingBytes m)
    ∧ Instr.len (.lock h (.outOfScope (.one d))) = h.pfx.length + 1
    ∧ Instr.len (.lock h (.outOfScope (.two d))) = h.pfx.length + 2
    ∧ Instr.len (.lock h (.outOfScope (.grp00 d))) = h.pfx.length + 3
    ∧ Instr.len (.lock h (.outOfScope (.grp01 d))) = h.pfx.length + 3

/-- The size attributes and prefixes (R103 to R106; general knowledge, D4, D6): `66` and `67` each act once however
often repeated, in any place; the last segment override wins; the defaults follow the mode and the D bit of CS, the
stack address size the B bit of SS. -/
def Obligations.SizesAndPrefixes : Prop :=
  (∀ (d : Size) (ps : List Pfx),
      (⟨d, ps⟩ : Head).opSize = (if .opSize ∈ ps then d.flip else d)
      ∧ (⟨d, ps⟩ : Head).addrSize = (if .addrSize ∈ ps then d.flip else d))
  ∧ (∀ (d : Size) (ps qs : List Pfx) (g : SegName), (∀ p ∈ qs, ∀ k, p ≠ .seg k) →
      (⟨d, ps ++ .seg g :: qs⟩ : Head).segOverride = some g)
  ∧ (∀ (d : Size) (ps : List Pfx), (∀ p ∈ ps, ∀ k, p ≠ .seg k) → (⟨d, ps⟩ : Head).segOverride = none)
  ∧ (∀ s : State, s.mode = .prot →
      s.defaultSize = (if s.segs.cs.ar.getLsbD 22 = true then .s32 else .s16)
      ∧ s.stackSize = (if s.segs.ss.ar.getLsbD 22 = true then .s32 else .s16))
  ∧ (∀ s : State, s.mode ≠ .prot → s.defaultSize = .s16 ∧ s.stackSize = .s16)

/-- An opcode outside the tables is out of scope, whatever stands before and after it, and is refused, never #UD; so are
`F2` and `F3` before an instruction of this spec, and `F0` before an out-of-scope opcode (R122; D9, D10, D11). The
model's choices: with `F2` or `F3` beside `F0` the refusal comes before #UD (log 13, DEDUCED, against a reading of
R232), and `F0` before an out-of-scope opcode decodes to a LOCK that is then refused (log 14). -/
def Obligations.UnlistedOpcodesAreRefused : Prop :=
  ∀ (d : Size) (ps : List Pfx) (rest : List Byte),
    (∀ o : Opcode, o.wf = true → (ps.map Pfx.byte ++ o.bytes).length ≤ 15 →
      (((⟨d, ps⟩ : Head).hasLock = false ∨ (⟨d, ps⟩ : Head).hasRep = true) →
        decode d (ps.map Pfx.byte ++ o.bytes ++ rest) = .rejected (.outOfScope o))
      ∧ ((⟨d, ps⟩ : Head).hasLock = true → (⟨d, ps⟩ : Head).hasRep = false →
        decode d (ps.map Pfx.byte ++ o.bytes ++ rest) = .instr (.lock ⟨d, ps⟩ (.outOfScope o))
        ∧ ∀ s, exec (.lock ⟨d, ps⟩ (.outOfScope o)) s = .refused (.lockOutOfScope o)))
    ∧ (∀ r : Raw, r.wf (⟨d, ps⟩ : Head).addrSize = true → (ps.map Pfx.byte ++ r.bytes).length ≤ 15 →
      (⟨d, ps⟩ : Head).hasRep = true → decode d (ps.map Pfx.byte ++ r.bytes ++ rest) = .rejected .repBefore)

/-- An instruction or an out-of-scope opcode of more than fifteen bytes, prefixes counted, is refused (R103), whatever
follows it and already on its first fifteen bytes, which is all a step fetches; before them the decoder asks for more.
That the refusal comes before #UD where `F0` is among the prefixes is the model's choice (log 34, DEDUCED), as is the
offset of a byte past 0FFFFFFFFH, which wraps (log 37, DEDUCED). -/
def Obligations.OverlongInstructionsAreRefused : Prop :=
  ∀ (d : Size) (ps : List Pfx) (t : LockTarget) (rest : List Byte), t.wf (⟨d, ps⟩ : Head).addrSize = true →
    15 < (ps.map Pfx.byte ++ t.bytes).length →
    let bs := ps.map Pfx.byte ++ t.bytes ++ rest
    decode d bs = .rejected .tooLong
    ∧ decode d (bs.take 15) = .rejected .tooLong
    ∧ (∀ n, n < 15 → decode d (bs.take n) = .more)
    ∧ (∀ s : State, s.jumpPending = false → s.defaultSize = d →
        (∀ k, k < 15 → fetchByte (s.eip + BitVec.ofNat 32 k) s = .ok (bs.getD k 0)) → step s = .refused .tooLong)

/-- A `F0` put anywhere among the prefixes of an instruction of this spec makes it a LOCK of that instruction, which is
#UD in every mode (R230, R232). -/
def Obligations.LockBeforeThisSpecIsUndefined : Prop :=
  ∀ (d : Size) (ps qs : List Pfx) (r : Raw) (rest : List Byte),
    (⟨d, ps ++ qs⟩ : Head).hasRep = false → r.wf (⟨d, ps ++ qs⟩ : Head).addrSize = true →
    ((ps ++ .lock :: qs).map Pfx.byte ++ r.bytes).length ≤ 15 →
    decode d ((ps ++ .lock :: qs).map Pfx.byte ++ r.bytes ++ rest)
        = .instr (.lock ⟨d, ps ++ .lock :: qs⟩ (.inScope r))
      ∧ ∀ s, exec (.lock ⟨d, ps ++ .lock :: qs⟩ (.inScope r)) s = .fault (.exception .ud s)

/-- The second spellings have the bytes and the effect of the rows they name (R127). -/
def Obligations.SynonymsMeanTheSame : Prop :=
  ∀ (h : Head) (d : Byte),
    (encode (.lodsb h) = encode (.lods8 h) ∧ exec (.lodsb h) = exec (.lods8 h))
    ∧ (encode (.lodsw h) = encode (.lods16 h) ∧ exec (.lodsw h) = exec (.lods16 h))
    ∧ (encode (.lodsd h) = encode (.lods32 h) ∧ exec (.lodsd h) = exec (.lods32 h))
    ∧ (encode (.loopz h d) = encode (.loope h d) ∧ exec (.loopz h d) = exec (.loope h d))
    ∧ (encode (.loopnz h d) = encode (.loopne h d) ∧ exec (.loopnz h d) = exec (.loopne h d))
    ∧ encode (.lods8 h) = h.pfx.map Pfx.byte ++ [0xAC]
    ∧ encode (.lods16 h) = h.pfx.map Pfx.byte ++ [0xAD]
    ∧ encode (.lods32 h) = h.pfx.map Pfx.byte ++ [0xAD]
    ∧ encode (.loope h d) = h.pfx.map Pfx.byte ++ [0xE1, d]
    ∧ encode (.loopne h d) = h.pfx.map Pfx.byte ++ [0xE0, d]

/-! ### Steps -/

/-- A step runs the decoded instruction: when the bytes at the program counter can be fetched and decode to `i`, and no
jump is owed, the step is `exec` of `i` in that very state. The offset of each byte is taken modulo 2^32, which the spec
states of `next_pc` alone (the model's choice, log 37, DEDUCED). -/
def Obligations.StepRunsDecodedInstruction : Prop :=
  ∀ (s : State) (bs : List Byte) (i : Instr), s.jumpPending = false → bs.length ≤ 15 →
    (∀ (k : Nat) (hk : k < bs.length), fetchByte (s.eip + BitVec.ofNat 32 k) s = .ok bs[k]) →
    decode s.defaultSize bs = .instr i → step s = exec i s

/-- A step stops as the decoder says: on a rejected instruction with the refusal of its reason; and where the decoder
needs a byte more, on what stops the fetch of that byte (R314 item 1; D8), its offset taken modulo 2^32 (the model's
choice, log 37, DEDUCED). -/
def Obligations.StepStopsWithTheDecoder : Prop :=
  ∀ (s : State) (bs : List Byte), s.jumpPending = false → bs.length ≤ 15 →
    (∀ (k : Nat) (hk : k < bs.length), fetchByte (s.eip + BitVec.ofNat 32 k) s = .ok bs[k]) →
    (∀ r, decode s.defaultSize bs = .rejected r → step s = .refused (rejection r))
    ∧ (∀ x, bs.length < 15 → decode s.defaultSize bs = .more →
        fetchByte (s.eip + BitVec.ofNat 32 bs.length) s = .error (.raised x) → step s = .fault (.exception x s))
    ∧ (∀ r, bs.length < 15 → decode s.defaultSize bs = .more →
        fetchByte (s.eip + BitVec.ofNat 32 bs.length) s = .error (.refused r) → step s = .refused r)

/-- The checks on an instruction byte (R75; D41): above 0FFFFH Interrupt 13 outside Protected Mode; in Protected Mode
#GP(0) through an invalid CS (R71) and beyond its limit, expand-up or expand-down (R72; D35); then the page fault; a
byte that passes them is the byte in memory, unless it was stored by a descriptor-table write (R82, D31; log 11) or is
not populated. The model's choices: every fetch is translated at supervisor level (log 7, DEDUCED), none is tested for
the access type (log 8, DEDUCED), and attributes that are no data segment's are expand-up (log 17, DEDUCED). -/
def Obligations.FetchChecks : Prop :=
  ∀ (off : Dword) (s : State),
    let cs := s.segs.cs
    let top : Nat := if cs.ar.getLsbD 22 = true then 0xFFFFFFFF else 0xFFFF
    let within : Prop :=
      (isExpandDown cs.ar = true ∧ cs.limit.toNat < off.toNat ∧ off.toNat ≤ top)
        ∨ (isExpandDown cs.ar = false ∧ off.toNat ≤ cs.limit.toNat)
    (s.mode ≠ .prot → 0xFFFF < off.toNat → fetchByte off s = .error (.raised (.gp none)))
    ∧ (s.mode = .prot → cs.valid = false ∨ ¬within → fetchByte off s = .error (.raised (.gp (some 0))))
    ∧ ((s.mode ≠ .prot ∧ off.toNat ≤ 0xFFFF) ∨ (s.mode = .prot ∧ cs.valid = true ∧ within) →
      (∀ x, translate (cs.base + off) .fetch .supervisor s = .error (.raised x) →
          fetchByte off s = .error (.raised x))
      ∧ (∀ p, translate (cs.base + off) .fetch .supervisor s = .ok p →
          (p ∈ s.stored → fetchByte off s = .error (.refused (.executesStoredByte p)))
          ∧ (∀ b, p ∉ s.stored → memGet s.mem p = some b → fetchByte off s = .ok b)
          ∧ (p ∉ s.stored → memGet s.mem p = none → fetchByte off s = .error (.refused (.unpopulated p)))))

/-- After an LMSW that set PE nothing but a jump has a meaning, and no instruction of this spec is one: the step is
refused (R346, D25; log 10). Only such an LMSW makes a jump owed, and none clears the debt. -/
def Obligations.JumpOwedAfterSettingPe : Prop :=
  (∀ s : State, s.jumpPending = true → step s = .refused .noJumpAfterLmsw)
  ∧ (∀ (i : Instr) (s t : State), exec i s = .next t →
      t.jumpPending = (s.jumpPending || (!s.pe && t.pe)))

/-! ### What instructions leave alone -/

/-- The flags (R30): no instruction writes a flag but LAR and LSL, which write ZF and nothing else. -/
def Obligations.OnlyLarAndLslWriteAFlag : Prop :=
  ∀ (i : Instr) (s t : State), exec i s = .next t →
    (∀ k, k ≠ 6 → t.eflags.getLsbD k = s.eflags.getLsbD k)
    ∧ (larForm i = none → lslForm i = none → t.eflags = s.eflags)

/-- The general registers (R24, R107): only the destination, and the registers LAHF, LODS, LEAVE and the LOOP family
use implicitly, may change. -/
def Obligations.GeneralRegistersFrame : Prop :=
  ∀ (i : Instr) (s t : State), exec i s = .next t → ∀ r, r ∉ regsWritten i → t.r32 r = s.r32 r

/-- The segment registers (R35): LDS, LES, LFS, LGS and LSS each write their own, in both parts; no other instruction
writes one, CS is written by none. -/
def Obligations.SegmentRegistersFrame : Prop :=
  ∀ (i : Instr) (s t : State), exec i s = .next t →
    (∀ n, (∀ f, farForm i = some f → f.1 ≠ n) → t.seg n = s.seg n) ∧ t.seg .cs = s.seg .cs

/-- The system registers (R36 to R41): GDTR is written by LGDT only, IDTR by LIDT, LDTR by LLDT, TR by LTR, CR0 by
LMSW, and in its low sixteen bits only; CPL by none. -/
def Obligations.SystemRegistersFrame : Prop :=
  ∀ (i : Instr) (s t : State), exec i s = .next t →
    ((∀ h src, i ≠ .lgdt h src) → t.gdtr = s.gdtr)
    ∧ ((∀ h src, i ≠ .lidt h src) → t.idtr = s.idtr)
    ∧ ((∀ h src, i ≠ .lldt h src) → t.ldtr = s.ldtr)
    ∧ ((∀ h src, i ≠ .ltr h src) → t.tr = s.tr)
    ∧ ((∀ h src, i ≠ .lmsw h src) → t.cr0 = s.cr0)
    ∧ t.cr0.extractLsb' 16 16 = s.cr0.extractLsb' 16 16
    ∧ t.cpl = s.cpl

/-- Memory (R67): every byte reads as before but the one at the address `storeAddr` computes, the access-rights byte
of the descriptor that LTR or a Protected Mode pointer load names; every other instruction stores nothing. -/
def Obligations.MemoryFrame : Prop :=
  ∀ (i : Instr) (s t : State), exec i s = .next t →
    ∀ a, storeAddr i s ≠ some a → memGet t.mem a = memGet s.mem a

/-- The set of populated addresses never changes (R69, R341, D29). -/
def Obligations.PopulatedAddressesKept : Prop :=
  ∀ (s t : State), step s = .next t → ∀ a, (memGet t.mem a).isSome = (memGet s.mem a).isSome

/-- The program counter (R26): past the instruction, but for a LOOP whose branch is taken, the count not being zero and
the condition on ZF holding, which goes to its target; a LOOP whose branch is not taken passes too. -/
def Obligations.ProgramCounterAdvances : Prop :=
  ∀ (i : Instr) (s t : State), exec i s = .next t →
    (loopForm i = none → t.eip = s.eip + BitVec.ofNat 32 i.len)
    ∧ (∀ c h rel, loopForm i = some (c, h, rel) →
        let next := s.eip + BitVec.ofNat 32 i.len
        let taken := truncTo h.addrSize (s.r32 .ecx - 1) ≠ 0 ∧ c.holds s.zf
        (taken → t.eip = truncTo h.opSize (next + rel.signExtend 32)) ∧ (¬taken → t.eip = next))

/-! ### Exceptions, modes and privilege -/

/-- Every exception is precise (R317, R300; D7): the fault carries the state before the step, unchanged. -/
def Obligations.ExceptionsArePrecise : Prop :=
  ∀ (s : State) (f : Fault), step s = .fault f → ∃ x, f = .exception x s

/-- #UD is raised for the causes of R302 and for no other (D18 for the pointer loads). -/
def Obligations.UndefinedOpcodeCauses : Prop :=
  ∀ (i : Instr) (s : State), exec i s = .fault (.exception .ud s) ↔ udCause i s

/-- Translation (R79; D27): in Real Address Mode and with paging off the identity, for every access and level, and then
no step page-faults (R308); otherwise what `PageTranslate` answers, a page fault raised with its code. That
`PageTranslate` is a constant and that the fault carries the linear address is the model's choice (log 6), as is the
width of the code (log 36). -/
def Obligations.PageFaultNeedsPaging : Prop :=
  ∀ (s : State),
    (s.mode = .real ∨ s.pg = false →
      (∀ (a : Dword) (acc : Config.Access) (lvl : Config.Level), translate a acc lvl s = .ok a.toNat)
      ∧ ∀ (u : State) (code lin : Dword), step s ≠ .fault (.exception (.pf code lin) u))
    ∧ (s.mode ≠ .real → s.pg = true → ∀ (a : Dword) (acc : Config.Access) (lvl : Config.Level),
      (∀ p, Config.pageTranslate a acc lvl = .phys p → translate a acc lvl s = .ok p.toNat)
      ∧ (∀ code, Config.pageTranslate a acc lvl = .pageFault code →
          translate a acc lvl s = .error (.raised (.pf code a))))

/-- Error codes (R304 to R306; D32): outside Protected Mode #GP is Interrupt 13 without a code, and #NP and #SS do not
occur; in Protected Mode #GP carries a code; the two low bits of every selector code are 0. -/
def Obligations.ErrorCodesByMode : Prop :=
  ∀ (s u : State) (x : Exception), step s = .fault (.exception x u) →
    (s.mode ≠ .prot → x = .ud ∨ x = .gp none ∨ ∃ code lin, x = .pf code lin)
    ∧ (s.mode = .prot → x ≠ .gp none)
    ∧ (∀ c, x = .np c ∨ x = .ss c ∨ x = .gp (some c) → c &&& 3 = 0)

/-- Modes and levels (R322): no instruction changes CPL or VM or leaves Protected Mode; only LMSW, in Real Address
Mode, sets PE, and then Protected Mode is entered at CPL 0 if CPL agrees with the mode before (R41) and VM is clear: no
rule speaks of VM in Real Address Mode, and that part of the premise is the model's choice (log 18, DEDUCED). -/
def Obligations.OnlyLmswEntersProtectedMode : Prop :=
  ∀ (i : Instr) (s t : State), exec i s = .next t →
    t.cpl = s.cpl ∧ t.vm = s.vm ∧ (s.mode = .prot → t.mode = .prot) ∧ (s.mode = .v86 → t.mode = .v86)
    ∧ (s.mode = .real → t.mode ≠ .real → ∃ h src, i = .lmsw h src)
    ∧ (s.cplAgrees → s.mode = .real → t.mode ≠ .real → t.mode = .prot ∧ t.cpl = 0)

/-- Code that is not at CPL 0 in Protected Mode, and Virtual 8086 Mode code, changes none of GDTR, IDTR, LDTR, TR and
CR0 (R321; for Virtual 8086 Mode C9 and D26). -/
def Obligations.SystemRegistersNeedPrivilege : Prop :=
  ∀ (s t : State), step s = .next t → (s.mode = .prot ∧ s.cpl ≠ 0) ∨ s.mode = .v86 →
    t.gdtr = s.gdtr ∧ t.idtr = s.idtr ∧ t.ldtr = s.ldtr ∧ t.tr = s.tr ∧ t.cr0 = s.cr0

/-- Every step keeps the invariant: memory in canonical form; CPL agreeing with the mode, in all three (R41; log 18: in
Protected Mode where no jump is owed, in Real Address Mode with VM clear); hidden attributes and limits that a
descriptor can give; remembered stores populated (the model's field, log 11); a jump owed only with PE set (the model's
field, log 10). -/
def Obligations.EveryStepKeepsTheInvariant : Prop :=
  ∀ (s t : State), s.Inv → step s = .next t → t.Inv

/-- The state after reset meets the invariant (the values of logs 2 and 3 among them) and is a launch state, of the run
of no steps, nothing being populated (log 9), with CS stated outright: no load gives its base (log 2). -/
def Obligations.ResetMeetsTheInvariant : Prop :=
  State.reset.Inv ∧ State.reset.Launch [(.cs, State.reset.segs.cs)] 0

/-- A run from a well-formed launch state (R341; the model's form of it, log 32). Every state reached meets the
invariant; its clause on CPL asks VM clear in Real Address Mode and, in Protected Mode, waits while a jump is owed after
an LMSW that set PE (log 18). A run launched in Protected or Virtual 8086 Mode stays in it, with CPL the RPL of CS or 3
throughout (R41); one launched in Real Address Mode keeps CPL 0, and leaves the mode for Protected Mode with a jump owed
alone. The populated addresses stay (D29). That no step is refused for a byte that is not populated is the premise
`State.runPopulated` unrolled, and would hold of any step. -/
def Obligations.LaunchRunsAreSound : Prop :=
  ∀ (given : List (SegName × SegReg)) (n : Nat) (s : State), s.Launch given n →
    ∀ (k : Nat) (t : State), k ≤ n → s.reaches k t →
      t.Inv
      ∧ (s.mode = .prot → t.mode = .prot ∧ t.jumpPending = false ∧ t.cpl = selRpl (t.seg .cs).sel)
      ∧ (s.mode = .v86 → t.mode = .v86 ∧ t.cpl = 3)
      ∧ (s.mode = .real → t.cpl = 0 ∧ (t.mode = .real ∨ t.mode = .prot ∧ t.jumpPending = true))
      ∧ (∀ a, (memGet t.mem a).isSome = (memGet s.mem a).isSome)
      ∧ (k < n → ∀ p, step t ≠ .refused (.unpopulated p))

/-- After reset the machine is in Real Address Mode: PE is 0, CPL is 0 (R46). -/
def Obligations.ResetIsRealAddressMode : Prop :=
  State.reset.pe = false ∧ State.reset.cpl = 0 ∧ State.reset.mode = .real

/-! ### Registers and memory -/

/-- A write of a 16-bit or byte register changes its own bits alone (R21 to R23; D42), all eight of each: the other
general registers, the other bits of its own, and every other field stay. R22 places AL and AH; where the six other byte
registers sit is the model's choice (log 33, PRESUMED). -/
def Obligations.SubRegisterWrites : Prop :=
  ∀ (s : State) (r q : Reg) (v : Word) (g k : Reg8) (b : Byte),
    s.r16 r = (s.r32 r).extractLsb' 0 16
    ∧ (s.setR16 r v).r16 r = v
    ∧ ((s.setR16 r v).r32 r).extractLsb' 16 16 = (s.r32 r).extractLsb' 16 16
    ∧ (q ≠ r → (s.setR16 r v).r32 q = s.r32 q)
    ∧ s.setR16 r v = { s with regs := (s.setR16 r v).regs }
    ∧ s.r8 .al = (s.r32 .eax).extractLsb' 0 8 ∧ s.r8 .ah = (s.r32 .eax).extractLsb' 8 8
    ∧ (s.setR8 g b).r8 g = b
    ∧ (k ≠ g → (s.setR8 g b).r8 k = s.r8 k)
    ∧ ((s.setR8 g b).r32 (reg8Parent g)).extractLsb' 16 16 = (s.r32 (reg8Parent g)).extractLsb' 16 16
    ∧ (q ≠ reg8Parent g → (s.setR8 g b).r32 q = s.r32 q)
    ∧ s.setR8 g b = { s with regs := (s.setR8 g b).regs }
    ∧ ((s.setR8 .al b).r32 .eax).extractLsb' 8 24 = (s.r32 .eax).extractLsb' 8 24
    ∧ ((s.setR8 .ah b).r32 .eax).extractLsb' 16 16 = (s.r32 .eax).extractLsb' 16 16
    ∧ ((s.setR8 .ah b).r32 .eax).extractLsb' 0 8 = (s.r32 .eax).extractLsb' 0 8

/-- A byte stored is read back, every other address reads as before, and the canonical form is kept (R60, R80; the
form is the model's, log 9). -/
def Obligations.StoredByteReadsBack : Prop :=
  ∀ (m : List Host.Cell) (a q : Nat) (b : Byte),
    memGet (memSet m a b) a = some b ∧ (q ≠ a → memGet (memSet m a b) q = memGet m q)
    ∧ (Memory.wf m = true → a < 2 ^ 32 → Memory.wf (memSet m a b) = true)

/-- MemRead (R64, R66; D1): each byte translated on its own, the first page fault raised and nothing else, an
unpopulated byte refused; otherwise the bytes in little-endian order; user level at CPL 3 alone, for the accesses the
model takes as an instruction's own (of LEAVE and LODS too: log 35). -/
def Obligations.MemReadIsLittleEndian : Prop :=
  ∀ (a : Dword) (n : Nat) (lvl : Config.Level) (s : State), n ≤ 8 →
    (∀ k x, k < n → (∀ j, j < k → ∃ p, translate (a + BitVec.ofNat 32 j) .read lvl s = .ok p) →
      translate (a + BitVec.ofNat 32 k) .read lvl s = .error x → memRead a n lvl s = .error x)
    ∧ (∀ f : Nat → Nat, (∀ k, k < n → translate (a + BitVec.ofNat 32 k) .read lvl s = .ok (f k)) →
      (∀ k, k < n → (∀ j, j < k → (memGet s.mem (f j)).isSome = true) → memGet s.mem (f k) = none →
        memRead a n lvl s = .error (.refused (.unpopulated (f k))))
      ∧ (∀ g : Nat → Byte, (∀ k, k < n → memGet s.mem (f k) = some (g k)) →
        ∃ v, memRead a n lvl s = .ok v ∧ v.toNat < 2 ^ (8 * n) ∧ ∀ k, k < n → v.extractLsb' (8 * k) 8 = g k))
    ∧ (s.level = .user ↔ s.cpl = 3)

/-- MemWrite (R67) with translation the identity: it writes exactly the bytes of the value, remembers their addresses
(R82; log 11), and a read of the same bytes gives the value back. -/
def Obligations.MemWriteThenRead : Prop :=
  ∀ (a : Dword) (n : Nat) (v : BitVec 64) (lvl : Config.Level) (s t : State), n ≤ 4 →
    (s.mode = .real ∨ s.pg = false) → memWrite a n v lvl s = .ok t →
    (∀ k, k < n → memGet t.mem (a + BitVec.ofNat 32 k).toNat = some (v.extractLsb' (8 * k) 8))
    ∧ (∀ q, (∀ k, k < n → q ≠ (a + BitVec.ofNat 32 k).toNat) → memGet t.mem q = memGet s.mem q)
    ∧ (∀ q, q ∈ t.stored ↔ q ∈ s.stored ∨ ∃ k, k < n ∧ q = (a + BitVec.ofNat 32 k).toNat)
    ∧ memRead a n lvl t = .ok (v &&& BitVec.ofNat 64 (2 ^ (8 * n) - 1))

/-- The segment check outside Protected Mode (R70): Interrupt 13 when a byte lies above 0FFFFH, in every segment and
whatever the hidden limit; then the access at base plus offset (R61, R74), at the level of an operand access whichever
instruction makes it (R66; for LEAVE and LODS the model's choice, log 35, DEDUCED). -/
def Obligations.SegmentCheckOutsideProtectedMode : Prop :=
  ∀ (n : SegName) (off : Dword) (len : Nat) (v : BitVec 64) (s : State), s.mode ≠ .prot → 0 < len →
    (0xFFFF < off.toNat + len - 1 →
      segRead n off len s = .error (.raised (.gp none)) ∧ segWrite n off len v s = .error (.raised (.gp none)))
    ∧ (off.toNat + len - 1 ≤ 0xFFFF →
      segRead n off len s = memRead ((s.seg n).base + off) len s.level s
      ∧ segWrite n off len v s = memWrite ((s.seg n).base + off) len v s.level s)

/-- The segment checks in Protected Mode (R71, R72, R73, R74 in that order; D35, general knowledge): the valid bit,
the limit, expand-up or expand-down, the access type; then the access at base plus offset. Attributes that are neither
code nor data (S = 0), on which R72 and R73 are silent, are tested as expand-up and pass the type test: the model's
choice (log 17, DEDUCED). The access is at the level of an operand access whichever instruction makes it (R66; for LEAVE
and LODS the model's choice, log 35, DEDUCED). -/
def Obligations.SegmentChecksInProtectedMode : Prop :=
  ∀ (n : SegName) (off : Dword) (len : Nat) (v : BitVec 64) (s : State), s.mode = .prot → 0 < len →
    let r := s.seg n
    let bad : Exception := if n = .ss then .ss 0 else .gp (some 0)
    let data : Prop := r.ar.getLsbD 12 = true ∧ r.ar.getLsbD 11 = false
    let code : Prop := r.ar.getLsbD 12 = true ∧ r.ar.getLsbD 11 = true
    let within : Prop :=
      (data ∧ r.ar.getLsbD 10 = true ∧ r.limit.toNat < off.toNat
          ∧ off.toNat + len - 1 ≤ (if r.ar.getLsbD 22 = true then 0xFFFFFFFF else 0xFFFF))
        ∨ (¬(data ∧ r.ar.getLsbD 10 = true) ∧ off.toNat + len - 1 ≤ r.limit.toNat)
    let readable : Prop := ¬(code ∧ r.ar.getLsbD 9 = false)
    let writable : Prop := ¬code ∧ ¬(data ∧ r.ar.getLsbD 9 = false)
    (r.valid = false → segRead n off len s = .error (.raised (.gp (some 0)))
        ∧ segWrite n off len v s = .error (.raised (.gp (some 0))))
    ∧ (r.valid = true → ¬(within ∧ readable) → segRead n off len s = .error (.raised bad))
    ∧ (r.valid = true → within → readable → segRead n off len s = memRead (r.base + off) len s.level s)
    ∧ (r.valid = true → ¬(within ∧ writable) → segWrite n off len v s = .error (.raised bad))
    ∧ (r.valid = true → within → writable → segWrite n off len v s = memWrite (r.base + off) len v s.level s)

/-- DescFetch (R77; D12): the table by the TI bit, the limit test on all eight bytes, the read at supervisor level. -/
def Obligations.DescriptorFetch : Prop :=
  ∀ (sel : Word) (s : State),
    let base := if sel.getLsbD 2 = true then s.ldtr.base else s.gdtr.base
    let limit := if sel.getLsbD 2 = true then s.ldtr.limit.toNat else s.gdtr.limit.toNat
    let usable := sel.getLsbD 2 = true → s.ldtr.valid = true
    let index := sel.toNat / 8
    (¬(usable ∧ 8 * index + 7 ≤ limit) → descFetch sel s = .ok none)
    ∧ (usable → 8 * index + 7 ≤ limit →
      (∀ v, memRead (base + BitVec.ofNat 32 (8 * index)) 8 .supervisor s = .ok v →
        ∃ d, descFetch sel s = .ok (some d) ∧ d.lo = v.extractLsb' 0 32 ∧ d.hi = v.extractLsb' 32 32
          ∧ d.addr = base + BitVec.ofNat 32 (8 * index))
      ∧ (∀ e, memRead (base + BitVec.ofNat 32 (8 * index)) 8 .supervisor s = .error e →
        descFetch sel s = .error e))

/-- The fields of a descriptor (R76; D12): base, raw limit, and the byte-granular limit of R76 and R262. -/
def Obligations.DescriptorFields : Prop :=
  ∀ d : Desc,
    d.base.extractLsb' 24 8 = d.hi.extractLsb' 24 8 ∧ d.base.extractLsb' 16 8 = d.hi.extractLsb' 0 8
    ∧ d.base.extractLsb' 0 16 = d.lo.extractLsb' 16 16
    ∧ d.rawLimit.toNat = (d.hi.extractLsb' 16 4).toNat * 65536 + (d.lo.extractLsb' 0 16).toNat
    ∧ (d.hi.getLsbD 23 = false → d.byteLimit.toNat = d.rawLimit.toNat)
    ∧ (d.hi.getLsbD 23 = true → d.byteLimit.toNat = d.rawLimit.toNat * 4096 + 4095)

/-! ### Operands -/

/-- The 16-bit operands (R109, R110, R114, R115; D5): each sum modulo 2^16, a byte displacement signed; SS the default
where BP is the base, DS elsewhere, an override instead of either. -/
def Obligations.EffectiveAddress16 : Prop :=
  ∀ (s : State) (d : Disp 16) (x : Byte) (w : Word) (h : Head),
    (effAddr (.base16 .bxsi d) s).toNat = ((s.r16 .ebx).toNat + (s.r16 .esi).toNat + (dispValue d).toNat) % 2 ^ 16
    ∧ (effAddr (.base16 .bxdi d) s).toNat = ((s.r16 .ebx).toNat + (s.r16 .edi).toNat + (dispValue d).toNat) % 2 ^ 16
    ∧ (effAddr (.base16 .bpsi d) s).toNat = ((s.r16 .ebp).toNat + (s.r16 .esi).toNat + (dispValue d).toNat) % 2 ^ 16
    ∧ (effAddr (.base16 .bpdi d) s).toNat = ((s.r16 .ebp).toNat + (s.r16 .edi).toNat + (dispValue d).toNat) % 2 ^ 16
    ∧ (effAddr (.base16 .si d) s).toNat = ((s.r16 .esi).toNat + (dispValue d).toNat) % 2 ^ 16
    ∧ (effAddr (.base16 .di d) s).toNat = ((s.r16 .edi).toNat + (dispValue d).toNat) % 2 ^ 16
    ∧ (effAddr (.base16 .bp d) s).toNat = ((s.r16 .ebp).toNat + (dispValue d).toNat) % 2 ^ 16
    ∧ (effAddr (.base16 .bx d) s).toNat = ((s.r16 .ebx).toNat + (dispValue d).toNat) % 2 ^ 16
    ∧ (effAddr (.abs16 w) s).toNat = w.toNat
    ∧ (dispValue (.d8 x : Disp 16)).toInt = x.toInt ∧ dispValue (.absent : Disp 16) = 0
    ∧ dispValue (.full w : Disp 16) = w
    ∧ (∀ b, defaultSeg (.base16 b d) = if b = .bpsi ∨ b = .bpdi ∨ b = .bp then .ss else .ds)
    ∧ defaultSeg (.abs16 w) = .ds
    ∧ (∀ m, h.segOverride = none → easeg h m = defaultSeg m)
    ∧ (∀ m g, h.segOverride = some g → easeg h m = g)

/-- The 32-bit operands (R109, R111, R112; D5): each sum modulo 2^32, the index scaled by 1, 2, 4 or 8; SS the default
where ESP or EBP is the base. -/
def Obligations.EffectiveAddress32 : Prop :=
  ∀ (s : State) (b x : Reg) (sc : BitVec 2) (d : Disp 32) (c : Byte) (w : Dword),
    (effAddr (.base32 b d) s).toNat = ((s.r32 b).toNat + (dispValue d).toNat) % 2 ^ 32
    ∧ (effAddr (.abs32 w) s).toNat = w.toNat
    ∧ (effAddr (.sib sc (some x) b d) s).toNat
        = ((s.r32 b).toNat + (s.r32 x).toNat * 2 ^ sc.toNat + (dispValue d).toNat) % 2 ^ 32
    ∧ (effAddr (.sib sc none b d) s).toNat = ((s.r32 b).toNat + (dispValue d).toNat) % 2 ^ 32
    ∧ (effAddr (.sibAbs sc (some x) w) s).toNat = ((s.r32 x).toNat * 2 ^ sc.toNat + w.toNat) % 2 ^ 32
    ∧ (effAddr (.sibAbs sc none w) s).toNat = w.toNat
    ∧ (dispValue (.d8 c : Disp 32)).toInt = c.toInt ∧ dispValue (.absent : Disp 32) = 0
    ∧ dispValue (.full w : Disp 32) = w
    ∧ defaultSeg (.base32 b d) = (if b = .esp ∨ b = .ebp then .ss else .ds)
    ∧ (∀ ix, defaultSeg (.sib sc ix b d) = if b = .esp ∨ b = .ebp then .ss else .ds)
    ∧ defaultSeg (.abs32 w) = .ds ∧ (∀ ix, defaultSeg (.sibAbs sc ix w) = .ds)

/-- The register-or-memory sources: sixteen bits for LLDT, LMSW and LTR at every operand size (R108); for LAR and LSL
the low word of two bytes, or of four with the refusal band (R154, R264; D15). -/
def Obligations.SelectorSources : Prop :=
  ∀ (h : Head) (r : Reg) (m : MemOp) (s : State),
    readRm16 h (.reg r) s = .ok ((s.r32 r).extractLsb' 0 16)
    ∧ (∀ z, readSelector z h (.reg r) s = .ok ((s.r32 r).extractLsb' 0 16))
    ∧ (∀ v, readMem h m 2 s = .ok v →
        readRm16 h (.mem m) s = .ok (v.extractLsb' 0 16) ∧ readSelector .s16 h (.mem m) s = .ok (v.extractLsb' 0 16)
        ∧ ∀ x, readMem h m 4 s = .error (.raised x) → readSelector .s32 h (.mem m) s = .error (.refused .memWidthBand))
    ∧ (∀ x, readMem h m 2 s = .error x →
        readRm16 h (.mem m) s = .error x ∧ readSelector .s16 h (.mem m) s = .error x
        ∧ ∀ y, readMem h m 4 s = .error y → readSelector .s32 h (.mem m) s = .error y)
    ∧ (∀ v, readMem h m 4 s = .ok v → readSelector .s32 h (.mem m) s = .ok (v.extractLsb' 0 16))

/-! ### The instructions -/

/-- LAHF (R140): AH is SF:ZF:x:AF:x:PF:x:CF, with three bits that nothing constrains (log 4); the rest of EAX and every
other field is kept. -/
def Obligations.LahfLoadsTheFlags : Prop :=
  ∀ (h : Head) (s : State), encode (.lahf h) = h.pfx.map Pfx.byte ++ [0x9F] ∧ ∃ u : BitVec 3,
    exec (.lahf h) s = .next { s with
      regs := s.regs.set .eax ((s.r32 .eax).extractLsb' 16 16
        ++ (BitVec.ofBool s.sf ++ BitVec.ofBool s.zf ++ u.extractLsb' 2 1 ++ BitVec.ofBool s.af ++ u.extractLsb' 1 1
            ++ BitVec.ofBool s.pf ++ u.extractLsb' 0 1 ++ BitVec.ofBool s.cf : Byte)
        ++ (s.r32 .eax).extractLsb' 0 8)
      eip := s.eip + BitVec.ofNat 32 (Instr.lahf h).len
      draws := s.draws + 1 }

/-- LAR (R150), both sizes: #UD outside Protected Mode; a fault or a refusal of the operand read, the refusal band of
R154 (D15) among them, or of the descriptor read; the access rights with ZF = 1 and four unconstrained bits (log 4, log
27) for a descriptor that is found, valid for LAR and visible; otherwise ZF = 0 and the destination kept, which is the
spec's choice D14 (R156 a; log 21), as is D13 for a null selector. -/
def Obligations.LarLoadsAccessRights : Prop :=
  ∀ (i : Instr) (z : Size) (h : Head) (dst : Reg) (src : RM) (s : State), larForm i = some (z, h, dst, src) →
    encode i = h.pfx.map Pfx.byte ++ [0x0F, 0x02] ++ src.bytes dst.num
    ∧ (s.mode ≠ .prot → exec i s = .fault (.exception .ud s))
    ∧ (s.mode = .prot →
      (∀ x, readSelector z h src s = .error (.raised x) → exec i s = .fault (.exception x s))
      ∧ (∀ r, readSelector z h src s = .error (.refused r) → exec i s = .refused r)
      ∧ (∀ sel, readSelector z h src s = .ok sel →
        (∀ x, selNull sel = false → descFetch sel s = .error (.raised x) → exec i s = .fault (.exception x s))
        ∧ (∀ r, selNull sel = false → descFetch sel s = .error (.refused r) → exec i s = .refused r)
        ∧ (∀ d, selNull sel = false → descFetch sel s = .ok (some d) → larTypeValid d.hi = true →
            visible sel d.hi s = true → ∃ x : BitVec 4,
            exec i s = .next { s with
              regs := s.regs.set dst (merge z (s.r32 dst)
                ((0 : BitVec 8) ++ d.hi.extractLsb' 20 4 ++ x ++ d.hi.extractLsb' 8 8 ++ (0 : BitVec 8)))
              eflags := s.eflags ||| 0x40
              eip := s.eip + BitVec.ofNat 32 i.len
              draws := s.draws + 1 })
        ∧ (selNull sel = true ∨ descFetch sel s = .ok none
              ∨ (∃ d, descFetch sel s = .ok (some d) ∧ ¬(larTypeValid d.hi = true ∧ visible sel d.hi s = true)) →
            exec i s = .next { s with
              eflags := s.eflags &&& 0xFFFFFFBF
              eip := s.eip + BitVec.ofNat 32 i.len })))

/-- LSL (R260), both sizes: #UD outside Protected Mode; a fault or a refusal of the operand read, the refusal band of
R154 and R264 (D15) among them, or of the descriptor read; the byte-granular limit with ZF = 1 for a descriptor that is
found, valid for LSL and visible; otherwise ZF = 0 and the destination kept. The spec's choices (log 21): the low 16
bits of the limit in the 16-bit form (R263, C4, D16); ZF = 0 for a null selector and one in an invalid LDT (R264, R153,
D13). -/
def Obligations.LslLoadsTheLimit : Prop :=
  ∀ (i : Instr) (z : Size) (h : Head) (dst : Reg) (src : RM) (s : State), lslForm i = some (z, h, dst, src) →
    encode i = h.pfx.map Pfx.byte ++ [0x0F, 0x03] ++ src.bytes dst.num
    ∧ (s.mode ≠ .prot → exec i s = .fault (.exception .ud s))
    ∧ (s.mode = .prot →
      (∀ x, readSelector z h src s = .error (.raised x) → exec i s = .fault (.exception x s))
      ∧ (∀ r, readSelector z h src s = .error (.refused r) → exec i s = .refused r)
      ∧ (∀ sel, readSelector z h src s = .ok sel →
        (∀ x, selNull sel = false → descFetch sel s = .error (.raised x) → exec i s = .fault (.exception x s))
        ∧ (∀ r, selNull sel = false → descFetch sel s = .error (.refused r) → exec i s = .refused r)
        ∧ (∀ d, selNull sel = false → descFetch sel s = .ok (some d) → lslTypeValid d.hi = true →
            visible sel d.hi s = true →
            exec i s = .next { s with
              regs := s.regs.set dst (merge z (s.r32 dst)
                (if d.hi.getLsbD 23 = true
                  then d.hi.extractLsb' 16 4 ++ d.lo.extractLsb' 0 16 ++ (0xFFF : BitVec 12)
                  else (0 : BitVec 12) ++ d.hi.extractLsb' 16 4 ++ d.lo.extractLsb' 0 16))
              eflags := s.eflags ||| 0x40
              eip := s.eip + BitVec.ofNat 32 i.len })
        ∧ (selNull sel = true ∨ descFetch sel s = .ok none
              ∨ (∃ d, descFetch sel s = .ok (some d) ∧ ¬(lslTypeValid d.hi = true ∧ visible sel d.hi s = true)) →
            exec i s = .next { s with
              eflags := s.eflags &&& 0xFFFFFFBF
              eip := s.eip + BitVec.ofNat 32 i.len })))

/-- The types LAR and LSL accept (R151; R261, with type 8 invalid by C3 and D17), whatever the present bit, and what is
visible to both (R152; D13). -/
def Obligations.TypesAndVisibility : Prop :=
  ∀ (hi : Dword) (sel : Word) (s : State),
    (larTypeValid hi = true ↔ hi.getLsbD 12 = true ∨ hi.extractLsb' 8 4 ∉ ([0x0, 0x8, 0xA, 0xD] : List (BitVec 4)))
    ∧ (lslTypeValid hi = true ↔
        hi.getLsbD 12 = true ∨ hi.extractLsb' 8 4 ∈ ([0x1, 0x2, 0x3, 0x9, 0xB] : List (BitVec 4)))
    ∧ (visible sel hi s = true ↔
        (hi.getLsbD 12 = true ∧ hi.getLsbD 11 = true ∧ hi.getLsbD 10 = true)
          ∨ (s.cpl ≤ hi.extractLsb' 13 2 ∧ sel.extractLsb' 0 2 ≤ hi.extractLsb' 13 2))

/-- LEA (R160), both sizes: #UD for a register; else the effective address, truncated to a 16-bit destination,
zero-extended to a 32-bit one, and no other field but the program counter. -/
def Obligations.LeaStoresTheOffset : Prop :=
  ∀ (i : Instr) (z : Size) (h : Head) (dst : Reg) (src : RM) (s : State), leaForm i = some (z, h, dst, src) →
    encode i = h.pfx.map Pfx.byte ++ [0x8D] ++ src.bytes dst.num
    ∧ (∀ r, src = .reg r → exec i s = .fault (.exception .ud s))
    ∧ (∀ m, src = .mem m →
        exec i s = .next { s with
          regs := s.regs.set dst (merge z (s.r32 dst) (effAddr m s))
          eip := s.eip + BitVec.ofNat 32 i.len })

/-- LEAVE (R170, R172): in all four combinations of sizes the stack pointer is the frame pointer plus the bytes popped
and the frame pointer is what was popped, all read before the instruction; a 16-bit write keeps bits 31:16. -/
def Obligations.LeaveReleasesTheFrame : Prop :=
  ∀ (h : Head) (s : State),
    let fp := truncTo s.stackSize (s.r32 .ebp)
    let n := sizeBytes h.opSize
    ∀ v, segRead .ss fp n s = .ok v →
      exec (.leave h) s = .next { s with
        regs := (s.regs.set .esp (merge s.stackSize (s.r32 .esp) (fp + BitVec.ofNat 32 n))).set .ebp
          (merge h.opSize (s.r32 .ebp) (v.extractLsb' 0 32))
        eip := s.eip + BitVec.ofNat 32 (Instr.leave h).len }

/-- LEAVE where the stack cannot be read (R171, R173; D21): nothing is written; in Protected Mode #SS(0), whichever of
the checks R71 to R73 fails (D35; for an invalid SS against the words of R71 alone, log 12); Interrupt 13 elsewhere;
then the page fault of the read, or its refusal. -/
def Obligations.LeaveStackFaults : Prop :=
  ∀ (h : Head) (s : State),
    let fp := truncTo s.stackSize (s.r32 .ebp)
    let n := sizeBytes h.opSize
    (∀ e, s.mode = .prot → segCheck .ss fp n .read s = .error e → exec (.leave h) s = .fault (.exception (.ss 0) s))
    ∧ (s.mode ≠ .prot → 0xFFFF < fp.toNat + n - 1 → exec (.leave h) s = .fault (.exception (.gp none) s))
    ∧ (∀ x, segCheck .ss fp n .read s = .ok () → segRead .ss fp n s = .error (.raised x) →
        exec (.leave h) s = .fault (.exception x s))
    ∧ (∀ r, segCheck .ss fp n .read s = .ok () → segRead .ss fp n s = .error (.refused r) →
        exec (.leave h) s = .refused r)

/-- LGDT and LIDT (R180): #UD for a register; CPL 0 in Protected Mode; no meaning in Virtual 8086 Mode (R185, D26); else
limit and base from six bytes, the base of 24 bits when the operand size is 16. -/
def Obligations.LgdtLidtLoadTheTables : Prop :=
  ∀ (h : Head) (src : RM) (s : State),
    encode (.lgdt h src) = h.pfx.map Pfx.byte ++ [0x0F, 0x01] ++ src.bytes 2
    ∧ encode (.lidt h src) = h.pfx.map Pfx.byte ++ [0x0F, 0x01] ++ src.bytes 3
    ∧ ∀ i, i = .lgdt h src ∨ i = .lidt h src →
      (∀ r, src = .reg r → exec i s = .fault (.exception .ud s))
      ∧ (∀ m, src = .mem m →
        (s.mode = .prot → s.cpl ≠ 0 → exec i s = .fault (.exception (.gp (some 0)) s))
        ∧ (s.mode = .v86 → exec i s = .refused .v86TableLoad)
        ∧ (s.mode ≠ .v86 → (s.mode = .prot → s.cpl = 0) →
          (∀ x, readMem h m 6 s = .error (.raised x) → exec i s = .fault (.exception x s))
          ∧ (∀ r, readMem h m 6 s = .error (.refused r) → exec i s = .refused r)
          ∧ (∀ v, readMem h m 6 s = .ok v →
            let t : TableReg :=
              ⟨if h.opSize = .s16 then (0 : BitVec 8) ++ v.extractLsb' 16 24 else v.extractLsb' 16 32,
                v.extractLsb' 0 16⟩
            (i = .lgdt h src →
              exec i s = .next { s with gdtr := t, eip := s.eip + BitVec.ofNat 32 i.len })
            ∧ (i = .lidt h src →
              exec i s = .next { s with idtr := t, eip := s.eip + BitVec.ofNat 32 i.len }))))

/-- The pointer loads outside Protected Mode (R190, R195; D19), all ten forms: the selector times 16 is the base, the
limit, attributes and valid bit stay, the offset goes to the destination. -/
def Obligations.PointerLoadsOutsideProtectedMode : Prop :=
  ∀ (i : Instr) (n : SegName) (z : Size) (h : Head) (dst : Reg) (m : MemOp) (s : State) (p : BitVec 64),
    farForm i = some (n, z, h, dst, .mem m) → s.mode ≠ .prot → readMem h m (sizeBytes z + 2) s = .ok p →
    exec i s = .next { s with
      segs := s.segs.set n { s.seg n with
        sel := farSelector z p, base := BitVec.ofNat 32 ((farSelector z p).toNat * 16) }
      regs := s.regs.set dst (merge z (s.r32 dst) (p.extractLsb' 0 32))
      eip := s.eip + BitVec.ofNat 32 i.len }

/-- The pointer loads before the selector is looked at (R190, R192, R193; D8, D18), all ten forms: #UD for a register;
the fault of reading the whole pointer, or its refusal. -/
def Obligations.PointerLoadOperandFaults : Prop :=
  ∀ (i : Instr) (n : SegName) (z : Size) (h : Head) (dst : Reg) (src : RM) (s : State),
    farForm i = some (n, z, h, dst, src) →
    (∀ r, src = .reg r → exec i s = .fault (.exception .ud s))
    ∧ (∀ m x, src = .mem m → readMem h m (sizeBytes z + 2) s = .error (.raised x) →
        exec i s = .fault (.exception x s))
    ∧ (∀ m r, src = .mem m → readMem h m (sizeBytes z + 2) s = .error (.refused r) → exec i s = .refused r)

/-- LDS, LES, LFS and LGS in Protected Mode (R198 to R201), eight forms. A null selector clears the valid bit (the other
hidden fields kept: the model's choice, log 20). Otherwise the fault of the descriptor read (R202), and the checks in
their order: table, type, privilege, present. Then the segment register and the general register are loaded, and the
accessed bit of the byte in memory is set, or left (D20): one unconstrained bit, the same in memory and in the hidden
part (the model's choice, log 5); the address stored to is remembered in the model's own field `stored` (R82, D31; log
11); where that store would fault, or its byte is not populated, the step is refused. -/
def Obligations.DataPointerLoadsInProtectedMode : Prop :=
  ∀ (i : Instr) (n : SegName) (z : Size) (h : Head) (dst : Reg) (m : MemOp) (s : State) (p : BitVec 64),
    farForm i = some (n, z, h, dst, .mem m) → n ≠ .ss → s.mode = .prot →
    readMem h m (sizeBytes z + 2) s = .ok p →
    let sel := farSelector z p
    let regs' := s.regs.set dst (merge z (s.r32 dst) (p.extractLsb' 0 32))
    let eip' := s.eip + BitVec.ofNat 32 i.len
    (selNull sel = true →
      exec i s = .next { s with
        segs := s.segs.set n { s.seg n with sel := sel, valid := false }, regs := regs', eip := eip' })
    ∧ (∀ x, selNull sel = false → descFetch sel s = .error (.raised x) → exec i s = .fault (.exception x s))
    ∧ (∀ r, selNull sel = false → descFetch sel s = .error (.refused r) → exec i s = .refused r)
    ∧ (selNull sel = false → descFetch sel s = .ok none →
      exec i s = .fault (.exception (.gp (some (sel &&& 0xFFFC))) s))
    ∧ (∀ d, selNull sel = false → descFetch sel s = .ok (some d) →
      let typed := d.hi.getLsbD 12 = true ∧ (d.hi.getLsbD 11 = false ∨ d.hi.getLsbD 9 = true)
      let allowed := (d.hi.getLsbD 11 = true ∧ d.hi.getLsbD 10 = true)
        ∨ (sel.extractLsb' 0 2 ≤ d.hi.extractLsb' 13 2 ∧ s.cpl ≤ d.hi.extractLsb' 13 2)
      (¬(typed ∧ allowed) → exec i s = .fault (.exception (.gp (some (sel &&& 0xFFFC))) s))
      ∧ (typed → allowed → d.hi.getLsbD 15 = false → exec i s = .fault (.exception (.np (sel &&& 0xFFFC)) s))
      ∧ (typed → allowed → d.hi.getLsbD 15 = true →
        (d.hi.getLsbD 8 = true →
          exec i s = .next { s with
            segs := s.segs.set n ⟨sel, d.base, d.byteLimit, d.hi &&& 0x00F0FF00, true⟩
            regs := regs', eip := eip' })
        ∧ (∀ q b, d.hi.getLsbD 8 = false → translate (d.addr + 5) .write .supervisor s = .ok q →
          memGet s.mem q = some b → ∃ u : BitVec 1,
          exec i s = .next { s with
            segs := s.segs.set n
              ⟨sel, d.base, d.byteLimit, (d.hi ||| (u.setWidth 32 <<< 8)) &&& 0x00F0FF00, true⟩
            regs := regs', eip := eip'
            mem := memSet s.mem q (b ||| u.setWidth 8)
            stored := addStored s.stored q, draws := s.draws + 1 })
        ∧ (∀ x, d.hi.getLsbD 8 = false → translate (d.addr + 5) .write .supervisor s = .error (.raised x) →
          exec i s = .refused .accessedBitPageFault)
        ∧ (∀ q, d.hi.getLsbD 8 = false → translate (d.addr + 5) .write .supervisor s = .ok q →
          memGet s.mem q = none → exec i s = .refused (.unpopulated q))))

/-- LSS in Protected Mode (R197, R200 to R202), both forms: #GP(0) for a null selector; the fault of the descriptor
read; the checks in their order: table, RPL, type, DPL, present. Then SS and the general register are loaded, and the
accessed bit of the byte in memory is set, or left (D20): one unconstrained bit, the same in memory and in the hidden
part (the model's choice, log 5); the address stored to is remembered in the model's own field `stored` (R82, D31; log
11); where that store would fault, or its byte is not populated, the step is refused. -/
def Obligations.StackPointerLoadInProtectedMode : Prop :=
  ∀ (i : Instr) (z : Size) (h : Head) (dst : Reg) (m : MemOp) (s : State) (p : BitVec 64),
    farForm i = some (.ss, z, h, dst, .mem m) → s.mode = .prot → readMem h m (sizeBytes z + 2) s = .ok p →
    let sel := farSelector z p
    let regs' := s.regs.set dst (merge z (s.r32 dst) (p.extractLsb' 0 32))
    let eip' := s.eip + BitVec.ofNat 32 i.len
    (selNull sel = true → exec i s = .fault (.exception (.gp (some 0)) s))
    ∧ (∀ x, selNull sel = false → descFetch sel s = .error (.raised x) → exec i s = .fault (.exception x s))
    ∧ (∀ r, selNull sel = false → descFetch sel s = .error (.refused r) → exec i s = .refused r)
    ∧ (selNull sel = false → descFetch sel s = .ok none →
      exec i s = .fault (.exception (.gp (some (sel &&& 0xFFFC))) s))
    ∧ (∀ d, selNull sel = false → descFetch sel s = .ok (some d) →
      let fits := sel.extractLsb' 0 2 = s.cpl
        ∧ (d.hi.getLsbD 12 = true ∧ d.hi.getLsbD 11 = false ∧ d.hi.getLsbD 9 = true)
        ∧ d.hi.extractLsb' 13 2 = s.cpl
      (¬fits → exec i s = .fault (.exception (.gp (some (sel &&& 0xFFFC))) s))
      ∧ (fits → d.hi.getLsbD 15 = false → exec i s = .fault (.exception (.ss (sel &&& 0xFFFC)) s))
      ∧ (fits → d.hi.getLsbD 15 = true →
        (d.hi.getLsbD 8 = true →
          exec i s = .next { s with
            segs := s.segs.set .ss ⟨sel, d.base, d.byteLimit, d.hi &&& 0x00F0FF00, true⟩
            regs := regs', eip := eip' })
        ∧ (∀ q b, d.hi.getLsbD 8 = false → translate (d.addr + 5) .write .supervisor s = .ok q →
          memGet s.mem q = some b → ∃ u : BitVec 1,
          exec i s = .next { s with
            segs := s.segs.set .ss
              ⟨sel, d.base, d.byteLimit, (d.hi ||| (u.setWidth 32 <<< 8)) &&& 0x00F0FF00, true⟩
            regs := regs', eip := eip'
            mem := memSet s.mem q (b ||| u.setWidth 8)
            stored := addStored s.stored q, draws := s.draws + 1 })
        ∧ (∀ x, d.hi.getLsbD 8 = false → translate (d.addr + 5) .write .supervisor s = .error (.raised x) →
          exec i s = .refused .accessedBitPageFault)
        ∧ (∀ q, d.hi.getLsbD 8 = false → translate (d.addr + 5) .write .supervisor s = .ok q →
          memGet s.mem q = none → exec i s = .refused (.unpopulated q))))

/-- LLDT (R210): every branch of its operation. Null is 0000 to 0003 (D34, R211); a null selector keeps base and limit
of LDTR (the model's choice, log 20, DEDUCED). -/
def Obligations.LldtLoadsTheLocalTable : Prop :=
  ∀ (h : Head) (src : RM) (s : State),
    encode (.lldt h src) = h.pfx.map Pfx.byte ++ [0x0F, 0x00] ++ src.bytes 2
    ∧ (s.mode ≠ .prot → exec (.lldt h src) s = .fault (.exception .ud s))
    ∧ (s.mode = .prot → s.cpl ≠ 0 → exec (.lldt h src) s = .fault (.exception (.gp (some 0)) s))
    ∧ (s.mode = .prot → s.cpl = 0 →
      (∀ x, readRm16 h src s = .error (.raised x) → exec (.lldt h src) s = .fault (.exception x s))
      ∧ (∀ r, readRm16 h src s = .error (.refused r) → exec (.lldt h src) s = .refused r)
      ∧ (∀ sel, readRm16 h src s = .ok sel →
        (sel.extractLsb' 2 14 = 0 →
          exec (.lldt h src) s = .next { s with
            ldtr := { s.ldtr with sel := sel, valid := false }
            eip := s.eip + BitVec.ofNat 32 (Instr.lldt h src).len })
        ∧ (sel.extractLsb' 2 14 ≠ 0 → sel.getLsbD 2 = true ∨ descFetch sel s = .ok none →
          exec (.lldt h src) s = .fault (.exception (.gp (some (sel &&& 0xFFFC))) s))
        ∧ (sel.extractLsb' 2 14 ≠ 0 → sel.getLsbD 2 = false →
          (∀ x, descFetch sel s = .error (.raised x) → exec (.lldt h src) s = .fault (.exception x s))
          ∧ (∀ r, descFetch sel s = .error (.refused r) → exec (.lldt h src) s = .refused r)
          ∧ (∀ d, descFetch sel s = .ok (some d) →
            (¬(d.hi.getLsbD 12 = false ∧ d.hi.extractLsb' 8 4 = 2) →
              exec (.lldt h src) s = .fault (.exception (.gp (some (sel &&& 0xFFFC))) s))
            ∧ (d.hi.getLsbD 12 = false → d.hi.extractLsb' 8 4 = 2 → d.hi.getLsbD 15 = false →
              exec (.lldt h src) s = .fault (.exception (.np (sel &&& 0xFFFC)) s))
            ∧ (d.hi.getLsbD 12 = false → d.hi.extractLsb' 8 4 = 2 → d.hi.getLsbD 15 = true →
              exec (.lldt h src) s = .next { s with
                ldtr := ⟨sel, d.base, d.byteLimit, true⟩
                eip := s.eip + BitVec.ofNat 32 (Instr.lldt h src).len })))))

/-- LMSW (R216, R217, R221): every branch of its operation; all sixteen bits are stored but PE is not cleared, and a
jump is owed when PE becomes set (R219; log 10). That CR0[15:4] takes the operand's bits is the choice of D24 and log 19
(DEDUCED): by R218 a claim about a program must not rely on CR0[15:4] after an LMSW. -/
def Obligations.LmswLoadsTheStatusWord : Prop :=
  ∀ (h : Head) (src : RM) (s : State),
    encode (.lmsw h src) = h.pfx.map Pfx.byte ++ [0x0F, 0x01] ++ src.bytes 6
    ∧ (s.mode = .prot → s.cpl ≠ 0 → exec (.lmsw h src) s = .fault (.exception (.gp (some 0)) s))
    ∧ (s.mode = .v86 → exec (.lmsw h src) s = .refused .v86Lmsw)
    ∧ (s.mode ≠ .v86 → (s.mode = .prot → s.cpl = 0) →
      (∀ x, readRm16 h src s = .error (.raised x) → exec (.lmsw h src) s = .fault (.exception x s))
      ∧ (∀ r, readRm16 h src s = .error (.refused r) → exec (.lmsw h src) s = .refused r)
      ∧ (∀ v, readRm16 h src s = .ok v →
        exec (.lmsw h src) s = .next { s with
          cr0 := s.cr0.extractLsb' 16 16 ++ v.extractLsb' 1 15 ++ BitVec.ofBool (s.pe || v.getLsbD 0)
          jumpPending := s.jumpPending || (!s.pe && v.getLsbD 0)
          eip := s.eip + BitVec.ofNat 32 (Instr.lmsw h src).len }))

/-- LTR (R270): every branch of its operation. The spec's choice D33 (R271, R272; log 21): the busy mark is one byte
stored in the GDT's descriptor, and a null selector or one with TI = 1 is #GP(selector). The model's: the byte is made
from the descriptor read (log 28), and its address is remembered (R82; log 11). -/
def Obligations.LtrLoadsTheTaskRegister : Prop :=
  ∀ (h : Head) (src : RM) (s : State),
    encode (.ltr h src) = h.pfx.map Pfx.byte ++ [0x0F, 0x00] ++ src.bytes 3
    ∧ (s.mode ≠ .prot → exec (.ltr h src) s = .fault (.exception .ud s))
    ∧ (s.mode = .prot → s.cpl ≠ 0 → exec (.ltr h src) s = .fault (.exception (.gp (some 0)) s))
    ∧ (s.mode = .prot → s.cpl = 0 →
      (∀ x, readRm16 h src s = .error (.raised x) → exec (.ltr h src) s = .fault (.exception x s))
      ∧ (∀ r, readRm16 h src s = .error (.refused r) → exec (.ltr h src) s = .refused r)
      ∧ (∀ sel, readRm16 h src s = .ok sel →
        (sel.extractLsb' 2 14 = 0 ∨ sel.getLsbD 2 = true ∨ descFetch sel s = .ok none →
          exec (.ltr h src) s = .fault (.exception (.gp (some (sel &&& 0xFFFC))) s))
        ∧ (sel.extractLsb' 2 14 ≠ 0 → sel.getLsbD 2 = false →
          (∀ x, descFetch sel s = .error (.raised x) → exec (.ltr h src) s = .fault (.exception x s))
          ∧ (∀ r, descFetch sel s = .error (.refused r) → exec (.ltr h src) s = .refused r)
          ∧ (∀ d, descFetch sel s = .ok (some d) →
            let tss := d.hi.getLsbD 12 = false ∧ (d.hi.extractLsb' 8 4 = 1 ∨ d.hi.extractLsb' 8 4 = 9)
            let a := s.gdtr.base + BitVec.ofNat 32 (8 * (sel.toNat / 8) + 5)
            (¬tss → exec (.ltr h src) s = .fault (.exception (.gp (some (sel &&& 0xFFFC))) s))
            ∧ (tss → d.hi.getLsbD 15 = false →
              exec (.ltr h src) s = .fault (.exception (.np (sel &&& 0xFFFC)) s))
            ∧ (tss → d.hi.getLsbD 15 = true →
              (∀ x, translate a .write .supervisor s = .error (.raised x) →
                exec (.ltr h src) s = .fault (.exception x s))
              ∧ (∀ q, translate a .write .supervisor s = .ok q → memGet s.mem q = none →
                exec (.ltr h src) s = .refused (.unpopulated q))
              ∧ (∀ q b, translate a .write .supervisor s = .ok q → memGet s.mem q = some b →
                exec (.ltr h src) s = .next { s with
                  mem := memSet s.mem q (d.hi.extractLsb' 8 8 ||| 0x02)
                  stored := addStored s.stored q
                  tr := ⟨sel, d.base, d.byteLimit, (d.hi ||| 0x00000200) &&& 0x00F0FF00⟩
                  eip := s.eip + BitVec.ofNat 32 (Instr.ltr h src).len }))))))

/-- A second LTR of the same selector finds the task busy (R274 a), with translation the identity. -/
def Obligations.LtrTwiceIsBusy : Prop :=
  ∀ (h h' : Head) (src src' : RM) (s t : State) (sel : Word), s.pg = false →
    readRm16 h src s = .ok sel → exec (.ltr h src) s = .next t → readRm16 h' src' t = .ok sel →
    exec (.ltr h' src') t = .fault (.exception (.gp (some (sel &&& 0xFFFC))) t)

/-- LODS (R240), all six spellings: AL, AX or EAX from the index in DS or the overriding segment, then the index up or
down by 1, 2 or 4 at the address size; where the read raises, nothing is written; a refused read refuses the step (the
spec's choice D29). -/
def Obligations.LodsLoadsTheAccumulator : Prop :=
  ∀ (i : Instr) (w : LodsWidth) (h : Head) (s : State), lodsForm i = some (w, h) →
    let idx := truncTo h.addrSize (s.r32 .esi)
    let n : Nat := match w with | .byte => 1 | .word => 2 | .dword => 4
    let seg := h.segOverride.getD .ds
    encode i = h.pfx.map Pfx.byte ++ [if w = .byte then 0xAC else 0xAD]
    ∧ (∀ v, segRead seg idx n s = .ok v →
      exec i s = .next { s with
        regs := (s.regs.set .eax (match w with
            | .byte => (s.r32 .eax).extractLsb' 8 24 ++ v.extractLsb' 0 8
            | .word => (s.r32 .eax).extractLsb' 16 16 ++ v.extractLsb' 0 16
            | .dword => v.extractLsb' 0 32)).set .esi
          (merge h.addrSize (s.r32 .esi) (if s.df = true then idx - BitVec.ofNat 32 n else idx + BitVec.ofNat 32 n))
        eip := s.eip + BitVec.ofNat 32 i.len })
    ∧ (∀ x, segRead seg idx n s = .error (.raised x) → exec i s = .fault (.exception x s))
    ∧ (∀ r, segRead seg idx n s = .error (.refused r) → exec i s = .refused r)

/-- LOOP, LOOPE, LOOPNE and their second spellings (R250): the count at the address size less one (R253); the branch is
taken when the count is not zero after that and the condition on ZF holds (R252); the target counts from the end of the
instruction (the spec's choice D22) and has 16 bits when the operand size is 16 (R255). -/
def Obligations.LoopCountsAndBranches : Prop :=
  ∀ (i : Instr) (c : LoopCond) (h : Head) (rel : Byte) (s : State), loopForm i = some (c, h, rel) →
    let count := truncTo h.addrSize (s.r32 .ecx - 1)
    let regs' := s.regs.set .ecx (merge h.addrSize (s.r32 .ecx) (s.r32 .ecx - 1))
    let next := s.eip + BitVec.ofNat 32 i.len
    let target := truncTo h.opSize (next + rel.signExtend 32)
    let taken := count ≠ 0 ∧ c.holds s.zf
    encode i = h.pfx.map Pfx.byte
      ++ [match c with | .always => 0xE2 | .zero => 0xE1 | .notZero => 0xE0, rel]
    ∧ (¬taken → exec i s = .next { s with regs := regs', eip := next })
    ∧ (taken → target ≤ (if s.mode = .prot then s.segs.cs.limit else 0xFFFF) →
        exec i s = .next { s with regs := regs', eip := target })

/-- The target of a taken LOOP beyond what R251 allows, nothing being written: #GP(0) beyond the limit of CS in
Protected Mode; no meaning above 0FFFFH elsewhere (D23; log 26). -/
def Obligations.LoopTargetChecks : Prop :=
  ∀ (i : Instr) (c : LoopCond) (h : Head) (rel : Byte) (s : State), loopForm i = some (c, h, rel) →
    let target := truncTo h.opSize (s.eip + BitVec.ofNat 32 i.len + rel.signExtend 32)
    truncTo h.addrSize (s.r32 .ecx - 1) ≠ 0 → c.holds s.zf →
    (s.mode = .prot → s.segs.cs.limit < target → exec i s = .fault (.exception (.gp (some 0)) s))
    ∧ (s.mode ≠ .prot → 0xFFFF < target → exec i s = .refused (.loopTargetBeyond64K target))

end
end

