-- ==== Sys2Proof/Laws/Bits.lean ====
section
/-! SUPPORT. Fields cut out of bit vectors that were put together, and bytes put together again. -/

namespace Sys2Proof

theorem extract_append {w : Nat} (x : BitVec w) (s n m : Nat) :
    x.extractLsb' (s + m) n ++ x.extractLsb' s m = x.extractLsb' s (n + m) := by
  apply BitVec.eq_of_getLsbD_eq
  intro i hi
  rw [BitVec.getLsbD_append]
  simp only [BitVec.getLsbD_extractLsb']
  split
  · rename_i h; simp [h, hi]
  · rename_i h
    rw [show s + m + (i - m) = s + i by omega]
    simp [hi, show i - m < n by omega]

theorem extract_all {w : Nat} (x : BitVec w) : x.extractLsb' 0 w = x := by
  apply BitVec.eq_of_getLsbD_eq; intro i hi; simp [hi]

theorem extract_low {n m : Nat} (a : BitVec n) (b : BitVec m) : (a ++ b).extractLsb' 0 m = b := by
  apply BitVec.eq_of_getLsbD_eq; intro i hi; simp [hi, BitVec.getLsbD_append]

theorem extract_high {n m : Nat} (a : BitVec n) (b : BitVec m) : (a ++ b).extractLsb' m n = a := by
  apply BitVec.eq_of_getLsbD_eq; intro i hi; simp [hi, BitVec.getLsbD_append]

theorem extract_low_of {n m : Nat} (a : BitVec n) (b : BitVec m) (s k : Nat) (h : s + k ≤ m) :
    (a ++ b).extractLsb' s k = b.extractLsb' s k := by
  apply BitVec.eq_of_getLsbD_eq; intro i hi; simp [hi, BitVec.getLsbD_append]; omega

theorem extract_high_of {n m : Nat} (a : BitVec n) (b : BitVec m) (s k : Nat) :
    (a ++ b).extractLsb' (m + s) k = a.extractLsb' s k := by
  apply BitVec.eq_of_getLsbD_eq
  intro i hi
  simp [hi, BitVec.getLsbD_append, show ¬ m + s + i < m by omega, show m + s + i - m = s + i by omega]

theorem extract_extract {w : Nat} (x : BitVec w) (s n t m : Nat) (h : t + m ≤ n) :
    (x.extractLsb' s n).extractLsb' t m = x.extractLsb' (s + t) m := by
  apply BitVec.eq_of_getLsbD_eq; intro i hi; simp [hi, show t + i < n by omega, Nat.add_assoc]

/-! ### Fields of ModRM and SIB -/

theorem modrmByte_fields (a : BitVec 2) (b c : BitVec 3) :
    modField (modrmByte a b c) = a ∧ regField (modrmByte a b c) = b ∧ rmField (modrmByte a b c) = c := by
  revert a b c; decide

theorem modrmByte_of_fields (b : Byte) : modrmByte (modField b) (regField b) (rmField b) = b := by
  revert b; decide

theorem Reg.ofNum_num (r : Reg) : Reg.ofNum r.num = r := by cases r <;> rfl

theorem Reg.num_ofNum (n : BitVec 3) : (Reg.ofNum n).num = n := by revert n; decide

theorem Base16.ofNum_num (b : Base16) : Base16.ofNum b.num = b := by cases b <;> rfl

theorem Base16.num_ofNum (n : BitVec 3) : (Base16.ofNum n).num = n := by revert n; decide

theorem indexOf_indexNum (x : Option Reg) (h : x ≠ some .esp) : indexOf (indexNum x) = x := by
  rcases x with _ | x
  · rfl
  · cases x <;> first | rfl | exact absurd rfl h

theorem indexNum_indexOf (n : BitVec 3) : indexNum (indexOf n) = n ∧ indexOf n ≠ some .esp := by revert n; decide

/-! ### Little-endian words -/

theorem bytes16_join (w : Word) : w.extractLsb' 8 8 ++ w.extractLsb' 0 8 = w :=
  (extract_append w 0 8 8).trans (extract_all w)

theorem bytes32_join (w : Dword) :
    w.extractLsb' 24 8 ++ w.extractLsb' 16 8 ++ w.extractLsb' 8 8 ++ w.extractLsb' 0 8 = w :=
  (congrArg (fun x => x ++ w.extractLsb' 8 8 ++ w.extractLsb' 0 8) (extract_append w 16 8 8)).trans <|
  (congrArg (fun x => x ++ w.extractLsb' 0 8) (extract_append w 8 16 8)).trans <|
  (extract_append w 0 24 8).trans (extract_all w)

theorem bytes16_of (a b : Byte) : bytes16 (b ++ a) = [a, b] := by
  simp only [bytes16, List.cons.injEq, and_true]; exact ⟨extract_low b a, extract_high b a⟩

theorem bytes32_of (a b c d : Byte) : bytes32 (d ++ c ++ b ++ a) = [a, b, c, d] := by
  have h0 : (d ++ c ++ b ++ a).extractLsb' 0 8 = a := extract_low _ _
  have h1 : (d ++ c ++ b ++ a).extractLsb' (8 + 0) 8 = b :=
    (extract_high_of (d ++ c ++ b) a 0 8).trans (extract_low _ _)
  have h2 : (d ++ c ++ b ++ a).extractLsb' (8 + (8 + 0)) 8 = c :=
    (extract_high_of (d ++ c ++ b) a (8 + 0) 8).trans ((extract_high_of (d ++ c) b 0 8).trans (extract_low _ _))
  have h3 : (d ++ c ++ b ++ a).extractLsb' (8 + (8 + 8)) 8 = d :=
    (extract_high_of (d ++ c ++ b) a (8 + 8) 8).trans ((extract_high_of (d ++ c) b 8 8).trans (extract_high _ _))
  show [_, _, _, _] = _
  rw [List.cons.injEq, List.cons.injEq, List.cons.injEq, List.cons.injEq]
  exact ⟨h0, h1, h2, h3, rfl⟩

theorem take16_bytes16 (w : Word) (rest : List Byte) : take16 (bytes16 w ++ rest) = some (w, rest) := by
  simp only [bytes16, List.cons_append, List.nil_append, take16]
  exact congrArg (fun x => some (x, rest)) (bytes16_join w)

theorem take32_bytes32 (w : Dword) (rest : List Byte) : take32 (bytes32 w ++ rest) = some (w, rest) := by
  simp only [bytes32, List.cons_append, List.nil_append, take32]
  exact congrArg (fun x => some (x, rest)) (bytes32_join w)

theorem take16_some {bs : List Byte} {p : Word × List Byte} (h : take16 bs = some p) : bs = bytes16 p.1 ++ p.2 := by
  rcases bs with _ | ⟨a, _ | ⟨b, rest⟩⟩ <;> simp only [take16, reduceCtorEq, Option.some.injEq] at h
  subst h; exact (congrArg (· ++ rest) (bytes16_of a b)).symm

theorem take32_some {bs : List Byte} {p : Dword × List Byte} (h : take32 bs = some p) : bs = bytes32 p.1 ++ p.2 := by
  rcases bs with _ | ⟨a, _ | ⟨b, _ | ⟨c, _ | ⟨d, rest⟩⟩⟩⟩ <;> simp only [take32, reduceCtorEq, Option.some.injEq] at h
  subst h; exact (congrArg (· ++ rest) (bytes32_of a b c d)).symm

end Sys2Proof
end

