-- ==== Sys2Proof/Laws/State.lean ====
section
/-! SUPPORT. One lemma per field per update of the state; registers and segments read after a write. -/

namespace Sys2Proof.Machine

variable (s : State)

/-! ### withRegs -/

@[simp] theorem State.withRegs_regs (v : Regs) : (s.withRegs v).regs = v := rfl
@[simp] theorem State.withRegs_segs (v : Regs) : (s.withRegs v).segs = s.segs := rfl
@[simp] theorem State.withRegs_eip (v : Regs) : (s.withRegs v).eip = s.eip := rfl
@[simp] theorem State.withRegs_eflags (v : Regs) : (s.withRegs v).eflags = s.eflags := rfl
@[simp] theorem State.withRegs_gdtr (v : Regs) : (s.withRegs v).gdtr = s.gdtr := rfl
@[simp] theorem State.withRegs_idtr (v : Regs) : (s.withRegs v).idtr = s.idtr := rfl
@[simp] theorem State.withRegs_ldtr (v : Regs) : (s.withRegs v).ldtr = s.ldtr := rfl
@[simp] theorem State.withRegs_tr (v : Regs) : (s.withRegs v).tr = s.tr := rfl
@[simp] theorem State.withRegs_cr0 (v : Regs) : (s.withRegs v).cr0 = s.cr0 := rfl
@[simp] theorem State.withRegs_cpl (v : Regs) : (s.withRegs v).cpl = s.cpl := rfl
@[simp] theorem State.withRegs_mem (v : Regs) : (s.withRegs v).mem = s.mem := rfl
@[simp] theorem State.withRegs_jumpPending (v : Regs) : (s.withRegs v).jumpPending = s.jumpPending := rfl
@[simp] theorem State.withRegs_stored (v : Regs) : (s.withRegs v).stored = s.stored := rfl
@[simp] theorem State.withRegs_draws (v : Regs) : (s.withRegs v).draws = s.draws := rfl

/-! ### withSegs -/

@[simp] theorem State.withSegs_regs (v : Segs) : (s.withSegs v).regs = s.regs := rfl
@[simp] theorem State.withSegs_segs (v : Segs) : (s.withSegs v).segs = v := rfl
@[simp] theorem State.withSegs_eip (v : Segs) : (s.withSegs v).eip = s.eip := rfl
@[simp] theorem State.withSegs_eflags (v : Segs) : (s.withSegs v).eflags = s.eflags := rfl
@[simp] theorem State.withSegs_gdtr (v : Segs) : (s.withSegs v).gdtr = s.gdtr := rfl
@[simp] theorem State.withSegs_idtr (v : Segs) : (s.withSegs v).idtr = s.idtr := rfl
@[simp] theorem State.withSegs_ldtr (v : Segs) : (s.withSegs v).ldtr = s.ldtr := rfl
@[simp] theorem State.withSegs_tr (v : Segs) : (s.withSegs v).tr = s.tr := rfl
@[simp] theorem State.withSegs_cr0 (v : Segs) : (s.withSegs v).cr0 = s.cr0 := rfl
@[simp] theorem State.withSegs_cpl (v : Segs) : (s.withSegs v).cpl = s.cpl := rfl
@[simp] theorem State.withSegs_mem (v : Segs) : (s.withSegs v).mem = s.mem := rfl
@[simp] theorem State.withSegs_jumpPending (v : Segs) : (s.withSegs v).jumpPending = s.jumpPending := rfl
@[simp] theorem State.withSegs_stored (v : Segs) : (s.withSegs v).stored = s.stored := rfl
@[simp] theorem State.withSegs_draws (v : Segs) : (s.withSegs v).draws = s.draws := rfl

/-! ### withEip -/

@[simp] theorem State.withEip_regs (v : Dword) : (s.withEip v).regs = s.regs := rfl
@[simp] theorem State.withEip_segs (v : Dword) : (s.withEip v).segs = s.segs := rfl
@[simp] theorem State.withEip_eip (v : Dword) : (s.withEip v).eip = v := rfl
@[simp] theorem State.withEip_eflags (v : Dword) : (s.withEip v).eflags = s.eflags := rfl
@[simp] theorem State.withEip_gdtr (v : Dword) : (s.withEip v).gdtr = s.gdtr := rfl
@[simp] theorem State.withEip_idtr (v : Dword) : (s.withEip v).idtr = s.idtr := rfl
@[simp] theorem State.withEip_ldtr (v : Dword) : (s.withEip v).ldtr = s.ldtr := rfl
@[simp] theorem State.withEip_tr (v : Dword) : (s.withEip v).tr = s.tr := rfl
@[simp] theorem State.withEip_cr0 (v : Dword) : (s.withEip v).cr0 = s.cr0 := rfl
@[simp] theorem State.withEip_cpl (v : Dword) : (s.withEip v).cpl = s.cpl := rfl
@[simp] theorem State.withEip_mem (v : Dword) : (s.withEip v).mem = s.mem := rfl
@[simp] theorem State.withEip_jumpPending (v : Dword) : (s.withEip v).jumpPending = s.jumpPending := rfl
@[simp] theorem State.withEip_stored (v : Dword) : (s.withEip v).stored = s.stored := rfl
@[simp] theorem State.withEip_draws (v : Dword) : (s.withEip v).draws = s.draws := rfl

/-! ### withFlags -/

@[simp] theorem State.withFlags_regs (v : Dword) : (s.withFlags v).regs = s.regs := rfl
@[simp] theorem State.withFlags_segs (v : Dword) : (s.withFlags v).segs = s.segs := rfl
@[simp] theorem State.withFlags_eip (v : Dword) : (s.withFlags v).eip = s.eip := rfl
@[simp] theorem State.withFlags_eflags (v : Dword) : (s.withFlags v).eflags = v := rfl
@[simp] theorem State.withFlags_gdtr (v : Dword) : (s.withFlags v).gdtr = s.gdtr := rfl
@[simp] theorem State.withFlags_idtr (v : Dword) : (s.withFlags v).idtr = s.idtr := rfl
@[simp] theorem State.withFlags_ldtr (v : Dword) : (s.withFlags v).ldtr = s.ldtr := rfl
@[simp] theorem State.withFlags_tr (v : Dword) : (s.withFlags v).tr = s.tr := rfl
@[simp] theorem State.withFlags_cr0 (v : Dword) : (s.withFlags v).cr0 = s.cr0 := rfl
@[simp] theorem State.withFlags_cpl (v : Dword) : (s.withFlags v).cpl = s.cpl := rfl
@[simp] theorem State.withFlags_mem (v : Dword) : (s.withFlags v).mem = s.mem := rfl
@[simp] theorem State.withFlags_jumpPending (v : Dword) : (s.withFlags v).jumpPending = s.jumpPending := rfl
@[simp] theorem State.withFlags_stored (v : Dword) : (s.withFlags v).stored = s.stored := rfl
@[simp] theorem State.withFlags_draws (v : Dword) : (s.withFlags v).draws = s.draws := rfl

/-! ### withGdtr -/

@[simp] theorem State.withGdtr_regs (v : TableReg) : (s.withGdtr v).regs = s.regs := rfl
@[simp] theorem State.withGdtr_segs (v : TableReg) : (s.withGdtr v).segs = s.segs := rfl
@[simp] theorem State.withGdtr_eip (v : TableReg) : (s.withGdtr v).eip = s.eip := rfl
@[simp] theorem State.withGdtr_eflags (v : TableReg) : (s.withGdtr v).eflags = s.eflags := rfl
@[simp] theorem State.withGdtr_gdtr (v : TableReg) : (s.withGdtr v).gdtr = v := rfl
@[simp] theorem State.withGdtr_idtr (v : TableReg) : (s.withGdtr v).idtr = s.idtr := rfl
@[simp] theorem State.withGdtr_ldtr (v : TableReg) : (s.withGdtr v).ldtr = s.ldtr := rfl
@[simp] theorem State.withGdtr_tr (v : TableReg) : (s.withGdtr v).tr = s.tr := rfl
@[simp] theorem State.withGdtr_cr0 (v : TableReg) : (s.withGdtr v).cr0 = s.cr0 := rfl
@[simp] theorem State.withGdtr_cpl (v : TableReg) : (s.withGdtr v).cpl = s.cpl := rfl
@[simp] theorem State.withGdtr_mem (v : TableReg) : (s.withGdtr v).mem = s.mem := rfl
@[simp] theorem State.withGdtr_jumpPending (v : TableReg) : (s.withGdtr v).jumpPending = s.jumpPending := rfl
@[simp] theorem State.withGdtr_stored (v : TableReg) : (s.withGdtr v).stored = s.stored := rfl
@[simp] theorem State.withGdtr_draws (v : TableReg) : (s.withGdtr v).draws = s.draws := rfl

/-! ### withIdtr -/

@[simp] theorem State.withIdtr_regs (v : TableReg) : (s.withIdtr v).regs = s.regs := rfl
@[simp] theorem State.withIdtr_segs (v : TableReg) : (s.withIdtr v).segs = s.segs := rfl
@[simp] theorem State.withIdtr_eip (v : TableReg) : (s.withIdtr v).eip = s.eip := rfl
@[simp] theorem State.withIdtr_eflags (v : TableReg) : (s.withIdtr v).eflags = s.eflags := rfl
@[simp] theorem State.withIdtr_gdtr (v : TableReg) : (s.withIdtr v).gdtr = s.gdtr := rfl
@[simp] theorem State.withIdtr_idtr (v : TableReg) : (s.withIdtr v).idtr = v := rfl
@[simp] theorem State.withIdtr_ldtr (v : TableReg) : (s.withIdtr v).ldtr = s.ldtr := rfl
@[simp] theorem State.withIdtr_tr (v : TableReg) : (s.withIdtr v).tr = s.tr := rfl
@[simp] theorem State.withIdtr_cr0 (v : TableReg) : (s.withIdtr v).cr0 = s.cr0 := rfl
@[simp] theorem State.withIdtr_cpl (v : TableReg) : (s.withIdtr v).cpl = s.cpl := rfl
@[simp] theorem State.withIdtr_mem (v : TableReg) : (s.withIdtr v).mem = s.mem := rfl
@[simp] theorem State.withIdtr_jumpPending (v : TableReg) : (s.withIdtr v).jumpPending = s.jumpPending := rfl
@[simp] theorem State.withIdtr_stored (v : TableReg) : (s.withIdtr v).stored = s.stored := rfl
@[simp] theorem State.withIdtr_draws (v : TableReg) : (s.withIdtr v).draws = s.draws := rfl

/-! ### withLdtr -/

@[simp] theorem State.withLdtr_regs (v : LdtReg) : (s.withLdtr v).regs = s.regs := rfl
@[simp] theorem State.withLdtr_segs (v : LdtReg) : (s.withLdtr v).segs = s.segs := rfl
@[simp] theorem State.withLdtr_eip (v : LdtReg) : (s.withLdtr v).eip = s.eip := rfl
@[simp] theorem State.withLdtr_eflags (v : LdtReg) : (s.withLdtr v).eflags = s.eflags := rfl
@[simp] theorem State.withLdtr_gdtr (v : LdtReg) : (s.withLdtr v).gdtr = s.gdtr := rfl
@[simp] theorem State.withLdtr_idtr (v : LdtReg) : (s.withLdtr v).idtr = s.idtr := rfl
@[simp] theorem State.withLdtr_ldtr (v : LdtReg) : (s.withLdtr v).ldtr = v := rfl
@[simp] theorem State.withLdtr_tr (v : LdtReg) : (s.withLdtr v).tr = s.tr := rfl
@[simp] theorem State.withLdtr_cr0 (v : LdtReg) : (s.withLdtr v).cr0 = s.cr0 := rfl
@[simp] theorem State.withLdtr_cpl (v : LdtReg) : (s.withLdtr v).cpl = s.cpl := rfl
@[simp] theorem State.withLdtr_mem (v : LdtReg) : (s.withLdtr v).mem = s.mem := rfl
@[simp] theorem State.withLdtr_jumpPending (v : LdtReg) : (s.withLdtr v).jumpPending = s.jumpPending := rfl
@[simp] theorem State.withLdtr_stored (v : LdtReg) : (s.withLdtr v).stored = s.stored := rfl
@[simp] theorem State.withLdtr_draws (v : LdtReg) : (s.withLdtr v).draws = s.draws := rfl

/-! ### withTr -/

@[simp] theorem State.withTr_regs (v : TaskReg) : (s.withTr v).regs = s.regs := rfl
@[simp] theorem State.withTr_segs (v : TaskReg) : (s.withTr v).segs = s.segs := rfl
@[simp] theorem State.withTr_eip (v : TaskReg) : (s.withTr v).eip = s.eip := rfl
@[simp] theorem State.withTr_eflags (v : TaskReg) : (s.withTr v).eflags = s.eflags := rfl
@[simp] theorem State.withTr_gdtr (v : TaskReg) : (s.withTr v).gdtr = s.gdtr := rfl
@[simp] theorem State.withTr_idtr (v : TaskReg) : (s.withTr v).idtr = s.idtr := rfl
@[simp] theorem State.withTr_ldtr (v : TaskReg) : (s.withTr v).ldtr = s.ldtr := rfl
@[simp] theorem State.withTr_tr (v : TaskReg) : (s.withTr v).tr = v := rfl
@[simp] theorem State.withTr_cr0 (v : TaskReg) : (s.withTr v).cr0 = s.cr0 := rfl
@[simp] theorem State.withTr_cpl (v : TaskReg) : (s.withTr v).cpl = s.cpl := rfl
@[simp] theorem State.withTr_mem (v : TaskReg) : (s.withTr v).mem = s.mem := rfl
@[simp] theorem State.withTr_jumpPending (v : TaskReg) : (s.withTr v).jumpPending = s.jumpPending := rfl
@[simp] theorem State.withTr_stored (v : TaskReg) : (s.withTr v).stored = s.stored := rfl
@[simp] theorem State.withTr_draws (v : TaskReg) : (s.withTr v).draws = s.draws := rfl

/-! ### withCr0 -/

@[simp] theorem State.withCr0_regs (v : Dword) : (s.withCr0 v).regs = s.regs := rfl
@[simp] theorem State.withCr0_segs (v : Dword) : (s.withCr0 v).segs = s.segs := rfl
@[simp] theorem State.withCr0_eip (v : Dword) : (s.withCr0 v).eip = s.eip := rfl
@[simp] theorem State.withCr0_eflags (v : Dword) : (s.withCr0 v).eflags = s.eflags := rfl
@[simp] theorem State.withCr0_gdtr (v : Dword) : (s.withCr0 v).gdtr = s.gdtr := rfl
@[simp] theorem State.withCr0_idtr (v : Dword) : (s.withCr0 v).idtr = s.idtr := rfl
@[simp] theorem State.withCr0_ldtr (v : Dword) : (s.withCr0 v).ldtr = s.ldtr := rfl
@[simp] theorem State.withCr0_tr (v : Dword) : (s.withCr0 v).tr = s.tr := rfl
@[simp] theorem State.withCr0_cr0 (v : Dword) : (s.withCr0 v).cr0 = v := rfl
@[simp] theorem State.withCr0_cpl (v : Dword) : (s.withCr0 v).cpl = s.cpl := rfl
@[simp] theorem State.withCr0_mem (v : Dword) : (s.withCr0 v).mem = s.mem := rfl
@[simp] theorem State.withCr0_jumpPending (v : Dword) : (s.withCr0 v).jumpPending = s.jumpPending := rfl
@[simp] theorem State.withCr0_stored (v : Dword) : (s.withCr0 v).stored = s.stored := rfl
@[simp] theorem State.withCr0_draws (v : Dword) : (s.withCr0 v).draws = s.draws := rfl

/-! ### withMem -/

@[simp] theorem State.withMem_regs (v : List Host.Cell) : (s.withMem v).regs = s.regs := rfl
@[simp] theorem State.withMem_segs (v : List Host.Cell) : (s.withMem v).segs = s.segs := rfl
@[simp] theorem State.withMem_eip (v : List Host.Cell) : (s.withMem v).eip = s.eip := rfl
@[simp] theorem State.withMem_eflags (v : List Host.Cell) : (s.withMem v).eflags = s.eflags := rfl
@[simp] theorem State.withMem_gdtr (v : List Host.Cell) : (s.withMem v).gdtr = s.gdtr := rfl
@[simp] theorem State.withMem_idtr (v : List Host.Cell) : (s.withMem v).idtr = s.idtr := rfl
@[simp] theorem State.withMem_ldtr (v : List Host.Cell) : (s.withMem v).ldtr = s.ldtr := rfl
@[simp] theorem State.withMem_tr (v : List Host.Cell) : (s.withMem v).tr = s.tr := rfl
@[simp] theorem State.withMem_cr0 (v : List Host.Cell) : (s.withMem v).cr0 = s.cr0 := rfl
@[simp] theorem State.withMem_cpl (v : List Host.Cell) : (s.withMem v).cpl = s.cpl := rfl
@[simp] theorem State.withMem_mem (v : List Host.Cell) : (s.withMem v).mem = v := rfl
@[simp] theorem State.withMem_jumpPending (v : List Host.Cell) : (s.withMem v).jumpPending = s.jumpPending := rfl
@[simp] theorem State.withMem_stored (v : List Host.Cell) : (s.withMem v).stored = s.stored := rfl
@[simp] theorem State.withMem_draws (v : List Host.Cell) : (s.withMem v).draws = s.draws := rfl

/-! ### withJumpPending -/

@[simp] theorem State.withJumpPending_regs (v : Bool) : (s.withJumpPending v).regs = s.regs := rfl
@[simp] theorem State.withJumpPending_segs (v : Bool) : (s.withJumpPending v).segs = s.segs := rfl
@[simp] theorem State.withJumpPending_eip (v : Bool) : (s.withJumpPending v).eip = s.eip := rfl
@[simp] theorem State.withJumpPending_eflags (v : Bool) : (s.withJumpPending v).eflags = s.eflags := rfl
@[simp] theorem State.withJumpPending_gdtr (v : Bool) : (s.withJumpPending v).gdtr = s.gdtr := rfl
@[simp] theorem State.withJumpPending_idtr (v : Bool) : (s.withJumpPending v).idtr = s.idtr := rfl
@[simp] theorem State.withJumpPending_ldtr (v : Bool) : (s.withJumpPending v).ldtr = s.ldtr := rfl
@[simp] theorem State.withJumpPending_tr (v : Bool) : (s.withJumpPending v).tr = s.tr := rfl
@[simp] theorem State.withJumpPending_cr0 (v : Bool) : (s.withJumpPending v).cr0 = s.cr0 := rfl
@[simp] theorem State.withJumpPending_cpl (v : Bool) : (s.withJumpPending v).cpl = s.cpl := rfl
@[simp] theorem State.withJumpPending_mem (v : Bool) : (s.withJumpPending v).mem = s.mem := rfl
@[simp] theorem State.withJumpPending_jumpPending (v : Bool) : (s.withJumpPending v).jumpPending = v := rfl
@[simp] theorem State.withJumpPending_stored (v : Bool) : (s.withJumpPending v).stored = s.stored := rfl
@[simp] theorem State.withJumpPending_draws (v : Bool) : (s.withJumpPending v).draws = s.draws := rfl

/-! ### withStored -/

@[simp] theorem State.withStored_regs (v : List Nat) : (s.withStored v).regs = s.regs := rfl
@[simp] theorem State.withStored_segs (v : List Nat) : (s.withStored v).segs = s.segs := rfl
@[simp] theorem State.withStored_eip (v : List Nat) : (s.withStored v).eip = s.eip := rfl
@[simp] theorem State.withStored_eflags (v : List Nat) : (s.withStored v).eflags = s.eflags := rfl
@[simp] theorem State.withStored_gdtr (v : List Nat) : (s.withStored v).gdtr = s.gdtr := rfl
@[simp] theorem State.withStored_idtr (v : List Nat) : (s.withStored v).idtr = s.idtr := rfl
@[simp] theorem State.withStored_ldtr (v : List Nat) : (s.withStored v).ldtr = s.ldtr := rfl
@[simp] theorem State.withStored_tr (v : List Nat) : (s.withStored v).tr = s.tr := rfl
@[simp] theorem State.withStored_cr0 (v : List Nat) : (s.withStored v).cr0 = s.cr0 := rfl
@[simp] theorem State.withStored_cpl (v : List Nat) : (s.withStored v).cpl = s.cpl := rfl
@[simp] theorem State.withStored_mem (v : List Nat) : (s.withStored v).mem = s.mem := rfl
@[simp] theorem State.withStored_jumpPending (v : List Nat) : (s.withStored v).jumpPending = s.jumpPending := rfl
@[simp] theorem State.withStored_stored (v : List Nat) : (s.withStored v).stored = v := rfl
@[simp] theorem State.withStored_draws (v : List Nat) : (s.withStored v).draws = s.draws := rfl

/-! ### withDraws -/

@[simp] theorem State.withDraws_regs (v : Nat) : (s.withDraws v).regs = s.regs := rfl
@[simp] theorem State.withDraws_segs (v : Nat) : (s.withDraws v).segs = s.segs := rfl
@[simp] theorem State.withDraws_eip (v : Nat) : (s.withDraws v).eip = s.eip := rfl
@[simp] theorem State.withDraws_eflags (v : Nat) : (s.withDraws v).eflags = s.eflags := rfl
@[simp] theorem State.withDraws_gdtr (v : Nat) : (s.withDraws v).gdtr = s.gdtr := rfl
@[simp] theorem State.withDraws_idtr (v : Nat) : (s.withDraws v).idtr = s.idtr := rfl
@[simp] theorem State.withDraws_ldtr (v : Nat) : (s.withDraws v).ldtr = s.ldtr := rfl
@[simp] theorem State.withDraws_tr (v : Nat) : (s.withDraws v).tr = s.tr := rfl
@[simp] theorem State.withDraws_cr0 (v : Nat) : (s.withDraws v).cr0 = s.cr0 := rfl
@[simp] theorem State.withDraws_cpl (v : Nat) : (s.withDraws v).cpl = s.cpl := rfl
@[simp] theorem State.withDraws_mem (v : Nat) : (s.withDraws v).mem = s.mem := rfl
@[simp] theorem State.withDraws_jumpPending (v : Nat) : (s.withDraws v).jumpPending = s.jumpPending := rfl
@[simp] theorem State.withDraws_stored (v : Nat) : (s.withDraws v).stored = s.stored := rfl
@[simp] theorem State.withDraws_draws (v : Nat) : (s.withDraws v).draws = v := rfl

/-! ### Composite updates -/

@[simp] theorem State.setR32_segs (r : Reg) (v : Dword) : (s.setR32 r v).segs = s.segs := rfl
@[simp] theorem State.setR32_eip (r : Reg) (v : Dword) : (s.setR32 r v).eip = s.eip := rfl
@[simp] theorem State.setR32_eflags (r : Reg) (v : Dword) : (s.setR32 r v).eflags = s.eflags := rfl
@[simp] theorem State.setR32_gdtr (r : Reg) (v : Dword) : (s.setR32 r v).gdtr = s.gdtr := rfl
@[simp] theorem State.setR32_idtr (r : Reg) (v : Dword) : (s.setR32 r v).idtr = s.idtr := rfl
@[simp] theorem State.setR32_ldtr (r : Reg) (v : Dword) : (s.setR32 r v).ldtr = s.ldtr := rfl
@[simp] theorem State.setR32_tr (r : Reg) (v : Dword) : (s.setR32 r v).tr = s.tr := rfl
@[simp] theorem State.setR32_cr0 (r : Reg) (v : Dword) : (s.setR32 r v).cr0 = s.cr0 := rfl
@[simp] theorem State.setR32_cpl (r : Reg) (v : Dword) : (s.setR32 r v).cpl = s.cpl := rfl
@[simp] theorem State.setR32_mem (r : Reg) (v : Dword) : (s.setR32 r v).mem = s.mem := rfl
@[simp] theorem State.setR32_jumpPending (r : Reg) (v : Dword) : (s.setR32 r v).jumpPending = s.jumpPending := rfl
@[simp] theorem State.setR32_stored (r : Reg) (v : Dword) : (s.setR32 r v).stored = s.stored := rfl
@[simp] theorem State.setR32_draws (r : Reg) (v : Dword) : (s.setR32 r v).draws = s.draws := rfl

@[simp] theorem State.setR16_segs (r : Reg) (v : Word) : (s.setR16 r v).segs = s.segs := rfl
@[simp] theorem State.setR16_eip (r : Reg) (v : Word) : (s.setR16 r v).eip = s.eip := rfl
@[simp] theorem State.setR16_eflags (r : Reg) (v : Word) : (s.setR16 r v).eflags = s.eflags := rfl
@[simp] theorem State.setR16_gdtr (r : Reg) (v : Word) : (s.setR16 r v).gdtr = s.gdtr := rfl
@[simp] theorem State.setR16_idtr (r : Reg) (v : Word) : (s.setR16 r v).idtr = s.idtr := rfl
@[simp] theorem State.setR16_ldtr (r : Reg) (v : Word) : (s.setR16 r v).ldtr = s.ldtr := rfl
@[simp] theorem State.setR16_tr (r : Reg) (v : Word) : (s.setR16 r v).tr = s.tr := rfl
@[simp] theorem State.setR16_cr0 (r : Reg) (v : Word) : (s.setR16 r v).cr0 = s.cr0 := rfl
@[simp] theorem State.setR16_cpl (r : Reg) (v : Word) : (s.setR16 r v).cpl = s.cpl := rfl
@[simp] theorem State.setR16_mem (r : Reg) (v : Word) : (s.setR16 r v).mem = s.mem := rfl
@[simp] theorem State.setR16_jumpPending (r : Reg) (v : Word) : (s.setR16 r v).jumpPending = s.jumpPending := rfl
@[simp] theorem State.setR16_stored (r : Reg) (v : Word) : (s.setR16 r v).stored = s.stored := rfl
@[simp] theorem State.setR16_draws (r : Reg) (v : Word) : (s.setR16 r v).draws = s.draws := rfl

@[simp] theorem State.setR8_segs (r : Reg8) (v : Byte) : (s.setR8 r v).segs = s.segs := rfl
@[simp] theorem State.setR8_eip (r : Reg8) (v : Byte) : (s.setR8 r v).eip = s.eip := rfl
@[simp] theorem State.setR8_eflags (r : Reg8) (v : Byte) : (s.setR8 r v).eflags = s.eflags := rfl
@[simp] theorem State.setR8_gdtr (r : Reg8) (v : Byte) : (s.setR8 r v).gdtr = s.gdtr := rfl
@[simp] theorem State.setR8_idtr (r : Reg8) (v : Byte) : (s.setR8 r v).idtr = s.idtr := rfl
@[simp] theorem State.setR8_ldtr (r : Reg8) (v : Byte) : (s.setR8 r v).ldtr = s.ldtr := rfl
@[simp] theorem State.setR8_tr (r : Reg8) (v : Byte) : (s.setR8 r v).tr = s.tr := rfl
@[simp] theorem State.setR8_cr0 (r : Reg8) (v : Byte) : (s.setR8 r v).cr0 = s.cr0 := rfl
@[simp] theorem State.setR8_cpl (r : Reg8) (v : Byte) : (s.setR8 r v).cpl = s.cpl := rfl
@[simp] theorem State.setR8_mem (r : Reg8) (v : Byte) : (s.setR8 r v).mem = s.mem := rfl
@[simp] theorem State.setR8_jumpPending (r : Reg8) (v : Byte) : (s.setR8 r v).jumpPending = s.jumpPending := rfl
@[simp] theorem State.setR8_stored (r : Reg8) (v : Byte) : (s.setR8 r v).stored = s.stored := rfl
@[simp] theorem State.setR8_draws (r : Reg8) (v : Byte) : (s.setR8 r v).draws = s.draws := rfl

@[simp] theorem State.setReg_segs (z : Size) (r : Reg) (v : Dword) : (s.setReg z r v).segs = s.segs := by cases z <;> rfl
@[simp] theorem State.setReg_eip (z : Size) (r : Reg) (v : Dword) : (s.setReg z r v).eip = s.eip := by cases z <;> rfl
@[simp] theorem State.setReg_eflags (z : Size) (r : Reg) (v : Dword) : (s.setReg z r v).eflags = s.eflags := by cases z <;> rfl
@[simp] theorem State.setReg_gdtr (z : Size) (r : Reg) (v : Dword) : (s.setReg z r v).gdtr = s.gdtr := by cases z <;> rfl
@[simp] theorem State.setReg_idtr (z : Size) (r : Reg) (v : Dword) : (s.setReg z r v).idtr = s.idtr := by cases z <;> rfl
@[simp] theorem State.setReg_ldtr (z : Size) (r : Reg) (v : Dword) : (s.setReg z r v).ldtr = s.ldtr := by cases z <;> rfl
@[simp] theorem State.setReg_tr (z : Size) (r : Reg) (v : Dword) : (s.setReg z r v).tr = s.tr := by cases z <;> rfl
@[simp] theorem State.setReg_cr0 (z : Size) (r : Reg) (v : Dword) : (s.setReg z r v).cr0 = s.cr0 := by cases z <;> rfl
@[simp] theorem State.setReg_cpl (z : Size) (r : Reg) (v : Dword) : (s.setReg z r v).cpl = s.cpl := by cases z <;> rfl
@[simp] theorem State.setReg_mem (z : Size) (r : Reg) (v : Dword) : (s.setReg z r v).mem = s.mem := by cases z <;> rfl
@[simp] theorem State.setReg_jumpPending (z : Size) (r : Reg) (v : Dword) : (s.setReg z r v).jumpPending = s.jumpPending := by cases z <;> rfl
@[simp] theorem State.setReg_stored (z : Size) (r : Reg) (v : Dword) : (s.setReg z r v).stored = s.stored := by cases z <;> rfl
@[simp] theorem State.setReg_draws (z : Size) (r : Reg) (v : Dword) : (s.setReg z r v).draws = s.draws := by cases z <;> rfl

@[simp] theorem State.setSeg_regs (n : SegName) (v : SegReg) : (s.setSeg n v).regs = s.regs := rfl
@[simp] theorem State.setSeg_eip (n : SegName) (v : SegReg) : (s.setSeg n v).eip = s.eip := rfl
@[simp] theorem State.setSeg_eflags (n : SegName) (v : SegReg) : (s.setSeg n v).eflags = s.eflags := rfl
@[simp] theorem State.setSeg_gdtr (n : SegName) (v : SegReg) : (s.setSeg n v).gdtr = s.gdtr := rfl
@[simp] theorem State.setSeg_idtr (n : SegName) (v : SegReg) : (s.setSeg n v).idtr = s.idtr := rfl
@[simp] theorem State.setSeg_ldtr (n : SegName) (v : SegReg) : (s.setSeg n v).ldtr = s.ldtr := rfl
@[simp] theorem State.setSeg_tr (n : SegName) (v : SegReg) : (s.setSeg n v).tr = s.tr := rfl
@[simp] theorem State.setSeg_cr0 (n : SegName) (v : SegReg) : (s.setSeg n v).cr0 = s.cr0 := rfl
@[simp] theorem State.setSeg_cpl (n : SegName) (v : SegReg) : (s.setSeg n v).cpl = s.cpl := rfl
@[simp] theorem State.setSeg_mem (n : SegName) (v : SegReg) : (s.setSeg n v).mem = s.mem := rfl
@[simp] theorem State.setSeg_jumpPending (n : SegName) (v : SegReg) : (s.setSeg n v).jumpPending = s.jumpPending := rfl
@[simp] theorem State.setSeg_stored (n : SegName) (v : SegReg) : (s.setSeg n v).stored = s.stored := rfl
@[simp] theorem State.setSeg_draws (n : SegName) (v : SegReg) : (s.setSeg n v).draws = s.draws := rfl

@[simp] theorem State.advance_regs (len : Nat) : (s.advance len).regs = s.regs := rfl
@[simp] theorem State.advance_segs (len : Nat) : (s.advance len).segs = s.segs := rfl
@[simp] theorem State.advance_eip (len : Nat) : (s.advance len).eip = s.nextPc len := rfl
@[simp] theorem State.advance_eflags (len : Nat) : (s.advance len).eflags = s.eflags := rfl
@[simp] theorem State.advance_gdtr (len : Nat) : (s.advance len).gdtr = s.gdtr := rfl
@[simp] theorem State.advance_idtr (len : Nat) : (s.advance len).idtr = s.idtr := rfl
@[simp] theorem State.advance_ldtr (len : Nat) : (s.advance len).ldtr = s.ldtr := rfl
@[simp] theorem State.advance_tr (len : Nat) : (s.advance len).tr = s.tr := rfl
@[simp] theorem State.advance_cr0 (len : Nat) : (s.advance len).cr0 = s.cr0 := rfl
@[simp] theorem State.advance_cpl (len : Nat) : (s.advance len).cpl = s.cpl := rfl
@[simp] theorem State.advance_mem (len : Nat) : (s.advance len).mem = s.mem := rfl
@[simp] theorem State.advance_jumpPending (len : Nat) : (s.advance len).jumpPending = s.jumpPending := rfl
@[simp] theorem State.advance_stored (len : Nat) : (s.advance len).stored = s.stored := rfl
@[simp] theorem State.advance_draws (len : Nat) : (s.advance len).draws = s.draws := rfl

@[simp] theorem State.setZF_regs (z : Bool) : (s.setZF z).regs = s.regs := rfl
@[simp] theorem State.setZF_segs (z : Bool) : (s.setZF z).segs = s.segs := rfl
@[simp] theorem State.setZF_eip (z : Bool) : (s.setZF z).eip = s.eip := rfl
@[simp] theorem State.setZF_eflags (z : Bool) : (s.setZF z).eflags = putZF s.eflags z := rfl
@[simp] theorem State.setZF_gdtr (z : Bool) : (s.setZF z).gdtr = s.gdtr := rfl
@[simp] theorem State.setZF_idtr (z : Bool) : (s.setZF z).idtr = s.idtr := rfl
@[simp] theorem State.setZF_ldtr (z : Bool) : (s.setZF z).ldtr = s.ldtr := rfl
@[simp] theorem State.setZF_tr (z : Bool) : (s.setZF z).tr = s.tr := rfl
@[simp] theorem State.setZF_cr0 (z : Bool) : (s.setZF z).cr0 = s.cr0 := rfl
@[simp] theorem State.setZF_cpl (z : Bool) : (s.setZF z).cpl = s.cpl := rfl
@[simp] theorem State.setZF_mem (z : Bool) : (s.setZF z).mem = s.mem := rfl
@[simp] theorem State.setZF_jumpPending (z : Bool) : (s.setZF z).jumpPending = s.jumpPending := rfl
@[simp] theorem State.setZF_stored (z : Bool) : (s.setZF z).stored = s.stored := rfl
@[simp] theorem State.setZF_draws (z : Bool) : (s.setZF z).draws = s.draws := rfl

/-! ### Reads after writes -/

@[simp] theorem Regs.get_set (g : Regs) (r q : Reg) (v : Dword) :
    (g.set r v).get q = if q = r then v else g.get q := by
  cases r <;> cases q <;> rfl

@[simp] theorem Segs.get_set (g : Segs) (n m : SegName) (v : SegReg) :
    (g.set n v).get m = if m = n then v else g.get m := by
  cases n <;> cases m <;> rfl

theorem State.r32_of_regs {s t : State} (h : t.regs = s.regs) (r : Reg) : t.r32 r = s.r32 r := by
  simp [State.r32, h]

theorem State.seg_of_segs {s t : State} (h : t.segs = s.segs) (n : SegName) : t.seg n = s.seg n := by
  simp [State.seg, h]

@[simp] theorem State.r32_setR32 (r q : Reg) (v : Dword) :
    (s.setR32 r v).r32 q = if q = r then v else s.r32 q := by
  simp [State.r32, State.setR32]

@[simp] theorem State.r32_setR16 (r q : Reg) (v : Word) :
    (s.setR16 r v).r32 q = if q = r then (s.r32 r).extractLsb' 16 16 ++ v else s.r32 q := by
  simp [State.setR16]

@[simp] theorem State.seg_setSeg (n m : SegName) (v : SegReg) :
    (s.setSeg n v).seg m = if m = n then v else s.seg m := by
  simp [State.seg, State.setSeg]

/-- A write at a size leaves every other register alone. -/
theorem State.r32_setReg_ne (z : Size) (r q : Reg) (v : Dword) (h : q ≠ r) :
    (s.setReg z r v).r32 q = s.r32 q := by
  cases z <;> simp [State.setReg, h]

/-- A 32-bit write replaces the register. -/
theorem State.r32_setReg_s32 (r : Reg) (v : Dword) : (s.setReg .s32 r v).r32 r = v := by
  simp [State.setReg]

/-- The bits of two halves joined. -/
theorem getLsbD_halves (a b : Word) (k : Nat) :
    (a ++ b : Dword).getLsbD k = if k < 16 then b.getLsbD k else a.getLsbD (k - 16) :=
  @BitVec.getLsbD_append 16 16 k a b

theorem low_half (a b : Word) : (a ++ b : Dword).extractLsb' 0 16 = b := by
  apply BitVec.eq_of_getLsbD_eq
  intro k hk
  rw [BitVec.getLsbD_extractLsb', getLsbD_halves]
  simp [hk]

theorem high_half (a b : Word) : (a ++ b : Dword).extractLsb' 16 16 = a := by
  apply BitVec.eq_of_getLsbD_eq
  intro k hk
  rw [BitVec.getLsbD_extractLsb', getLsbD_halves]
  simp [hk]

/-- A 16-bit write replaces the low half (R23). -/
theorem State.r16_setReg_s16 (r : Reg) (v : Dword) : (s.setReg .s16 r v).r16 r = v.extractLsb' 0 16 := by
  simp only [State.setReg, State.r16, State.r32_setR16, if_true, low_half]

/-- A 16-bit write keeps the high half (R23). -/
theorem State.high_setReg_s16 (r : Reg) (v : Dword) :
    ((s.setReg .s16 r v).r32 r).extractLsb' 16 16 = (s.r32 r).extractLsb' 16 16 := by
  simp only [State.setReg, State.r32_setR16, if_true, high_half]

@[simp] theorem State.r32_advance (len : Nat) (r : Reg) : (s.advance len).r32 r = s.r32 r := rfl
@[simp] theorem State.r32_withEip (a : Dword) (r : Reg) : (s.withEip a).r32 r = s.r32 r := rfl
@[simp] theorem State.r32_setZF (z : Bool) (r : Reg) : (s.setZF z).r32 r = s.r32 r := rfl
@[simp] theorem State.r32_setSeg (n : SegName) (v : SegReg) (r : Reg) : (s.setSeg n v).r32 r = s.r32 r := rfl
@[simp] theorem State.r32_withDraws (n : Nat) (r : Reg) : (s.withDraws n).r32 r = s.r32 r := rfl
@[simp] theorem State.seg_advance (len : Nat) (n : SegName) : (s.advance len).seg n = s.seg n := rfl
@[simp] theorem State.seg_setReg (z : Size) (r : Reg) (v : Dword) (n : SegName) :
    (s.setReg z r v).seg n = s.seg n := by
  cases z <;> rfl

end Sys2Proof.Machine
end

