-- ==== Sys2Proof/Laws/Ops.lean ====
section
/-! SUPPORT. What each shared operation can do, said once: results and stops, memory cells, translation, checks. -/

namespace Sys2Proof.Machine

open Config (Access Level)

/-! ### Results -/

@[simp] theorem bind_eq_ok {α β : Type} (x : Res α) (f : α → Res β) (b : β) :
    (x >>= f) = .ok b ↔ ∃ a, x = .ok a ∧ f a = .ok b := by
  cases x <;> simp [bind, Except.bind]

theorem bind_eq_error {α β : Type} (x : Res α) (f : α → Res β) (e : Stop) :
    (x >>= f) = .error e ↔ x = .error e ∨ ∃ a, x = .ok a ∧ f a = .error e := by
  cases x <;> simp [bind, Except.bind]

@[simp] theorem ok_bind {α β : Type} (a : α) (f : α → Res β) : ((.ok a : Res α) >>= f) = f a := rfl

@[simp] theorem error_bind {α β : Type} (e : Stop) (f : α → Res β) : ((.error e : Res α) >>= f) = .error e := rfl

@[simp] theorem raise_ne_ok {α : Type} (x : Exception) (a : α) : (raise x : Res α) = .ok a ↔ False := by
  simp [raise]

@[simp] theorem refuse_ne_ok {α : Type} (r : Refusal) (a : α) : (refuse r : Res α) = .ok a ↔ False := by
  simp [refuse]

@[simp] theorem require_eq_ok (c : Bool) (x : Exception) (u : Unit) : require c x = .ok u ↔ c = true := by
  cases c <;> simp [require, raise]

theorem require_of {c : Bool} (h : c = true) (x : Exception) : require c x = .ok () := by
  simp [h]

theorem require_of_not {c : Bool} (h : c = false) (x : Exception) : require c x = raise x := by
  simp [require, h]

/-- A required check stops with its exception or not at all. -/
theorem require_eq_error {c : Bool} {x : Exception} {e : Stop} (h : require c x = .error e) :
    c = false ∧ e = .raised x := by
  cases c <;> simp_all [require, raise]

@[simp] theorem refuseIf_eq_ok (c : Bool) (r : Refusal) (u : Unit) : refuseIf c r = .ok u ↔ c = false := by
  cases c <;> simp [refuseIf, refuse]

/-! ### How an instruction ends (R300, R317) -/

@[simp] theorem complete_ok (s t : State) : complete s (.ok t) = .next t := rfl

@[simp] theorem complete_raise (s : State) (x : Exception) : complete s (raise x) = .fault (.exception x s) := rfl

@[simp] theorem complete_refuse (s : State) (r : Refusal) : complete s (refuse r) = .refused r := rfl

theorem complete_next {s t : State} {r : Res State} : complete s r = .next t ↔ r = .ok t := by
  cases r with
  | ok u => simp [complete]
  | error e => cases e <;> simp [complete, stopped, takeException]

theorem complete_fault {s : State} {r : Res State} {f : Fault} (h : complete s r = .fault f) :
    ∃ x, r = .error (.raised x) ∧ f = .exception x s := by
  cases r with
  | ok u => simp [complete] at h
  | error e => cases e <;> simp_all [complete, stopped, takeException]

/-- An operation that raises ends the instruction with that exception and the state before it. -/
theorem complete_error_raised (s : State) (x : Exception) :
    complete s (.error (.raised x)) = .fault (.exception x s) := rfl

theorem complete_error_refused (s : State) (r : Refusal) : complete s (.error (.refused r)) = .refused r := rfl

/-! ### Memory cells -/

/-- A stored byte is read back, and every other address reads as before. -/
@[simp] theorem memGet_memSet (m : List Host.Cell) (a p : Nat) (b : Byte) :
    memGet (memSet m a b) p = if p = a then some b else memGet m p := by
  induction m with
  | nil => simp [memSet, memGet]
  | cons c m ih =>
    unfold memSet
    split
    · simp [memGet]
    · split
      · subst_vars
        by_cases h : p = c.1 <;> simp [memGet, h]
      · rename_i h1 h2
        by_cases h : p = c.1
        · subst h
          simp [memGet, Ne.symm h2]
        · simp [memGet, h, ih]

theorem memRising_weaken {lo : Nat} {m : List Host.Cell} (h : memRising (some lo) m = true) :
    memRising none m = true := by
  cases m <;> simp_all [memRising]

theorem memRising_memSet (m : List Host.Cell) (lo : Option Nat) (a : Nat) (b : Byte)
    (hm : memRising lo m = true) (ha : a < 2 ^ Config.physBits) (hl : ∀ l, lo = some l → l < a) :
    memRising lo (memSet m a b) = true := by
  induction m generalizing lo with
  | nil => cases lo <;> simp_all [memSet, memRising]
  | cons c m ih =>
    unfold memSet
    split
    · cases lo <;> simp_all [memRising]
    · split
      · cases lo <;> simp_all [memRising]
      · have hca : c.1 < a := by omega
        simp only [memRising, Bool.and_eq_true] at hm ⊢
        exact ⟨hm.1, ih (some c.1) hm.2 (by simpa using hca)⟩

/-- A store keeps the canonical form. -/
theorem memSet_wf {m : List Host.Cell} (hm : Memory.wf m = true) (a : Nat) (b : Byte)
    (ha : a < 2 ^ Config.physBits) : Memory.wf (memSet m a b) = true :=
  memRising_memSet m none a b hm ha (by simp)

/-- What storing bytes can do: every address was populated and stays so, only those addresses change, and the canonical
form is kept. -/
theorem writeCells_ok {m n : List Host.Cell} {ps : List Nat} {v : BitVec 64} (h : writeCells m ps v = .ok n) :
    (∀ p ∈ ps, (memGet m p).isSome = true) ∧ (∀ a, a ∉ ps → memGet n a = memGet m a)
      ∧ (∀ a, (memGet n a).isSome = (memGet m a).isSome)
      ∧ (Memory.wf m = true → (∀ p ∈ ps, p < 2 ^ Config.physBits) → Memory.wf n = true) := by
  induction ps generalizing m v with
  | nil => simp_all [writeCells]
  | cons p ps ih =>
    unfold writeCells at h
    split at h
    · rename_i b hb
      obtain ⟨h1, h2, h3, h4⟩ := ih h
      have hset : ∀ a, (memGet (memSet m p (v.extractLsb' 0 8)) a).isSome = (memGet m a).isSome := by
        intro a
        by_cases ha : a = p <;> simp [ha, hb]
      refine ⟨?_, ?_, ?_, ?_⟩
      · intro q hq
        rcases List.mem_cons.1 hq with rfl | hq
        · simp [hb]
        · rw [← hset q]; exact h1 q hq
      · intro a ha
        simp only [List.mem_cons, not_or] at ha
        rw [h2 a ha.2, memGet_memSet, if_neg ha.1]
      · intro a; rw [h3 a, hset a]
      · intro hm hp
        exact h4 (memSet_wf hm p _ (hp p (by simp))) fun q hq => hp q (by simp [hq])
    · simp at h

/-! ### Translation (R66, R79) -/

/-- A translated address is physical. -/
theorem translate_lt {a : Dword} {acc : Access} {lvl : Level} {s : State} {p : Nat}
    (h : translate a acc lvl s = .ok p) : p < 2 ^ Config.physBits := by
  have bound : ∀ x : Dword, x.toNat < 2 ^ Config.physBits := fun x => x.isLt
  unfold translate at h
  split at h
  · cases h; exact bound a
  · split at h
    · cases h; exact bound _
    · simp at h

/-- With paging off, and in Real Address Mode, translation is the identity. -/
theorem translate_identity {s : State} (h : s.mode = .real ∨ s.pg = false) (a : Dword) (acc : Access) (lvl : Level) :
    translate a acc lvl s = .ok a.toNat := by
  simp [translate, h]

/-- What stops a translation is a page fault at that address, outside Real Address Mode and with paging on. -/
theorem translate_error {a : Dword} {acc : Access} {lvl : Level} {s : State} {e : Stop}
    (h : translate a acc lvl s = .error e) :
    s.mode ≠ .real ∧ s.pg = true ∧ ∃ code, e = .raised (.pf code a) := by
  unfold translate at h
  split at h
  · simp at h
  · rename_i hm
    simp only [not_or, Bool.not_eq_false] at hm
    split at h
    · simp at h
    · rename_i code _
      exact ⟨hm.1, hm.2, code, by simpa [raise] using h.symm⟩

theorem translateRange_lt {acc : Access} {lvl : Level} {s : State} {n : Nat} {a : Dword} {ps : List Nat}
    (h : translateRange acc lvl s n a = .ok ps) : ∀ p ∈ ps, p < 2 ^ Config.physBits := by
  induction n generalizing a ps with
  | zero =>
    simp only [translateRange, Except.ok.injEq] at h
    subst h
    simp
  | succ n ih =>
    simp only [translateRange, bind_eq_ok, Except.ok.injEq] at h
    obtain ⟨p, hp, qs, hqs, rfl⟩ := h
    intro q hq
    rcases List.mem_cons.1 hq with rfl | hq
    · exact translate_lt hp
    · exact ih hqs q hq

/-- The one address of a one-byte access. -/
theorem translateRange_one {acc : Access} {lvl : Level} {s : State} {a : Dword} {ps : List Nat}
    (h : translateRange acc lvl s 1 a = .ok ps) : ∃ p, translate a acc lvl s = .ok p ∧ ps = [p] := by
  simp only [translateRange, bind_eq_ok, Except.ok.injEq] at h
  obtain ⟨p, hp, _, rfl, rfl⟩ := h
  exact ⟨p, hp, rfl⟩

/-! ### Remembered stores (R82) -/

theorem mem_addStored {l : List Nat} {p q : Nat} : q ∈ addStored l p ↔ q = p ∨ q ∈ l := by
  unfold addStored
  split
  · constructor
    · exact Or.inr
    · rintro (rfl | h) <;> assumption
  · simp

theorem addStored_nodup {l : List Nat} (h : l.Nodup) (p : Nat) : (addStored l p).Nodup := by
  unfold addStored
  split
  · exact h
  · exact List.nodup_cons.2 ⟨by assumption, h⟩

/-! ### Writes (R67) -/

/-- What a write of one byte can do: it changes one populated byte, the one its address translates to, and remembers
it. -/
theorem memWrite_one {a : Dword} {v : BitVec 64} {lvl : Level} {s t : State}
    (h : memWrite a 1 v lvl s = .ok t) :
    ∃ p, translate a .write lvl s = .ok p ∧ (memGet s.mem p).isSome = true
      ∧ t = (s.withMem (memSet s.mem p (v.extractLsb' 0 8))).withStored (addStored s.stored p) := by
  simp only [memWrite, bind_eq_ok, Except.ok.injEq] at h
  obtain ⟨ps, hps, m, hm, rfl⟩ := h
  obtain ⟨p, hp, rfl⟩ := translateRange_one hps
  unfold writeCells at hm
  split at hm
  · rename_i b hb
    simp only [writeCells, Except.ok.injEq] at hm
    subst hm
    exact ⟨p, hp, by simp [hb], rfl⟩
  · simp at hm

/-- A write of a populated byte succeeds. -/
theorem memWrite_one_ok {a : Dword} {v : BitVec 64} {lvl : Level} {s : State} {p : Nat} {b : Byte}
    (hp : translate a .write lvl s = .ok p) (hb : memGet s.mem p = some b) :
    memWrite a 1 v lvl s
      = .ok ((s.withMem (memSet s.mem p (v.extractLsb' 0 8))).withStored (addStored s.stored p)) := by
  simp [memWrite, translateRange, hp, writeCells, hb]

/-! ### Segment reads (R70 to R74) -/

/-- Outside Protected Mode the check is the 64K bound alone (R70). -/
theorem segCheck_real {s : State} (h : s.mode ≠ .prot) (n : SegName) (off : Dword) (len : Nat) (acc : Access) :
    segCheck n off len acc s = require (decide (off.toNat + len - 1 ≤ 0xFFFF)) interrupt13 := by
  unfold segCheck
  cases hm : s.mode <;> simp_all

/-- In Protected Mode a passed check means all three tests hold (R71 to R73). -/
theorem segCheck_prot_ok {s : State} (h : s.mode = .prot) (n : SegName) (off : Dword) (len : Nat) (acc : Access)
    (u : Unit) :
    segCheck n off len acc s = .ok u
      ↔ (s.seg n).valid = true ∧ limitOk (s.seg n) off len = true ∧ typeOk (s.seg n) acc = true := by
  simp [segCheck, h]

/-- A segment read is its check, then the read of the bytes at the linear address. -/
theorem segRead_ok {n : SegName} {off : Dword} {len : Nat} {s : State} {v : BitVec 64} :
    segRead n off len s = .ok v
      ↔ segCheck n off len .read s = .ok () ∧ memRead (s.linear n off) len s.level s = .ok v := by
  simp only [segRead, bind_eq_ok]
  exact ⟨fun ⟨_, h⟩ => h, fun h => ⟨(), h⟩⟩

/-- A read depends on the bytes it is made of alone. -/
theorem memRead_ok {a : Dword} {n : Nat} {lvl : Level} {s : State} {v : BitVec 64} :
    memRead a n lvl s = .ok v
      ↔ ∃ ps bs, translateRange .read lvl s n a = .ok ps ∧ readCells s.mem ps = .ok bs ∧ v = leValue bs := by
  simp only [memRead, bind_eq_ok, Except.ok.injEq]
  constructor
  · rintro ⟨ps, hps, bs, hbs, rfl⟩
    exact ⟨ps, bs, hps, hbs, rfl⟩
  · rintro ⟨ps, bs, hps, hbs, rfl⟩
    exact ⟨ps, hps, bs, hbs, rfl⟩

/-! ### Descriptors (R77) -/

theorem readCell_ok {m : List Host.Cell} {p : Nat} {b : Byte} : readCell m p = .ok b ↔ memGet m p = some b := by
  unfold readCell
  split
  · rename_i h; simp [h]
  · rename_i h; simp [h]

theorem readCell_not_raised {m : List Host.Cell} {p : Nat} {x : Exception} : readCell m p ≠ .error (.raised x) := by
  unfold readCell; split <;> intro h <;> cases h

/-- A descriptor is found only inside its table, and it is the eight bytes there. -/
theorem descFetch_some {sel : Word} {s : State} {d : Desc} (h : descFetch sel s = .ok (some d)) :
    s.inTable sel = true ∧ d.addr = s.descAddr sel
      ∧ ∃ v, memRead (s.descAddr sel) 8 .supervisor s = .ok v ∧ d.lo = v.extractLsb' 0 32
        ∧ d.hi = v.extractLsb' 32 32 := by
  unfold descFetch at h
  split at h
  · simp only [bind_eq_ok, Except.ok.injEq, Option.some.injEq] at h
    obtain ⟨v, hv, rfl⟩ := h
    exact ⟨by assumption, rfl, v, hv, rfl, rfl⟩
  · simp at h

/-- Outside its table a selector names no descriptor. -/
theorem descFetch_none {sel : Word} {s : State} (h : s.inTable sel = false) : descFetch sel s = .ok none := by
  simp [descFetch, h]

theorem descFetchOrGp_ok {sel : Word} {s : State} {d : Desc} :
    descFetchOrGp sel s = .ok d ↔ descFetch sel s = .ok (some d) := by
  unfold descFetchOrGp
  cases h : descFetch sel s with
  | error e => simp
  | ok o => cases o <;> simp

/-- `OutOfTable` is #GP(selector) for the instructions that need the descriptor. -/
theorem descFetchOrGp_out {sel : Word} {s : State} (h : s.inTable sel = false) :
    descFetchOrGp sel s = raise (gpSel sel) := by
  simp [descFetchOrGp, descFetch_none h]

end Sys2Proof.Machine
end

