-- ==== Sys2Proof/Laws/Checks.lean ====
section
/-! SUPPORT. One lemma for each check, field and ranged access: when it passes, and what it raises when it does not. -/

namespace Sys2Proof.Machine

open Config (Access Level)

/-! ### Registers -/

theorem setReg_merge (s : State) (z : Size) (r : Reg) (v : Dword) :
    s.setReg z r v = { s with regs := s.regs.set r (merge z (s.r32 r) v) } := by
  cases z <;> rfl

/-! ### Tests -/

theorem require_pos {c : Bool} (h : c = true) (x : Exception) : require c x = .ok () := by
  rw [h]; rfl

theorem require_neg {c : Bool} (h : ¬ c = true) (x : Exception) : require c x = .error (.raised x) := by
  rw [Bool.not_eq_true] at h; rw [h]; rfl

theorem requireCpl0_ok {s : State} (h : s.mode = .prot → s.cpl = 0) : requireCpl0 s = .ok () := by
  simp only [requireCpl0, require_eq_ok, decide_eq_true_eq]; exact h

theorem requireCpl0_error {s : State} (h : s.mode = .prot) (hc : s.cpl ≠ 0) :
    requireCpl0 s = .error (.raised (.gp (some 0))) := by
  simp [requireCpl0, require, h, raise, gp0]; exact hc

theorem requireProtected_ok {s : State} (h : s.mode = .prot) : requireProtected s = .ok () := by
  simp [requireProtected, h]

theorem requireProtected_error {s : State} (h : s.mode ≠ .prot) : requireProtected s = .error (.raised .ud) := by
  simp [requireProtected, h, require, raise]

theorem refuseIf_raised {c : Bool} {r : Refusal} {x : Exception} : refuseIf c r ≠ .error (.raised x) := by
  intro h; cases c <;> cases h

/-! ### Attributes of a descriptor -/

theorem isSystem_iff {hi : Dword} {t : BitVec 4} :
    isSystem hi t = true ↔ hi.getLsbD 12 = false ∧ hi.extractLsb' 8 4 = t := by
  simp only [isSystem, attrS, attrType, Bool.and_eq_true, Bool.not_eq_true']
  exact Iff.and Iff.rfl decide_eq_true_iff

theorem selIndex_eq (sel : Word) : selIndex sel = sel.toNat / 8 := by
  simp [selIndex]; have := sel.isLt; omega

/-- The checks of a data segment load (R198), in their order. -/
theorem dataSegChecks_spec (sel : Word) (hi : Dword) (s : State) :
    let typed := hi.getLsbD 12 = true ∧ (hi.getLsbD 11 = false ∨ hi.getLsbD 9 = true)
    let allowed := (hi.getLsbD 11 = true ∧ hi.getLsbD 10 = true)
      ∨ (sel.extractLsb' 0 2 ≤ hi.extractLsb' 13 2 ∧ s.cpl ≤ hi.extractLsb' 13 2)
    (¬(typed ∧ allowed) → dataSegChecks sel hi s = .error (.raised (gpSel sel)))
    ∧ (typed → allowed → hi.getLsbD 15 = false → dataSegChecks sel hi s = .error (.raised (npSel sel)))
    ∧ (typed → allowed → hi.getLsbD 15 = true → dataSegChecks sel hi s = .ok ()) := by
  simp only [dataSegChecks, isData, isReadableCode, isConforming, isCode, attrS, attrDpl, attrPresent, selRpl]
  generalize hi.getLsbD 12 = b12
  generalize hi.getLsbD 11 = b11
  generalize hi.getLsbD 10 = b10
  generalize hi.getLsbD 9 = b9
  generalize hi.getLsbD 15 = b15
  by_cases h1 : sel.extractLsb' 0 2 ≤ hi.extractLsb' 13 2 <;> by_cases h2 : s.cpl ≤ hi.extractLsb' 13 2 <;>
    simp only [h1, h2] <;> revert b12 b11 b10 b9 b15 <;> simp [require, raise]

/-- The checks of a stack segment load (R197), in their order. -/
theorem stackSegChecks_spec (sel : Word) (hi : Dword) (s : State) :
    let fits := sel.extractLsb' 0 2 = s.cpl
      ∧ (hi.getLsbD 12 = true ∧ hi.getLsbD 11 = false ∧ hi.getLsbD 9 = true)
      ∧ hi.extractLsb' 13 2 = s.cpl
    (¬fits → stackSegChecks sel hi s = .error (.raised (gpSel sel)))
    ∧ (fits → hi.getLsbD 15 = false → stackSegChecks sel hi s = .error (.raised (.ss (selCode sel))))
    ∧ (fits → hi.getLsbD 15 = true → stackSegChecks sel hi s = .ok ()) := by
  simp only [stackSegChecks, isData, isWritableData, attrS, attrDpl, attrPresent, selRpl]
  generalize hi.getLsbD 12 = b12
  generalize hi.getLsbD 11 = b11
  generalize hi.getLsbD 9 = b9
  generalize hi.getLsbD 15 = b15
  by_cases h1 : sel.extractLsb' 0 2 = s.cpl <;> by_cases h2 : hi.extractLsb' 13 2 = s.cpl <;>
    simp only [h1, h2] <;> revert b12 b11 b9 b15 <;> simp [require, raise]

/-! ### Ranged accesses -/

theorem add_succ_ofNat (a : Dword) (k : Nat) : a + 1 + BitVec.ofNat 32 k = a + BitVec.ofNat 32 (k + 1) := by
  apply BitVec.eq_of_toNat_eq; simp; omega

theorem translateRange_ok_of {acc : Access} {lvl : Level} {s : State} {n : Nat} {a : Dword} {f : Nat → Nat}
    (h : ∀ k, k < n → translate (a + BitVec.ofNat 32 k) acc lvl s = .ok (f k)) :
    translateRange acc lvl s n a = .ok ((List.range n).map f) := by
  induction n generalizing a f with
  | zero => rfl
  | succ n ih =>
    have h0 := h 0 (by omega)
    simp only [BitVec.add_zero] at h0
    have := @ih (a + 1) (fun k => f (k + 1)) (fun k hk => by rw [add_succ_ofNat]; exact h (k + 1) (by omega))
    simp only [translateRange, h0, this, ok_bind, List.range_succ_eq_map, List.map_cons, List.map_map]; rfl

theorem translateRange_error_of {acc : Access} {lvl : Level} {s : State} {n : Nat} {a : Dword} {k : Nat} {x : Stop}
    (hk : k < n) (h : ∀ j, j < k → ∃ p, translate (a + BitVec.ofNat 32 j) acc lvl s = .ok p)
    (hx : translate (a + BitVec.ofNat 32 k) acc lvl s = .error x) : translateRange acc lvl s n a = .error x := by
  induction n generalizing a k with
  | zero => omega
  | succ n ih =>
    cases k with
    | zero =>
      simp only [BitVec.add_zero] at hx; simp only [translateRange, hx, error_bind]
    | succ k =>
      obtain ⟨p, hp⟩ := h 0 (by omega)
      simp only [BitVec.add_zero] at hp
      have := @ih (a + 1) k (by omega) (fun j hj => by rw [add_succ_ofNat]; exact h (j + 1) (by omega))
        (by rw [add_succ_ofNat]; exact hx)
      simp only [translateRange, hp, this, ok_bind, error_bind]

theorem readCells_ok_of {m : List Host.Cell} {n : Nat} {f : Nat → Nat} {g : Nat → Byte}
    (h : ∀ k, k < n → memGet m (f k) = some (g k)) :
    readCells m ((List.range n).map f) = .ok ((List.range n).map g) := by
  induction n generalizing f g with
  | zero => rfl
  | succ n ih =>
    have h0 := h 0 (by omega)
    have := @ih (fun k => f (k + 1)) (fun k => g (k + 1)) (fun k hk => h (k + 1) (by omega))
    simp only [List.range_succ_eq_map, List.map_cons, List.map_map, readCells, readCell, h0, ok_bind]
    have e : (List.map (f ∘ Nat.succ) (List.range n)) = (List.range n).map (fun k => f (k + 1)) := rfl
    rw [e, this]; rfl

theorem readCells_error_of {m : List Host.Cell} {n k : Nat} {f : Nat → Nat} (hk : k < n)
    (h : ∀ j, j < k → (memGet m (f j)).isSome = true) (hx : memGet m (f k) = none) :
    readCells m ((List.range n).map f) = .error (.refused (.unpopulated (f k))) := by
  induction n generalizing k f with
  | zero => omega
  | succ n ih =>
    simp only [List.range_succ_eq_map, List.map_cons, List.map_map, readCells, readCell]
    cases k with
    | zero => simp only [hx]; rfl
    | succ k =>
      obtain ⟨b, hb⟩ := Option.isSome_iff_exists.1 (h 0 (by omega))
      have := @ih k (fun k => f (k + 1)) (by omega) (fun j hj => h (j + 1) (by omega)) hx
      have e : (List.map (f ∘ Nat.succ) (List.range n)) = (List.range n).map (fun k => f (k + 1)) := rfl
      rw [e, this]; simp only [hb]; rfl

/-- Bit `i` of a little-endian value is bit `i % 8` of byte `i / 8` (R64). -/
theorem leValue_getLsbD (bs : List Byte) (i : Nat) (hi : i < 64) :
    (leValue bs).getLsbD i = (bs.getD (i / 8) 0).getLsbD (i % 8) := by
  induction bs generalizing i with
  | nil => simp [leValue]
  | cons b bs ih =>
    simp only [leValue, BitVec.getLsbD_or, BitVec.getLsbD_shiftLeft, BitVec.getLsbD_setWidth]
    by_cases h : i < 8
    · rw [Nat.div_eq_of_lt h, Nat.mod_eq_of_lt h]; simp [h, hi]
    · obtain ⟨j, rfl⟩ : ∃ j, i = j + 8 := ⟨i - 8, by omega⟩
      rw [show (j + 8) / 8 = j / 8 + 1 by omega, show (j + 8) % 8 = j % 8 by omega]
      simp [hi, ih j (by omega)]

theorem leValue_byte (bs : List Byte) (k : Nat) (hk : k < 8) : (leValue bs).extractLsb' (8 * k) 8 = bs.getD k 0 := by
  apply BitVec.eq_of_getLsbD_eq
  intro i hi
  rw [BitVec.getLsbD_extractLsb', leValue_getLsbD _ _ (by omega), show (8 * k + i) / 8 = k by omega,
    show (8 * k + i) % 8 = i by omega]
  simp [hi]

/-- Bytes stored one after another at `n` different addresses (R67). -/
theorem writeCells_spec {m m' : List Host.Cell} {n : Nat} {f : Nat → Nat} {v : BitVec 64}
    (hf : ∀ j k, j < n → k < n → f j = f k → j = k)
    (h : writeCells m ((List.range n).map f) v = .ok m') :
    (∀ k, k < n → memGet m' (f k) = some (v.extractLsb' (8 * k) 8))
      ∧ ∀ q, (∀ k, k < n → q ≠ f k) → memGet m' q = memGet m q := by
  induction n generalizing m f v with
  | zero => cases h; exact ⟨fun k hk => by omega, fun _ _ => rfl⟩
  | succ n ih =>
    simp only [List.range_succ_eq_map, List.map_cons, List.map_map, writeCells] at h
    split at h
    · have e : (List.map (f ∘ Nat.succ) (List.range n)) = (List.range n).map (fun k => f (k + 1)) := rfl
      rw [e] at h
      obtain ⟨h1, h2⟩ := ih (fun j k hj hk hjk => by have := hf (j + 1) (k + 1) (by omega) (by omega) hjk; omega) h
      refine ⟨fun k hk => ?_, fun q hq => ?_⟩
      · cases k with
        | zero =>
          rw [h2 (f 0) (fun k hk hjk => by have := hf 0 (k + 1) (by omega) (by omega) hjk; omega)]
          simp [memGet_memSet]
        | succ k =>
          rw [h1 k (by omega)]
          congr 1
          apply BitVec.eq_of_getLsbD_eq; intro i hi
          simp only [BitVec.getLsbD_extractLsb', BitVec.getLsbD_ushiftRight]
          rw [show 8 * (k + 1) + i = 8 + (8 * k + i) by omega]
      · rw [h2 q (fun k hk => hq (k + 1) (by omega)), memGet_memSet, if_neg (hq 0 (by omega))]
    · cases h

theorem mem_foldl_addStored (ps l : List Nat) (q : Nat) : q ∈ ps.foldl addStored l ↔ q ∈ ps ∨ q ∈ l := by
  induction ps generalizing l with
  | nil => simp
  | cons p ps ih => rw [List.foldl_cons, ih, mem_addStored, List.mem_cons]; tauto

/-- A fetch window is the bytes that can be fetched, in order. -/
theorem fetchWindow_take {s : State} {n : Nat} {off : Dword} {bs : List Byte} (hn : bs.length ≤ n)
    (h : ∀ (k : Nat) (hk : k < bs.length), fetchByte (off + BitVec.ofNat 32 k) s = .ok bs[k]) :
    (fetchWindow s n off).1
        = bs ++ (fetchWindow s (n - bs.length) (off + BitVec.ofNat 32 bs.length)).1
      ∧ (fetchWindow s n off).2 = (fetchWindow s (n - bs.length) (off + BitVec.ofNat 32 bs.length)).2 := by
  induction bs generalizing n off with
  | nil => simp
  | cons b bs ih =>
    cases n with
    | zero => simp at hn
    | succ n =>
      have h0 := h 0 (by simp)
      simp only [BitVec.add_zero, List.getElem_cons_zero] at h0
      have := @ih n (off + 1) (by simpa using hn) (fun k hk => by
        rw [add_succ_ofNat]; exact h (k + 1) (by simpa using hk))
      rw [add_succ_ofNat] at this
      simp only [fetchWindow, h0, List.length_cons, Nat.add_sub_add_right, List.cons_append]
      exact ⟨by rw [← this.1], this.2⟩

end Sys2Proof.Machine
end

