-- ==== Sys2Proof/Laws/Decode.lean ====
section
/-! SUPPORT. The parsers of the decoder against the bytes of the encoder: what they read from encoded bytes, and which
bytes they have read when they answer. -/

namespace Sys2Proof

/-! ### Displacements -/

theorem Disp.mod_ne_three {w : Nat} (d : Disp w) : d.mod ≠ 3 := by cases d <;> simp [Disp.mod]

theorem Disp.mod_eq_zero {w : Nat} (d : Disp w) : d.mod = 0 ↔ d = .absent := by cases d <;> simp [Disp.mod]

theorem parseDisp16_bytes16 (d : Disp 16) (rest : List Byte) :
    parseDisp16 d.mod (d.bytes16 ++ rest) = some (d, rest) := by
  cases d <;> simp [parseDisp16, Disp.mod, Disp.bytes16, take16_bytes16]

theorem parseDisp32_bytes32 (d : Disp 32) (rest : List Byte) :
    parseDisp32 d.mod (d.bytes32 ++ rest) = some (d, rest) := by
  cases d <;> simp [parseDisp32, Disp.mod, Disp.bytes32, take32_bytes32]

theorem mod_two {m : BitVec 2} (h0 : m ≠ 0) (h1 : m ≠ 1) (h3 : m ≠ 3) : m = 2 := by revert m; decide

theorem parseDisp16_some {m : BitVec 2} {bs : List Byte} {p : Disp 16 × List Byte} (hm : m ≠ 3)
    (h : parseDisp16 m bs = some p) : p.1.mod = m ∧ bs = p.1.bytes16 ++ p.2 := by
  unfold parseDisp16 at h
  split at h
  · rename_i h0; cases h; exact ⟨h0.symm, rfl⟩
  · split at h
    · rename_i h1
      cases bs with
      | nil => cases h
      | cons d rest => cases h; exact ⟨h1.symm, rfl⟩
    · rename_i h0 h1
      obtain ⟨q, hq, rfl⟩ := Option.map_eq_some_iff.1 h
      exact ⟨(mod_two h0 h1 hm).symm, take16_some hq⟩

theorem parseDisp32_some {m : BitVec 2} {bs : List Byte} {p : Disp 32 × List Byte} (hm : m ≠ 3)
    (h : parseDisp32 m bs = some p) : p.1.mod = m ∧ bs = p.1.bytes32 ++ p.2 := by
  unfold parseDisp32 at h
  split at h
  · rename_i h0; cases h; exact ⟨h0.symm, rfl⟩
  · split at h
    · rename_i h1
      cases bs with
      | nil => cases h
      | cons d rest => cases h; exact ⟨h1.symm, rfl⟩
    · rename_i h0 h1
      obtain ⟨q, hq, rfl⟩ := Option.map_eq_some_iff.1 h
      exact ⟨(mod_two h0 h1 hm).symm, take32_some hq⟩

/-! ### Operands -/

/-- ModRM and what follows it, read from the bytes of an operand. -/
theorem parseModRM_bytes (asz : Size) (reg : Reg) (rm : RM) (rest : List Byte) (h : rm.wf asz = true) :
    parseModRM asz (rm.bytes reg.num ++ rest) = some (reg, rm, rest) := by
  rcases rm with r | m
  · simp [RM.bytes, parseModRM, modrmByte_fields, Reg.ofNum_num]
  · simp only [RM.wf, Bool.and_eq_true, decide_eq_true_eq] at h
    obtain ⟨hw, hs⟩ := h
    subst hs
    cases m with
    | abs16 d => simp [RM.bytes, parseModRM, modrmByte_fields, Reg.ofNum_num, MemOp.size, parseMem16, take16_bytes16]
    | base16 b d =>
      have hne : ¬ (d.mod = 0 ∧ b.num = 6) := by
        rintro ⟨h1, h2⟩
        rw [Disp.mod_eq_zero] at h1
        simp only [MemOp.wf, decide_eq_true_eq] at hw
        have : b = .bp := by cases b <;> simp [Base16.num] at h2 ⊢
        exact hw this h1
      simp only [RM.bytes, parseModRM, List.cons_append, modrmByte_fields, Disp.mod_ne_three, if_false, MemOp.size,
        parseMem16, hne, parseDisp16_bytes16, Reg.ofNum_num, Base16.ofNum_num]; rfl
    | abs32 d => simp [RM.bytes, parseModRM, modrmByte_fields, Reg.ofNum_num, MemOp.size, parseMem32, take32_bytes32]
    | base32 b d =>
      simp only [MemOp.wf, Bool.and_eq_true, decide_eq_true_eq] at hw
      have h4 : b.num ≠ 4 := by cases b <;> simp_all [Reg.num]
      have hne : ¬ (d.mod = 0 ∧ b.num = 5) := by
        rintro ⟨h1, h2⟩
        rw [Disp.mod_eq_zero] at h1
        have : b = .ebp := by cases b <;> simp [Reg.num] at h2 ⊢
        exact hw.2 this h1
      simp only [RM.bytes, parseModRM, List.cons_append, modrmByte_fields, Disp.mod_ne_three, if_false, MemOp.size,
        parseMem32, hne, h4, parseDisp32_bytes32, Reg.ofNum_num]; rfl
    | sib sc ix b d =>
      simp only [MemOp.wf, Bool.and_eq_true, decide_eq_true_eq, indexWf] at hw
      have hne : ¬ (d.mod = 0 ∧ b.num = 5) := by
        rintro ⟨h1, h2⟩
        rw [Disp.mod_eq_zero] at h1
        have : b = .ebp := by cases b <;> simp [Reg.num] at h2 ⊢
        exact hw.2 this h1
      simp only [RM.bytes, parseModRM, List.cons_append, modrmByte_fields, Disp.mod_ne_three, if_false, if_true,
        MemOp.size, parseMem32, parseSib, hne, parseDisp32_bytes32, Reg.ofNum_num, indexOf_indexNum ix hw.1]; rfl
    | sibAbs sc ix d =>
      simp only [MemOp.wf, indexWf, decide_eq_true_eq] at hw
      simp [RM.bytes, parseModRM, modrmByte_fields, Reg.ofNum_num, MemOp.size, parseMem32, parseSib, take32_bytes32,
        indexOf_indexNum ix hw]

theorem parseMem16_some {m : BitVec 2} {x reg : BitVec 3} {bs : List Byte} {p : MemOp × List Byte} (hm : m ≠ 3)
    (h : parseMem16 m x bs = some p) :
    modrmByte m reg x :: bs = (RM.mem p.1).bytes reg ++ p.2 ∧ p.1.wf = true ∧ p.1.size = .s16 := by
  unfold parseMem16 at h
  split at h
  · rename_i hc
    obtain ⟨q, hq, rfl⟩ := Option.map_eq_some_iff.1 h
    rw [hc.1, hc.2, take16_some hq]; exact ⟨rfl, rfl, rfl⟩
  · rename_i hc
    obtain ⟨q, hq, rfl⟩ := Option.map_eq_some_iff.1 h
    obtain ⟨h1, h2⟩ := parseDisp16_some hm hq
    refine ⟨?_, ?_, rfl⟩
    · simp only [RM.bytes, Base16.num_ofNum, h1, List.cons_append, ← h2]
    · simp only [MemOp.wf, decide_eq_true_eq]
      intro hb hd
      refine hc ⟨by rw [← h1, Disp.mod_eq_zero]; exact hd, ?_⟩
      rw [← Base16.num_ofNum x, hb]; rfl

theorem parseSib_some {m : BitVec 2} {reg : BitVec 3} {bs : List Byte} {p : MemOp × List Byte} (hm : m ≠ 3)
    (h : parseSib m bs = some p) :
    modrmByte m reg 4 :: bs = (RM.mem p.1).bytes reg ++ p.2 ∧ p.1.wf = true ∧ p.1.size = .s32 := by
  cases bs with
  | nil => cases h
  | cons s bs =>
    simp only [parseSib] at h
    have hs := modrmByte_of_fields s
    obtain ⟨hi, hi'⟩ := indexNum_indexOf (regField s)
    split at h
    · rename_i hc
      obtain ⟨q, hq, rfl⟩ := Option.map_eq_some_iff.1 h
      refine ⟨?_, ?_, rfl⟩
      · rw [hc.2] at hs
        simp only [RM.bytes, hi, hs, List.cons_append, ← take32_some hq, hc.1]
      · simp only [MemOp.wf, indexWf, decide_eq_true_eq]; exact hi'
    · rename_i hc
      obtain ⟨q, hq, rfl⟩ := Option.map_eq_some_iff.1 h
      obtain ⟨h1, h2⟩ := parseDisp32_some hm hq
      refine ⟨?_, ?_, rfl⟩
      · simp only [RM.bytes, hi, Reg.num_ofNum, hs, h1, List.cons_append, ← h2]
      · simp only [MemOp.wf, indexWf, Bool.and_eq_true, decide_eq_true_eq]
        refine ⟨hi', fun hb hd => hc ⟨by rw [← h1, Disp.mod_eq_zero]; exact hd, ?_⟩⟩
        rw [← Reg.num_ofNum (rmField s), hb]; rfl

theorem parseMem32_some {m : BitVec 2} {x reg : BitVec 3} {bs : List Byte} {p : MemOp × List Byte} (hm : m ≠ 3)
    (h : parseMem32 m x bs = some p) :
    modrmByte m reg x :: bs = (RM.mem p.1).bytes reg ++ p.2 ∧ p.1.wf = true ∧ p.1.size = .s32 := by
  unfold parseMem32 at h
  split at h
  · rename_i h4; rw [h4]; exact parseSib_some hm h
  · rename_i h4
    split at h
    · rename_i hc
      obtain ⟨q, hq, rfl⟩ := Option.map_eq_some_iff.1 h
      rw [hc.1, hc.2, take32_some hq]; exact ⟨rfl, rfl, rfl⟩
    · rename_i hc
      obtain ⟨q, hq, rfl⟩ := Option.map_eq_some_iff.1 h
      obtain ⟨h1, h2⟩ := parseDisp32_some hm hq
      refine ⟨?_, ?_, rfl⟩
      · simp only [RM.bytes, Reg.num_ofNum, h1, List.cons_append, ← h2]
      · simp only [MemOp.wf, Bool.and_eq_true, decide_eq_true_eq]
        refine ⟨fun hb => h4 (by rw [← Reg.num_ofNum x, hb]; rfl), fun hb hd => hc ⟨?_, ?_⟩⟩
        · rw [← h1, Disp.mod_eq_zero]; exact hd
        · rw [← Reg.num_ofNum x, hb]; rfl

/-- What ModRM parsing has read when it answers: exactly the bytes of a well-formed operand. -/
theorem parseModRM_some {asz : Size} {bs rest : List Byte} {reg : Reg} {rm : RM}
    (h : parseModRM asz bs = some (reg, rm, rest)) : bs = rm.bytes reg.num ++ rest ∧ rm.wf asz = true := by
  cases bs with
  | nil => cases h
  | cons m bs =>
    have hs := modrmByte_of_fields m
    simp only [parseModRM] at h
    split at h
    · rename_i h3
      cases h
      refine ⟨?_, rfl⟩
      rw [h3] at hs
      simp only [RM.bytes, Reg.num_ofNum, hs, List.cons_append, List.nil_append]
    · rename_i h3
      cases asz with
      | s16 =>
        obtain ⟨p, hp, hq⟩ := Option.map_eq_some_iff.1 h
        cases hq
        obtain ⟨e, hw, hz⟩ := parseMem16_some (reg := regField m) h3 hp
        rw [hs] at e
        exact ⟨by rw [Reg.num_ofNum]; exact e, by simp [RM.wf, hw, hz]⟩
      | s32 =>
        obtain ⟨p, hp, hq⟩ := Option.map_eq_some_iff.1 h
        cases hq
        obtain ⟨e, hw, hz⟩ := parseMem32_some (reg := regField m) h3 hp
        rw [hs] at e
        exact ⟨by rw [Reg.num_ofNum]; exact e, by simp [RM.wf, hw, hz]⟩

/-- The first byte of an operand holds the `reg` field it was encoded under. -/
theorem RM.bytes_first (reg : BitVec 3) (rm : RM) : ∃ m tl, rm.bytes reg = m :: tl ∧ regField m = reg := by
  rcases rm with x | m
  · exact ⟨_, _, rfl, by simp [modrmByte_fields]⟩
  · cases m <;> exact ⟨_, _, rfl, by simp [modrmByte_fields]⟩

/-! ### Opcodes -/

theorem splitPfx_bytes (ps : List Pfx) (b : Byte) (rest : List Byte) (h : pfxRows.lookup b = none) :
    splitPfx (ps.map Pfx.byte ++ b :: rest) = (ps, b :: rest) := by
  induction ps with
  | nil => simp [splitPfx, h]
  | cons p ps ih =>
    have : pfxRows.lookup p.byte = some p := by
      cases p <;> first | rfl | (rename_i s; cases s <;> rfl)
    simp [splitPfx, this, ih]

theorem pfxRows_byte {b : Byte} {p : Pfx} (h : pfxRows.lookup b = some p) : p.byte = b := by
  revert b p
  have : ∀ b : Byte, (pfxRows.lookup b).all (fun p => decide (p.byte = b)) = true := by decide
  intro b p h
  have := this b
  rw [h] at this
  simpa using this

theorem splitPfx_some {bs : List Byte} {p : List Pfx × List Byte} (h : splitPfx bs = p) :
    bs = p.1.map Pfx.byte ++ p.2 ∧ ∀ b ∈ p.2.head?, pfxRows.lookup b = none := by
  induction bs generalizing p with
  | nil => cases h; exact ⟨rfl, fun b hb => by cases hb⟩
  | cons b bs ih =>
    simp only [splitPfx] at h
    split at h
    · rename_i q hq
      cases h
      obtain ⟨h1, h2⟩ := ih rfl
      refine ⟨?_, h2⟩
      simp only [List.map_cons, List.cons_append, pfxRows_byte hq, ← h1]
    · rename_i hq; cases h; exact ⟨rfl, by simpa using hq⟩

/-- The parser on the bytes of an instruction of this spec. -/
theorem parseRaw_bytes (asz : Size) (r : Raw) (rest : List Byte) (h : r.wf asz = true) :
    parseRaw asz (r.bytes ++ rest) = .done r rest := by
  cases r with
  | alone op => cases op <;> rfl
  | rel op d => cases op <;> rfl
  | slashR op reg rm =>
    have := parseModRM_bytes asz reg rm rest h
    cases op <;> simp [Raw.bytes, OpR.bytes, parseRaw, parseTwo, oneByteRows, twoByteRows, List.lookup, parseSlashR, this]
  | digit op rm =>
    obtain ⟨m, tl, e1, e2⟩ := rm.bytes_first op.digit
    have e3 := parseModRM_bytes asz (Reg.ofNum op.digit) rm rest h
    rw [Reg.num_ofNum, e1, List.cons_append] at e3
    cases op <;> simp [OpD.digit] at e1 e2 e3 <;>
      simp [Raw.bytes, OpD.bytes, OpD.digit, parseRaw, parseTwo, parseGroup, grp00Rows, grp01Rows, List.lookup, e1, e2, e3]

/-- The parser on an opcode that is in no table. -/
theorem parseRaw_outOfScope_bytes (asz : Size) (o : Opcode) (rest : List Byte) (h : o.wf = true) :
    parseRaw asz (o.bytes ++ rest) = .outOfScope o rest := by
  cases o with
  | one b =>
    simp only [Opcode.wf, Bool.and_eq_true, Option.isNone_iff_eq_none, decide_eq_true_eq] at h
    simp only [Opcode.bytes, List.cons_append, List.nil_append, parseRaw, if_neg h.2, h.1.2]
  | two b =>
    simp only [Opcode.wf, Bool.and_eq_true, Option.isNone_iff_eq_none, decide_eq_true_eq] at h
    simp only [Opcode.bytes, List.cons_append, List.nil_append, parseRaw, parseTwo, if_neg h.1.2, if_neg h.2, h.1.1,
      if_true]
  | grp00 m =>
    simp only [Opcode.wf, Option.isNone_iff_eq_none] at h
    simp [Opcode.bytes, parseRaw, parseTwo, parseGroup, h]
  | grp01 m =>
    simp only [Opcode.wf, Option.isNone_iff_eq_none] at h
    simp [Opcode.bytes, parseRaw, parseTwo, parseGroup, h]

theorem oneByteRows_some {b : Byte} {x : OneByte} (h : oneByteRows.lookup b = some x) :
    match x with
    | .alone op => op.byte = b
    | .rel op => op.byte = b
    | .slashR op => op.bytes = [b] := by
  revert b x
  have : ∀ b : Byte, (oneByteRows.lookup b).all (fun x => match x with
      | .alone op => decide (op.byte = b)
      | .rel op => decide (op.byte = b)
      | .slashR op => decide (op.bytes = [b])) = true := by decide
  intro b x h
  have := this b
  rw [h] at this
  cases x <;> simpa using this

theorem twoByteRows_some {b : Byte} {op : OpR} (h : twoByteRows.lookup b = some op) : op.bytes = [0x0F, b] := by
  revert b op
  have : ∀ b : Byte, (twoByteRows.lookup b).all (fun op => decide (op.bytes = [0x0F, b])) = true := by decide
  intro b op h
  have := this b
  rw [h] at this
  simpa using this

theorem grp00Rows_some {n : BitVec 3} {op : OpD} (h : grp00Rows.lookup n = some op) :
    op.bytes = [0x0F, 0x00] ∧ op.digit = n := by
  revert n op
  have : ∀ n : BitVec 3, (grp00Rows.lookup n).all (fun op => decide (op.bytes = [0x0F, 0x00] ∧ op.digit = n)) = true := by
    decide
  intro n op h
  have := this n
  rw [h] at this
  simpa using this

theorem grp01Rows_some {n : BitVec 3} {op : OpD} (h : grp01Rows.lookup n = some op) :
    op.bytes = [0x0F, 0x01] ∧ op.digit = n := by
  revert n op
  have : ∀ n : BitVec 3, (grp01Rows.lookup n).all (fun op => decide (op.bytes = [0x0F, 0x01] ∧ op.digit = n)) = true := by
    decide
  intro n op h
  have := this n
  rw [h] at this
  simpa using this

theorem parseSlashR_done {asz : Size} {op : OpR} {bs rest : List Byte} {r : Raw}
    (h : parseSlashR asz op bs = .done r rest) : op.bytes ++ bs = r.bytes ++ rest ∧ r.wf asz = true := by
  unfold parseSlashR at h
  split at h
  · rename_i reg rm rest' hp
    cases h
    obtain ⟨e, hw⟩ := parseModRM_some hp
    exact ⟨by simp only [Raw.bytes, List.append_assoc, ← e], hw⟩
  · cases h

theorem parseSlashR_in {asz : Size} {op : OpR} {bs rest : List Byte} {o : Opcode} :
    parseSlashR asz op bs ≠ .outOfScope o rest := by
  unfold parseSlashR; split <;> simp

/-- What the group parser has read when it answers. -/
theorem parseGroup_done {asz : Size} {rows : List (BitVec 3 × OpD)} {out : Byte → Opcode} {bs rest : List Byte} {r : Raw}
    {g : List Byte} (hrows : ∀ {n op}, rows.lookup n = some op → op.bytes = g ∧ op.digit = n)
    (h : parseGroup asz rows out bs = .done r rest) : g ++ bs = r.bytes ++ rest ∧ r.wf asz = true := by
  cases bs with
  | nil => cases h
  | cons m bs =>
    simp only [parseGroup] at h
    split at h
    · cases h
    · rename_i op hop
      split at h
      · rename_i reg rm rest' hp
        cases h
        obtain ⟨e, hw⟩ := parseModRM_some hp
        obtain ⟨h1, h2⟩ := hrows hop
        obtain ⟨m', tl, e1, e2⟩ := rm.bytes_first reg.num
        have : regField m = reg.num := by rw [e1, List.cons_append] at e; injection e with e _; rw [e, e2]
        refine ⟨?_, hw⟩
        simp only [Raw.bytes, h1, h2, this, List.append_assoc, ← e]
      · cases h

theorem parseGroup_out {asz : Size} {rows : List (BitVec 3 × OpD)} {out : Byte → Opcode} {bs rest : List Byte}
    {o : Opcode} (h : parseGroup asz rows out bs = .outOfScope o rest) :
    ∃ m, bs = m :: rest ∧ o = out m ∧ rows.lookup (regField m) = none := by
  cases bs with
  | nil => cases h
  | cons m bs =>
    simp only [parseGroup] at h
    split at h
    · rename_i hm; cases h; exact ⟨m, rfl, rfl, hm⟩
    · split at h <;> cases h

/-- What the parser has read when it answers an instruction of this spec. -/
theorem parseRaw_done {asz : Size} {bs rest : List Byte} {r : Raw} (h : parseRaw asz bs = .done r rest) :
    bs = r.bytes ++ rest ∧ r.wf asz = true := by
  cases bs with
  | nil => cases h
  | cons b bs =>
    simp only [parseRaw] at h
    split at h
    · rename_i h0F
      rw [h0F]
      cases bs with
      | nil => cases h
      | cons c bs =>
        simp only [parseTwo] at h
        split at h
        · rename_i h0; rw [h0]; exact parseGroup_done (g := [0x0F, 0x00]) grp00Rows_some h
        · split at h
          · rename_i h1; rw [h1]; exact parseGroup_done (g := [0x0F, 0x01]) grp01Rows_some h
          · split at h
            · rename_i op hop
              have := parseSlashR_done h
              rw [twoByteRows_some hop] at this
              exact this
            · cases h
    · split at h
      · rename_i op hop
        cases h
        have e : op.byte = b := oneByteRows_some hop
        exact ⟨by simp only [Raw.bytes, e, List.cons_append, List.nil_append], rfl⟩
      · rename_i op hop
        have e : op.byte = b := oneByteRows_some hop
        cases bs with
        | nil => cases h
        | cons d rest =>
          cases h
          exact ⟨by simp only [Raw.bytes, e, List.cons_append, List.nil_append], rfl⟩
      · rename_i op hop
        have e : op.bytes = [b] := oneByteRows_some hop
        have := parseSlashR_done h
        rw [e] at this
        exact this
      · cases h

/-- What the parser has read when it answers an opcode that is in no table. -/
theorem parseRaw_out {asz : Size} {bs rest : List Byte} {o : Opcode} (h : parseRaw asz bs = .outOfScope o rest)
    (hp : ∀ b ∈ bs.head?, pfxRows.lookup b = none) : bs = o.bytes ++ rest ∧ o.wf = true := by
  cases bs with
  | nil => cases h
  | cons b bs =>
    have hb : pfxRows.lookup b = none := hp b rfl
    simp only [parseRaw] at h
    split at h
    · rename_i h0F
      rw [h0F]
      cases bs with
      | nil => cases h
      | cons c bs =>
        simp only [parseTwo] at h
        split at h
        · rename_i h0; rw [h0]
          obtain ⟨m, rfl, rfl, hm⟩ := parseGroup_out h
          exact ⟨rfl, by simp [Opcode.wf, hm]⟩
        · rename_i h0
          split at h
          · rename_i h1; rw [h1]
            obtain ⟨m, rfl, rfl, hm⟩ := parseGroup_out h
            exact ⟨rfl, by simp [Opcode.wf, hm]⟩
          · rename_i h1
            split at h
            · exact absurd h parseSlashR_in
            · rename_i hc
              cases h
              exact ⟨rfl, by simp [Opcode.wf, hc]; exact ⟨h0, h1⟩⟩
    · rename_i h0F
      split at h
      · cases h
      · split at h <;> cases h
      · exact absurd h parseSlashR_in
      · rename_i hc
        cases h
        exact ⟨rfl, by simp [Opcode.wf, hb, hc]; exact h0F⟩

/-- No instruction starts, after its prefixes, with a prefix byte. -/
theorem LockTarget.bytes_first {asz : Size} {t : LockTarget} (h : t.wf asz = true) :
    ∃ b tl, t.bytes = b :: tl ∧ pfxRows.lookup b = none := by
  cases t with
  | inScope r =>
    cases r with
    | alone op => cases op <;> exact ⟨_, _, rfl, rfl⟩
    | rel op d => cases op <;> exact ⟨_, _, rfl, rfl⟩
    | slashR op reg rm => cases op <;> exact ⟨_, _, rfl, rfl⟩
    | digit op rm => cases op <;> exact ⟨_, _, rfl, rfl⟩
  | outOfScope o =>
    cases o with
    | one b =>
      simp only [LockTarget.wf, Opcode.wf, Bool.and_eq_true, Option.isNone_iff_eq_none] at h
      exact ⟨_, _, rfl, h.1.1⟩
    | two b => exact ⟨_, _, rfl, rfl⟩
    | grp00 b => exact ⟨_, _, rfl, rfl⟩
    | grp01 b => exact ⟨_, _, rfl, rfl⟩

end Sys2Proof
end

