-- ==== Sys2Proof/Laws/Exec.lean ====
section
/-! SUPPORT. What each instruction's operation can do when it completes, said once: the next state it gives. -/

namespace Sys2Proof.Machine

/-- A byte written as the low byte of a value is that byte. -/
@[simp] theorem low_byte (b : Byte) : (b.setWidth 64).extractLsb' 0 8 = b := by
  ext i hi
  simp only [BitVec.getElem_extractLsb', BitVec.getLsbD_setWidth, Nat.zero_add]
  have : i < 64 := by omega
  simp [this, BitVec.getLsbD_eq_getElem hi]

/-- LEA completes for memory operands alone, with the offset in the destination. -/
theorem leaOp_ok {z : Size} {dst : Reg} {src : RM} {len : Nat} {s t : State} (h : leaOp z dst src len s = .ok t) :
    ∃ m, src = .mem m ∧ t = (s.setReg z dst (effAddr m s)).advance len := by
  cases src with
  | reg r => simp [leaOp] at h
  | mem m => exact ⟨m, rfl, by simpa [leaOp] using h.symm⟩

/-- The stack is popped where the segment read succeeds, and alike. -/
theorem popRead_eq_ok {off : Dword} {n : Nat} {s : State} {v : BitVec 64} :
    popRead off n s = .ok v ↔ segRead .ss off n s = .ok v := by
  unfold popRead
  split
  · rename_i hc
    simp [segRead, segCheck, hc.1, hc.2, require, raise]
  · rfl

/-- LEAVE completes where the stack can be read, with both registers written. -/
theorem leaveOp_ok {h : Head} {len : Nat} {s t : State} (ht : leaveOp h len s = .ok t) :
    ∃ v, popRead (s.reg s.stackSize .ebp) (sizeBytes h.opSize) s = .ok v
      ∧ t = ((s.setReg s.stackSize .esp (s.reg s.stackSize .ebp + BitVec.ofNat 32 (sizeBytes h.opSize))).setReg
          h.opSize .ebp (v.extractLsb' 0 32)).advance len := by
  simp only [leaveOp, bind_eq_ok, Except.ok.injEq] at ht
  obtain ⟨v, hv, rfl⟩ := ht
  exact ⟨v, hv, rfl⟩

/-- LAR completes in Protected Mode alone: with a descriptor found, or with ZF cleared. -/
theorem larOp_ok {z : Size} {h : Head} {dst : Reg} {src : RM} {len : Nat} {s t : State}
    (ht : larOp z h dst src len s = .ok t) :
    s.mode = .prot ∧ ∃ sel, readSelector z h src s = .ok sel
      ∧ ((∃ d, examine larTypeValid sel s = .ok (some d)
            ∧ t = (((s.setReg z dst (larValue d.hi (Config.larUndef s.draws))).withDraws
                (s.draws + 1)).setZF true).advance len)
          ∨ (examine larTypeValid sel s = .ok none ∧ t = (s.setZF false).advance len)) := by
  simp only [larOp, requireProtected, bind_eq_ok, require_eq_ok, decide_eq_true_eq] at ht
  obtain ⟨_, hm, sel, hsel, o, ho, ht⟩ := ht
  refine ⟨hm, sel, hsel, ?_⟩
  cases o with
  | some d => exact .inl ⟨d, ho, by simpa using ht.symm⟩
  | none => exact .inr ⟨ho, by simpa using ht.symm⟩

/-- LSL completes in Protected Mode alone: with a descriptor found, or with ZF cleared. -/
theorem lslOp_ok {z : Size} {h : Head} {dst : Reg} {src : RM} {len : Nat} {s t : State}
    (ht : lslOp z h dst src len s = .ok t) :
    s.mode = .prot ∧ ∃ sel, readSelector z h src s = .ok sel
      ∧ ((∃ d, examine lslTypeValid sel s = .ok (some d)
            ∧ t = ((s.setReg z dst d.byteLimit).setZF true).advance len)
          ∨ (examine lslTypeValid sel s = .ok none ∧ t = (s.setZF false).advance len)) := by
  simp only [lslOp, requireProtected, bind_eq_ok, require_eq_ok, decide_eq_true_eq] at ht
  obtain ⟨_, hm, sel, hsel, o, ho, ht⟩ := ht
  refine ⟨hm, sel, hsel, ?_⟩
  cases o with
  | some d => exact .inl ⟨d, ho, by simpa using ht.symm⟩
  | none => exact .inr ⟨ho, by simpa using ht.symm⟩

/-- A descriptor LAR or LSL finds is in its table, of a valid type and visible. -/
theorem examine_some {typeValid : Dword → Bool} {sel : Word} {s : State} {d : Desc}
    (h : examine typeValid sel s = .ok (some d)) :
    selNull sel = false ∧ descFetch sel s = .ok (some d) ∧ typeValid d.hi = true ∧ visible sel d.hi s = true := by
  unfold examine at h
  split at h
  · simp at h
  · rename_i hn
    simp only [bind_eq_ok] at h
    obtain ⟨o, ho, h⟩ := h
    cases o with
    | none => simp at h
    | some e =>
      simp only [Except.ok.injEq, Option.ite_none_right_eq_some, Bool.and_eq_true, Option.some.injEq] at h
      obtain ⟨⟨h1, h2⟩, rfl⟩ := h
      exact ⟨by simpa using hn, ho, h1, h2⟩

/-- The operand of LGDT and LIDT: six bytes of memory, outside Virtual 8086 Mode, at CPL 0 in Protected Mode. -/
theorem tableOperand_ok {h : Head} {src : RM} {s : State} {t : TableReg} (ht : tableOperand h src s = .ok t) :
    ∃ m v, src = .mem m ∧ s.mode ≠ .v86 ∧ (s.mode = .prot → s.cpl = 0) ∧ readMem h m 6 s = .ok v
      ∧ t = tableValue h.opSize v := by
  cases src with
  | reg r => simp [tableOperand] at ht
  | mem m =>
    simp only [tableOperand, requireCpl0, bind_eq_ok, require_eq_ok, refuseIf_eq_ok, Except.ok.injEq,
      decide_eq_true_eq, decide_eq_false_iff_not] at ht
    obtain ⟨_, h0, _, h1, v, hv, rfl⟩ := ht
    exact ⟨m, v, rfl, h1, h0, hv, rfl⟩

theorem lgdtOp_ok {h : Head} {src : RM} {len : Nat} {s t : State} (ht : lgdtOp h src len s = .ok t) :
    ∃ d, tableOperand h src s = .ok d ∧ t = (s.withGdtr d).advance len := by
  simp only [lgdtOp, bind_eq_ok, Except.ok.injEq] at ht
  obtain ⟨d, hd, rfl⟩ := ht
  exact ⟨d, hd, rfl⟩

theorem lidtOp_ok {h : Head} {src : RM} {len : Nat} {s t : State} (ht : lidtOp h src len s = .ok t) :
    ∃ d, tableOperand h src s = .ok d ∧ t = (s.withIdtr d).advance len := by
  simp only [lidtOp, bind_eq_ok, Except.ok.injEq] at ht
  obtain ⟨d, hd, rfl⟩ := ht
  exact ⟨d, hd, rfl⟩

/-- LLDT completes in Protected Mode at CPL 0 alone: LDTR becomes invalid, or takes a present LDT of the GDT. -/
theorem lldtOp_ok {h : Head} {src : RM} {len : Nat} {s t : State} (ht : lldtOp h src len s = .ok t) :
    s.mode = .prot ∧ s.cpl = 0 ∧ ∃ sel, readRm16 h src s = .ok sel
      ∧ ((selNull sel = true ∧ t = (s.withLdtr { s.ldtr with sel := sel, valid := false }).advance len)
          ∨ (selNull sel = false ∧ selTI sel = false ∧ ∃ d, descFetch sel s = .ok (some d) ∧ isSystem d.hi 2 = true
              ∧ attrPresent d.hi = true ∧ t = (s.withLdtr ⟨sel, d.base, d.byteLimit, true⟩).advance len)) := by
  simp only [lldtOp, requireProtected, requireCpl0, bind_eq_ok, require_eq_ok, decide_eq_true_eq] at ht
  obtain ⟨_, hm, _, hc, sel, hsel, ht⟩ := ht
  refine ⟨hm, hc hm, sel, hsel, ?_⟩
  split at ht
  · exact .inl ⟨by assumption, by simpa using ht.symm⟩
  · rename_i hn
    simp only [bind_eq_ok, require_eq_ok, descFetchOrGp_ok, Except.ok.injEq] at ht
    obtain ⟨_, h1, d, hd, _, h2, _, h3, rfl⟩ := ht
    exact .inr ⟨by simpa using hn, by simpa using h1, d, hd, h2, h3, rfl⟩

theorem lmswOp_ok {h : Head} {src : RM} {len : Nat} {s t : State} (ht : lmswOp h src len s = .ok t) :
    s.mode ≠ .v86 ∧ (s.mode = .prot → s.cpl = 0) ∧ ∃ v, readRm16 h src s = .ok v
      ∧ t = ((s.withCr0 (s.cr0.extractLsb' 16 16 ++ newMsw s.pe v)).withJumpPending
          (s.jumpPending || (!s.pe && v.getLsbD 0))).advance len := by
  simp only [lmswOp, requireCpl0, bind_eq_ok, require_eq_ok, refuseIf_eq_ok, Except.ok.injEq, decide_eq_true_eq,
    decide_eq_false_iff_not] at ht
  obtain ⟨_, h0, _, h1, v, hv, rfl⟩ := ht
  exact ⟨h1, h0, v, hv, rfl⟩

/-- LTR completes in Protected Mode at CPL 0 alone: a present, available TSS of the GDT is marked busy, and loaded. -/
theorem ltrOp_ok {h : Head} {src : RM} {len : Nat} {s t : State} (ht : ltrOp h src len s = .ok t) :
    s.mode = .prot ∧ s.cpl = 0 ∧ ∃ sel d p, readRm16 h src s = .ok sel ∧ selNull sel = false ∧ selTI sel = false
      ∧ descFetch sel s = .ok (some d) ∧ (isSystem d.hi 1 = true ∨ isSystem d.hi 9 = true)
      ∧ attrPresent d.hi = true ∧ translate d.arAddr .write .supervisor s = .ok p
      ∧ (memGet s.mem p).isSome = true
      ∧ t = (((s.withMem (memSet s.mem p (d.arByte ||| 0x02))).withStored (addStored s.stored p)).withTr
          ⟨sel, d.base, d.byteLimit, (d.hi ||| 0x00000200) &&& arMask⟩).advance len := by
  simp only [ltrOp, requireProtected, requireCpl0, bind_eq_ok, require_eq_ok, decide_eq_true_eq, descFetchOrGp_ok,
    Except.ok.injEq] at ht
  obtain ⟨_, hm, _, hc, sel, hsel, _, hn, d, hd, _, hty, _, hpr, u, hu, rfl⟩ := ht
  obtain ⟨p, hp, hs, rfl⟩ := memWrite_one hu
  simp only [Bool.and_eq_true, Bool.not_eq_true', Bool.or_eq_true] at hn hty
  refine ⟨hm, hc hm, sel, d, p, hsel, hn.1, hn.2, hd, hty, hpr, hp, hs, ?_⟩
  rw [low_byte]

/-- What marking a descriptor accessed can do: nothing when its bit is set; else one byte stored, bit 0 drawn. -/
theorem markAccessed_ok {d : Desc} {s : State} {q : State × Dword} (h : markAccessed d s = .ok q) :
    (d.hi.getLsbD 8 = true ∧ q = (s, d.hi))
      ∨ (d.hi.getLsbD 8 = false ∧ ∃ p b, translate d.arAddr .write .supervisor s = .ok p
          ∧ memGet s.mem p = some b
          ∧ q = (((s.withMem (memSet s.mem p (b ||| (Config.accessedUndef s.draws).setWidth 8))).withStored
                (addStored s.stored p)).withDraws (s.draws + 1),
              d.hi ||| ((Config.accessedUndef s.draws).setWidth 32 <<< 8))) := by
  unfold markAccessed at h
  split at h
  · exact .inl ⟨by assumption, by simpa using h.symm⟩
  · rename_i ha
    simp only at h
    split at h
    · rename_i p hp
      simp only [bind_eq_ok, readCell_ok, Except.ok.injEq] at h
      obtain ⟨b, hb, rfl⟩ := h
      exact .inr ⟨by simpa using ha, p, b, hp, hb, rfl⟩
    · simp at h
    · simp at h

/-- What loading a segment register in Protected Mode can do (R196 to R201). -/
theorem loadSegProtected_ok {n : SegName} {sel : Word} {s t : State} (h : loadSegProtected n sel s = .ok t) :
    (selNull sel = true ∧ n ≠ .ss ∧ t = s.setSeg n { s.seg n with sel := sel, valid := false })
      ∨ (selNull sel = false ∧ ∃ d q, descFetch sel s = .ok (some d)
          ∧ (if n = .ss then stackSegChecks sel d.hi s else dataSegChecks sel d.hi s) = .ok ()
          ∧ markAccessed d s = .ok q ∧ t = q.1.setSeg n ⟨sel, d.base, d.byteLimit, q.2 &&& arMask, true⟩) := by
  unfold loadSegProtected at h
  split at h
  · rename_i hn
    split at h
    · simp at h
    · exact .inl ⟨hn, by assumption, by simpa using h.symm⟩
  · rename_i hn
    refine .inr ⟨by simpa using hn, ?_⟩
    by_cases hss : n = .ss
    · simp only [hss, if_pos, bind_eq_ok, descFetchOrGp_ok, Except.ok.injEq] at h ⊢
      obtain ⟨d, hd, _, hc, q, hq, rfl⟩ := h
      exact ⟨d, q, hd, hc, hq, rfl⟩
    · simp only [hss, if_false, bind_eq_ok, descFetchOrGp_ok, Except.ok.injEq] at h ⊢
      obtain ⟨d, hd, _, hc, q, hq, rfl⟩ := h
      exact ⟨d, q, hd, hc, hq, rfl⟩

theorem loadSeg_ok {n : SegName} {sel : Word} {s t : State} (h : loadSeg n sel s = .ok t) :
    (s.mode ≠ .prot ∧ t = loadSegReal n sel s) ∨ (s.mode = .prot ∧ loadSegProtected n sel s = .ok t) := by
  unfold loadSeg at h
  cases hm : s.mode <;> simp_all

/-- The segment register a pointer load leaves: `u` is the state with it loaded, in terms of the state before. In every
case nothing else changes but, in the last, one access-rights byte with its bookkeeping. -/
theorem loadSeg_cases {n : SegName} {sel : Word} {s u : State} (h : loadSeg n sel s = .ok u) :
    (s.mode ≠ .prot ∧ u = s.setSeg n { s.seg n with sel := sel, base := sel.setWidth 32 <<< 4 })
    ∨ (s.mode = .prot ∧ selNull sel = true ∧ n ≠ .ss ∧ u = s.setSeg n { s.seg n with sel := sel, valid := false })
    ∨ (s.mode = .prot ∧ selNull sel = false ∧ ∃ d, descFetch sel s = .ok (some d)
        ∧ (if n = .ss then stackSegChecks sel d.hi s else dataSegChecks sel d.hi s) = .ok ()
        ∧ ((d.hi.getLsbD 8 = true ∧ u = s.setSeg n ⟨sel, d.base, d.byteLimit, d.hi &&& arMask, true⟩)
          ∨ (d.hi.getLsbD 8 = false ∧ ∃ q b, translate d.arAddr .write .supervisor s = .ok q
              ∧ memGet s.mem q = some b
              ∧ u = (((s.withMem (memSet s.mem q (b ||| (Config.accessedUndef s.draws).setWidth 8))).withStored
                  (addStored s.stored q)).withDraws (s.draws + 1)).setSeg n
                  ⟨sel, d.base, d.byteLimit,
                    (d.hi ||| ((Config.accessedUndef s.draws).setWidth 32 <<< 8)) &&& arMask, true⟩))) := by
  rcases loadSeg_ok h with ⟨hm, rfl⟩ | ⟨hm, h⟩
  · exact .inl ⟨hm, rfl⟩
  · rcases loadSegProtected_ok h with ⟨h0, hn, rfl⟩ | ⟨h0, d, q, hd, hc, hq, rfl⟩
    · exact .inr (.inl ⟨hm, h0, hn, rfl⟩)
    · refine .inr (.inr ⟨hm, h0, d, hd, hc, ?_⟩)
      rcases markAccessed_ok hq with ⟨h8, rfl⟩ | ⟨h8, p, b, hp, hb, rfl⟩
      · exact .inl ⟨h8, rfl⟩
      · exact .inr ⟨h8, p, b, hp, hb, rfl⟩

/-- A pointer load completes for memory operands alone: the pointer read, the segment loaded, then the register. -/
theorem farOp_ok {n : SegName} {z : Size} {h : Head} {dst : Reg} {src : RM} {len : Nat} {s t : State}
    (ht : farOp n z h dst src len s = .ok t) :
    ∃ m p u, src = .mem m ∧ readMem h m (sizeBytes z + 2) s = .ok p
      ∧ loadSeg n (p.extractLsb' (8 * sizeBytes z) 16) s = .ok u
      ∧ t = (u.setReg z dst (p.extractLsb' 0 32)).advance len := by
  cases src with
  | reg r => simp [farOp] at ht
  | mem m =>
    simp only [farOp, bind_eq_ok, Except.ok.injEq] at ht
    obtain ⟨p, hp, u, hu, rfl⟩ := ht
    exact ⟨m, p, u, rfl, hp, hu, rfl⟩

theorem lodsOp_ok {w : LodsWidth} {h : Head} {len : Nat} {s t : State} (ht : lodsOp w h len s = .ok t) :
    ∃ v, segRead (h.segOverride.getD .ds) (s.reg h.addrSize .esi) (lodsBytes w) s = .ok v
      ∧ t = ((loadAccumulator w v s).setReg h.addrSize .esi
          (nextIndex s.df (s.reg h.addrSize .esi) (lodsBytes w))).advance len := by
  simp only [lodsOp, bind_eq_ok, Except.ok.injEq] at ht
  obtain ⟨v, hv, rfl⟩ := ht
  exact ⟨v, hv, rfl⟩

/-- A LOOP that completes branches, its target checked, or falls through. -/
theorem loopOp_ok {cond : Bool → Bool} {h : Head} {rel : Byte} {len : Nat} {s t : State}
    (ht : loopOp cond h rel len s = .ok t) :
    (loopCount h s ≠ 0 ∧ cond s.zf = true ∧ targetCheck (loopTarget h rel len s) s = .ok ()
        ∧ t = (s.setReg h.addrSize .ecx (loopCount h s)).withEip (loopTarget h rel len s))
      ∨ (¬(loopCount h s ≠ 0 ∧ cond s.zf = true)
        ∧ t = (s.setReg h.addrSize .ecx (loopCount h s)).advance len) := by
  simp only [loopOp] at ht
  split at ht
  · rename_i hc
    simp only [bind_eq_ok, Except.ok.injEq] at ht
    obtain ⟨_, hk, rfl⟩ := ht
    exact .inl ⟨hc.1, hc.2, hk, rfl⟩
  · rename_i hc
    exact .inr ⟨hc, by simpa using ht.symm⟩

/-- A step that gives a next state fetched an instruction and executed it. -/
theorem step_next {s t : State} (h : step s = .next t) : ∃ i, fetchInstr s = .ok i ∧ exec i s = .next t := by
  unfold step at h
  split at h
  · rename_i i hi
    exact ⟨i, hi, h⟩
  · rename_i e _
    cases e <;> simp [stopped, takeException] at h

/-! ### One operation for each family -/

theorem exec_lar {i : Instr} {z : Size} {h : Head} {dst : Reg} {src : RM} (hi : larForm i = some (z, h, dst, src))
    (s : State) : exec i s = complete s (larOp z h dst src i.len s) := by
  cases i <;> simp only [larForm, Option.some.injEq, Prod.mk.injEq, reduceCtorEq] at hi <;>
    obtain ⟨rfl, rfl, rfl, rfl⟩ := hi <;> rfl

theorem exec_lsl {i : Instr} {z : Size} {h : Head} {dst : Reg} {src : RM} (hi : lslForm i = some (z, h, dst, src))
    (s : State) : exec i s = complete s (lslOp z h dst src i.len s) := by
  cases i <;> simp only [lslForm, Option.some.injEq, Prod.mk.injEq, reduceCtorEq] at hi <;>
    obtain ⟨rfl, rfl, rfl, rfl⟩ := hi <;> rfl

theorem exec_lea {i : Instr} {z : Size} {h : Head} {dst : Reg} {src : RM} (hi : leaForm i = some (z, h, dst, src))
    (s : State) : exec i s = complete s (leaOp z dst src i.len s) := by
  cases i <;> simp only [leaForm, Option.some.injEq, Prod.mk.injEq, reduceCtorEq] at hi <;>
    obtain ⟨rfl, rfl, rfl, rfl⟩ := hi <;> rfl

theorem exec_far {i : Instr} {n : SegName} {z : Size} {h : Head} {dst : Reg} {src : RM}
    (hi : farForm i = some (n, z, h, dst, src)) (s : State) :
    exec i s = complete s (farOp n z h dst src i.len s) := by
  cases i <;> simp only [farForm, Option.some.injEq, Prod.mk.injEq, reduceCtorEq] at hi <;>
    obtain ⟨rfl, rfl, rfl, rfl, rfl⟩ := hi <;> rfl

theorem exec_lods {i : Instr} {w : LodsWidth} {h : Head} (hi : lodsForm i = some (w, h)) (s : State) :
    exec i s = complete s (lodsOp w h i.len s) := by
  cases i <;> simp only [lodsForm, Option.some.injEq, Prod.mk.injEq, reduceCtorEq] at hi <;>
    obtain ⟨rfl, rfl⟩ := hi <;> rfl

theorem exec_loop {i : Instr} {c : LoopCond} {h : Head} {rel : Byte} (hi : loopForm i = some (c, h, rel)) :
    ∃ cond : Bool → Bool, (∀ z, cond z = true ↔ c.holds z)
      ∧ ∀ s, exec i s = complete s (loopOp cond h rel i.len s) := by
  cases i <;> simp only [loopForm, Option.some.injEq, Prod.mk.injEq, reduceCtorEq] at hi <;>
    obtain ⟨rfl, rfl, rfl⟩ := hi <;> refine ⟨_, ?_, fun s => rfl⟩ <;> intro z <;> cases z <;> simp [LoopCond.holds]

/-- Every instruction completes through the operation of its family. -/
theorem exec_next_cases {i : Instr} {s t : State} (h : exec i s = .next t) :
    (∃ hd, i = .lahf hd ∧ t = ((s.setR8 .ah (flagsByte s.eflags (Config.lahfUndef s.draws))).withDraws
        (s.draws + 1)).advance i.len)
    ∨ (∃ z hd dst src, larForm i = some (z, hd, dst, src) ∧ larOp z hd dst src i.len s = .ok t)
    ∨ (∃ z hd dst src, lslForm i = some (z, hd, dst, src) ∧ lslOp z hd dst src i.len s = .ok t)
    ∨ (∃ z hd dst src, leaForm i = some (z, hd, dst, src) ∧ leaOp z dst src i.len s = .ok t)
    ∨ (∃ hd, i = .leave hd ∧ leaveOp hd i.len s = .ok t)
    ∨ (∃ hd src, i = .lgdt hd src ∧ lgdtOp hd src i.len s = .ok t)
    ∨ (∃ hd src, i = .lidt hd src ∧ lidtOp hd src i.len s = .ok t)
    ∨ (∃ n z hd dst src, farForm i = some (n, z, hd, dst, src) ∧ farOp n z hd dst src i.len s = .ok t)
    ∨ (∃ hd src, i = .lldt hd src ∧ lldtOp hd src i.len s = .ok t)
    ∨ (∃ hd src, i = .lmsw hd src ∧ lmswOp hd src i.len s = .ok t)
    ∨ (∃ w hd, lodsForm i = some (w, hd) ∧ lodsOp w hd i.len s = .ok t)
    ∨ (∃ c cond hd rel, loopForm i = some (c, hd, rel) ∧ loopOp cond hd rel i.len s = .ok t)
    ∨ (∃ hd src, i = .ltr hd src ∧ ltrOp hd src i.len s = .ok t) := by
  have ok : ∀ {r : Res State}, complete s r = .next t → r = .ok t := complete_next.1
  cases i with
  | lahf hd => exact .inl ⟨hd, rfl, (Except.ok.inj (ok h)).symm⟩
  | lar16 hd dst src => exact .inr (.inl ⟨.s16, hd, dst, src, rfl, ok h⟩)
  | lar32 hd dst src => exact .inr (.inl ⟨.s32, hd, dst, src, rfl, ok h⟩)
  | lsl16 hd dst src => exact .inr (.inr (.inl ⟨.s16, hd, dst, src, rfl, ok h⟩))
  | lsl32 hd dst src => exact .inr (.inr (.inl ⟨.s32, hd, dst, src, rfl, ok h⟩))
  | lea16 hd dst src => exact .inr (.inr (.inr (.inl ⟨.s16, hd, dst, src, rfl, ok h⟩)))
  | lea32 hd dst src => exact .inr (.inr (.inr (.inl ⟨.s32, hd, dst, src, rfl, ok h⟩)))
  | leave hd => exact .inr (.inr (.inr (.inr (.inl ⟨hd, rfl, ok h⟩))))
  | lgdt hd src => exact .inr (.inr (.inr (.inr (.inr (.inl ⟨hd, src, rfl, ok h⟩)))))
  | lidt hd src => exact .inr (.inr (.inr (.inr (.inr (.inr (.inl ⟨hd, src, rfl, ok h⟩))))))
  | lds16 hd dst src => exact .inr (.inr (.inr (.inr (.inr (.inr (.inr (.inl ⟨.ds, .s16, hd, dst, src, rfl, ok h⟩)))))))
  | lds32 hd dst src => exact .inr (.inr (.inr (.inr (.inr (.inr (.inr (.inl ⟨.ds, .s32, hd, dst, src, rfl, ok h⟩)))))))
  | lss16 hd dst src => exact .inr (.inr (.inr (.inr (.inr (.inr (.inr (.inl ⟨.ss, .s16, hd, dst, src, rfl, ok h⟩)))))))
  | lss32 hd dst src => exact .inr (.inr (.inr (.inr (.inr (.inr (.inr (.inl ⟨.ss, .s32, hd, dst, src, rfl, ok h⟩)))))))
  | les16 hd dst src => exact .inr (.inr (.inr (.inr (.inr (.inr (.inr (.inl ⟨.es, .s16, hd, dst, src, rfl, ok h⟩)))))))
  | les32 hd dst src => exact .inr (.inr (.inr (.inr (.inr (.inr (.inr (.inl ⟨.es, .s32, hd, dst, src, rfl, ok h⟩)))))))
  | lfs16 hd dst src => exact .inr (.inr (.inr (.inr (.inr (.inr (.inr (.inl ⟨.fs, .s16, hd, dst, src, rfl, ok h⟩)))))))
  | lfs32 hd dst src => exact .inr (.inr (.inr (.inr (.inr (.inr (.inr (.inl ⟨.fs, .s32, hd, dst, src, rfl, ok h⟩)))))))
  | lgs16 hd dst src => exact .inr (.inr (.inr (.inr (.inr (.inr (.inr (.inl ⟨.gs, .s16, hd, dst, src, rfl, ok h⟩)))))))
  | lgs32 hd dst src => exact .inr (.inr (.inr (.inr (.inr (.inr (.inr (.inl ⟨.gs, .s32, hd, dst, src, rfl, ok h⟩)))))))
  | lldt hd src => iterate 8 right
                   exact .inl ⟨hd, src, rfl, ok h⟩
  | lmsw hd src => iterate 9 right
                   exact .inl ⟨hd, src, rfl, ok h⟩
  | lock hd target => cases target <;> simp [exec, execLock] at h
  | lods8 hd | lodsb hd => iterate 10 right
                           exact .inl ⟨.byte, hd, rfl, ok h⟩
  | lods16 hd | lodsw hd => iterate 10 right
                            exact .inl ⟨.word, hd, rfl, ok h⟩
  | lods32 hd | lodsd hd => iterate 10 right
                            exact .inl ⟨.dword, hd, rfl, ok h⟩
  | loop hd rel => iterate 11 right
                   exact .inl ⟨.always, _, hd, rel, rfl, ok h⟩
  | loope hd rel | loopz hd rel => iterate 11 right
                                   exact .inl ⟨.zero, _, hd, rel, rfl, ok h⟩
  | loopne hd rel | loopnz hd rel => iterate 11 right
                                     exact .inl ⟨.notZero, _, hd, rel, rfl, ok h⟩
  | ltr hd src => iterate 12 right
                  exact ⟨hd, src, rfl, ok h⟩

end Sys2Proof.Machine
end

