-- ==== Sys2Proof/Laws/Launch.lean ====
section
/-! SUPPORT. The launch condition on segment registers (R341) against the loads themselves (R195 to R201). -/

namespace Sys2Proof.Machine

/-- The checks of `loadSegProtected` are those the launch condition asks. -/
theorem loadAccepts_of_checks {n : SegName} {sel : Word} {hi : Dword} {s : State} (hn : n ≠ .cs)
    (h : (if n = .ss then stackSegChecks sel hi s else dataSegChecks sel hi s) = .ok ()) : loadAccepts n sel hi s := by
  cases n <;> first | exact absurd rfl hn | exact h

/-- A descriptor is fetched alike in states that agree on memory, the tables and the mode. -/
theorem descFetch_withMem_eq {n : SegName} {sel : Word} {s : State} {m : List Host.Cell} {l : List Nat} {k : Nat}
    {v : SegReg} (hm : m = s.mem) :
    descFetch sel ((((s.withMem m).withStored l).withDraws k).setSeg n v) = descFetch sel s := by
  subst hm; rfl

/-- What a load gives, the launch condition admits, where the load stored nothing new. -/
theorem loadSeg_segLoaded {n : SegName} {sel : Word} {s t : State} (h : loadSeg n sel s = .ok t) (hn : n ≠ .cs)
    (hm : t.mem = s.mem) : t.segLoaded n := by
  rcases loadSeg_cases h with ⟨hr, rfl⟩ | ⟨_, h0, hs, rfl⟩ | ⟨hp, h0, d, hd, hc, ⟨_, rfl⟩ | ⟨_, q, b, _, _, rfl⟩⟩
  · exact .inl ⟨by simp, fun hp => absurd hp hr⟩
  · exact .inr (.inl ⟨by simpa using h0, hn, hs, by simp⟩)
  · exact .inr (.inr ⟨by simpa using h0, d, 0, by rw [State.seg_setSeg, if_pos rfl]; exact hd,
      by rw [State.seg_setSeg, if_pos rfl]; exact loadAccepts_of_checks hn hc, by simp⟩)
  · refine .inr (.inr ⟨by simpa using h0, d, Config.accessedUndef s.draws, ?_, ?_, by simp⟩)
    · rw [State.seg_setSeg, if_pos rfl, descFetch_withMem_eq (by simpa using hm)]; exact hd
    · rw [State.seg_setSeg, if_pos rfl]; exact loadAccepts_of_checks hn hc

end Sys2Proof.Machine
end

