-- ==== Sys2Proof/Laws/PerInstr.lean ====
section
/-! SUPPORT. Statements made per instruction: the length of an encoding, of which the advance of the program counter
is made (rules R26, R103). -/

namespace Sys2Proof.Laws.EncodedLength

/-- An instruction's length is one byte for each of its prefixes and the bytes that follow them, of which there is at
least the opcode. -/
def Statement (i : Instr) : Prop :=
  i.len = i.head.pfx.length + i.target.bytes.length ∧ 0 < i.target.bytes.length

theorem len_eq (i : Instr) : i.len = i.head.pfx.length + i.target.bytes.length := by
  simp [Instr.len, encode]

theorem raw_pos (r : Raw) : 0 < r.bytes.length := by
  cases r with
  | alone op => simp [Raw.bytes]
  | rel op d => simp [Raw.bytes]
  | slashR op reg rm => cases op <;> simp [Raw.bytes, OpR.bytes]
  | digit op rm => cases op <;> simp [Raw.bytes, OpD.bytes]

theorem opcode_pos (o : Opcode) : 0 < o.bytes.length := by
  cases o <;> simp [Opcode.bytes]

theorem of_target {i : Instr} {r : Raw} (h : i.target = .inScope r) : Statement i :=
  ⟨len_eq i, by rw [h]; exact raw_pos r⟩

theorem lahf (h : Head) : Statement (.lahf h) := of_target rfl
theorem lar16 (h : Head) (dst : Reg) (src : RM) : Statement (.lar16 h dst src) := of_target rfl
theorem lar32 (h : Head) (dst : Reg) (src : RM) : Statement (.lar32 h dst src) := of_target rfl
theorem lea16 (h : Head) (dst : Reg) (src : RM) : Statement (.lea16 h dst src) := of_target rfl
theorem lea32 (h : Head) (dst : Reg) (src : RM) : Statement (.lea32 h dst src) := of_target rfl
theorem leave (h : Head) : Statement (.leave h) := of_target rfl
theorem lgdt (h : Head) (src : RM) : Statement (.lgdt h src) := of_target rfl
theorem lidt (h : Head) (src : RM) : Statement (.lidt h src) := of_target rfl
theorem lldt (h : Head) (src : RM) : Statement (.lldt h src) := of_target rfl
theorem lmsw (h : Head) (src : RM) : Statement (.lmsw h src) := of_target rfl
theorem lock (h : Head) (target : LockTarget) : Statement (.lock h target) := by
  cases target with
  | inScope r => exact of_target rfl
  | outOfScope o => exact ⟨len_eq _, opcode_pos o⟩

theorem lods8 (h : Head) : Statement (.lods8 h) := of_target rfl
theorem lodsb (h : Head) : Statement (.lodsb h) := of_target rfl
theorem lods16 (h : Head) : Statement (.lods16 h) := of_target rfl
theorem lodsw (h : Head) : Statement (.lodsw h) := of_target rfl
theorem lods32 (h : Head) : Statement (.lods32 h) := of_target rfl
theorem lodsd (h : Head) : Statement (.lodsd h) := of_target rfl
theorem loop (h : Head) (rel : Byte) : Statement (.loop h rel) := of_target rfl
theorem loope (h : Head) (rel : Byte) : Statement (.loope h rel) := of_target rfl
theorem loopz (h : Head) (rel : Byte) : Statement (.loopz h rel) := of_target rfl
theorem loopne (h : Head) (rel : Byte) : Statement (.loopne h rel) := of_target rfl
theorem loopnz (h : Head) (rel : Byte) : Statement (.loopnz h rel) := of_target rfl
theorem lsl16 (h : Head) (dst : Reg) (src : RM) : Statement (.lsl16 h dst src) := of_target rfl
theorem lsl32 (h : Head) (dst : Reg) (src : RM) : Statement (.lsl32 h dst src) := of_target rfl
theorem ltr (h : Head) (src : RM) : Statement (.ltr h src) := of_target rfl
theorem lds16 (h : Head) (dst : Reg) (src : RM) : Statement (.lds16 h dst src) := of_target rfl
theorem lds32 (h : Head) (dst : Reg) (src : RM) : Statement (.lds32 h dst src) := of_target rfl
theorem lss16 (h : Head) (dst : Reg) (src : RM) : Statement (.lss16 h dst src) := of_target rfl
theorem lss32 (h : Head) (dst : Reg) (src : RM) : Statement (.lss32 h dst src) := of_target rfl
theorem les16 (h : Head) (dst : Reg) (src : RM) : Statement (.les16 h dst src) := of_target rfl
theorem les32 (h : Head) (dst : Reg) (src : RM) : Statement (.les32 h dst src) := of_target rfl
theorem lfs16 (h : Head) (dst : Reg) (src : RM) : Statement (.lfs16 h dst src) := of_target rfl
theorem lfs32 (h : Head) (dst : Reg) (src : RM) : Statement (.lfs32 h dst src) := of_target rfl
theorem lgs16 (h : Head) (dst : Reg) (src : RM) : Statement (.lgs16 h dst src) := of_target rfl
theorem lgs32 (h : Head) (dst : Reg) (src : RM) : Statement (.lgs32 h dst src) := of_target rfl

end Sys2Proof.Laws.EncodedLength
end

