-- ==== Sys2Proof/Laws/Raised.lean ====
section
/-! SUPPORT. Which exceptions each operation can raise in which mode: one lemma for each operation. -/

namespace Sys2Proof.Machine

/-- What an exception other than #UD looks like in the mode of `s` (R304 to R306, R308). -/
def Raisable (s : State) (x : Exception) : Prop :=
  x ≠ .ud
    ∧ (s.mode ≠ .prot → x = .gp none ∨ ∃ c l, x = .pf c l)
    ∧ (s.mode = .prot → x ≠ .gp none)
    ∧ (∀ c, x = .np c ∨ x = .ss c ∨ x = .gp (some c) → c &&& 3 = 0)
    ∧ (∀ c l, x = .pf c l → s.mode ≠ .real ∧ s.pg = true)

theorem raisable_pf {s c l} (h : s.mode ≠ .real ∧ s.pg = true) :
    Raisable s (.pf c l) := ⟨by simp, fun _ => .inr ⟨_, _, rfl⟩, by simp, by simp, fun _ _ _ => h⟩

theorem raisable_gp {s : State} {w : Word} (h : s.mode = .prot) (hw : w &&& 3 = 0) :
    Raisable s (.gp (some w)) := ⟨by simp, fun hh => absurd h hh, by simp, by simp; exact hw, by simp⟩

theorem raisable_ss {s : State} {w : Word} (h : s.mode = .prot) (hw : w &&& 3 = 0) :
    Raisable s (.ss w) := ⟨by simp, fun hh => absurd h hh, by simp, by simp; exact hw, by simp⟩

theorem raisable_np {s : State} {w : Word} (h : s.mode = .prot) (hw : w &&& 3 = 0) :
    Raisable s (.np w) := ⟨by simp, fun hh => absurd h hh, by simp, by simp; exact hw, by simp⟩

theorem raisable_interrupt13 {s : State} (h : s.mode ≠ .prot) :
    Raisable s (.gp none) := ⟨by simp, fun _ => .inl rfl, fun hh => absurd hh h, by simp, by simp⟩

theorem selCode_low (w : Word) : selCode w &&& 3 = 0 := by
  unfold selCode
  rw [BitVec.and_assoc]
  exact BitVec.and_zero

theorem translate_raises {a acc lvl s x} (h : translate a acc lvl s = .error (.raised x)) : Raisable s x := by
  obtain ⟨h1, h2, c, h3⟩ := translate_error h
  cases h3; exact raisable_pf ⟨h1, h2⟩

theorem translateRange_raises {acc lvl s x} :
    ∀ {n a}, translateRange acc lvl s n a = .error (.raised x) → Raisable s x := by
  intro n; induction n with
  | zero => intro a h; simp [translateRange] at h
  | succ n ih =>
    intro a h
    simp only [translateRange, bind_eq_error] at h
    rcases h with h | ⟨_, _, h | ⟨_, _, h⟩⟩
    · exact translate_raises h
    · exact ih h
    · cases h

theorem readCells_raises {m x} : ∀ {ps}, readCells m ps ≠ .error (.raised x) := by
  intro ps; induction ps with
  | nil => intro h; cases h
  | cons p ps ih =>
    intro h; simp only [readCells, bind_eq_error] at h
    rcases h with h | ⟨_, _, h | ⟨_, _, h⟩⟩
    · exact readCell_not_raised h
    · exact ih h
    · cases h

theorem memRead_raises {a n lvl s x} (h : memRead a n lvl s = .error (.raised x)) : Raisable s x := by
  simp only [memRead, bind_eq_error] at h
  rcases h with h | ⟨_, _, h | ⟨_, _, h⟩⟩
  · exact translateRange_raises h
  · exact absurd h readCells_raises
  · cases h

theorem writeCells_raises {x} : ∀ {ps m v}, writeCells m ps v ≠ .error (.raised x) := by
  intro ps; induction ps with
  | nil => intro m v h; cases h
  | cons p ps ih =>
    intro m v h; unfold writeCells at h; split at h
    · exact ih h
    · cases h

theorem memWrite_raises {a n v lvl s x} (h : memWrite a n v lvl s = .error (.raised x)) : Raisable s x := by
  simp only [memWrite, bind_eq_error] at h
  rcases h with h | ⟨_, _, h | ⟨_, _, h⟩⟩
  · exact translateRange_raises h
  · exact absurd h writeCells_raises
  · cases h

theorem segFault_raisable {s n} (h : s.mode = .prot) : Raisable s (segFault n) := by
  cases n <;> first | exact raisable_ss h (by decide) | exact raisable_gp h (by decide)

theorem segCheck_raises {n off len acc s x} (h : segCheck n off len acc s = .error (.raised x)) :
    Raisable s x := by
  by_cases hm : s.mode = .prot
  · simp only [segCheck, hm, bind_eq_error] at h
    rcases h with h | ⟨_, _, h | ⟨_, _, h⟩⟩ <;> have := (require_eq_error h).2 <;> cases this
    · exact raisable_gp hm (by decide)
    · exact segFault_raisable hm
    · exact segFault_raisable hm
  · rw [segCheck_real hm] at h
    have := (require_eq_error h).2; cases this; exact raisable_interrupt13 hm

theorem segRead_raises {n off len s x} (h : segRead n off len s = .error (.raised x)) : Raisable s x := by
  simp only [segRead, bind_eq_error] at h
  rcases h with h | ⟨_, _, h⟩
  · exact segCheck_raises h
  · exact memRead_raises h

theorem readRm16_raises {h rm s x} (h : readRm16 h rm s = .error (.raised x)) : Raisable s x := by
  cases rm with
  | reg r => cases h
  | mem m =>
    simp only [readRm16, bind_eq_error, readMem] at h
    rcases h with h | ⟨_, _, h⟩
    · exact segRead_raises h
    · cases h

theorem readSelector_raises {z h rm s x} (h : readSelector z h rm s = .error (.raised x)) : Raisable s x := by
  cases rm with
  | reg r => cases h
  | mem m =>
    cases z <;> simp only [readSelector, bind_eq_error, readMem] at h <;> rcases h with h | ⟨_, _, h⟩
    · exact segRead_raises h
    · cases h
    · unfold readBand at h; split at h
      · cases h
      · exact segRead_raises h
    · cases h

theorem descFetch_raises {sel s x} (h : descFetch sel s = .error (.raised x)) : Raisable s x := by
  unfold descFetch at h; split at h
  · simp only [bind_eq_error] at h; rcases h with h | ⟨_, _, h⟩
    · exact memRead_raises h
    · cases h
  · cases h

theorem descFetchOrGp_raises {sel s x} (hm : s.mode = .prot) (h : descFetchOrGp sel s = .error (.raised x)) :
    Raisable s x := by
  unfold descFetchOrGp at h
  simp only [bind_eq_error] at h
  rcases h with h | ⟨o, _, h⟩
  · exact descFetch_raises h
  · cases o <;> cases h; exact raisable_gp hm (selCode_low _)

theorem requireCpl0_raises {s x} (h : requireCpl0 s = .error (.raised x)) :
    Raisable s x ∧ s.mode = .prot := by
  obtain ⟨h1, h2⟩ := require_eq_error h
  cases h2; simp only [decide_eq_false_iff_not] at h1
  have : s.mode = .prot := by by_contra hh; exact h1 (fun q => absurd q hh)
  exact ⟨raisable_gp this (by decide), this⟩

theorem requireProtected_cases {s} :
    (s.mode = .prot ∧ requireProtected s = .ok ()) ∨ (s.mode ≠ .prot ∧ requireProtected s = .error (.raised .ud)) := by
  by_cases hm : s.mode = .prot
  · left; simp [requireProtected, hm]
  · right; simp [requireProtected, hm, require, raise]

theorem refuseIf_not_raised {c r x} (h : refuseIf c r = .error (.raised x)) : False := by cases c <;> cases h

theorem examine_raises {tv sel s x} (h : examine tv sel s = .error (.raised x)) : Raisable s x := by
  unfold examine at h; split at h
  · cases h
  · simp only [bind_eq_error] at h; rcases h with h | ⟨o, _, h⟩
    · exact descFetch_raises h
    · cases o <;> cases h

theorem larOp_raises {z h dst src len s x} (h : larOp z h dst src len s = .error (.raised x)) :
    (s.mode ≠ .prot ∧ x = .ud) ∨ (s.mode = .prot ∧ Raisable s x) := by
  rcases @requireProtected_cases s with ⟨hm, hr⟩ | ⟨hm, hr⟩
  · right; refine ⟨hm, ?_⟩
    simp only [larOp, hr, ok_bind, bind_eq_error] at h
    rcases h with h | ⟨_, _, h | ⟨o, _, h⟩⟩
    · exact readSelector_raises h
    · exact examine_raises h
    · cases o <;> cases h
  · left; simp only [larOp, hr, error_bind] at h; cases h; exact ⟨hm, rfl⟩

theorem lslOp_raises {z h dst src len s x} (h : lslOp z h dst src len s = .error (.raised x)) :
    (s.mode ≠ .prot ∧ x = .ud) ∨ (s.mode = .prot ∧ Raisable s x) := by
  rcases @requireProtected_cases s with ⟨hm, hr⟩ | ⟨hm, hr⟩
  · right; refine ⟨hm, ?_⟩
    simp only [lslOp, hr, ok_bind, bind_eq_error] at h
    rcases h with h | ⟨_, _, h | ⟨o, _, h⟩⟩
    · exact readSelector_raises h
    · exact examine_raises h
    · cases o <;> cases h
  · left; simp only [lslOp, hr, error_bind] at h; cases h; exact ⟨hm, rfl⟩

theorem popRead_raises {off n s x} (h : popRead off n s = .error (.raised x)) : Raisable s x := by
  unfold popRead at h; split at h
  · rename_i hh; cases h; exact raisable_ss hh.1 (by decide)
  · exact segRead_raises h

theorem leaveOp_raises {h len s x} (h : leaveOp h len s = .error (.raised x)) : Raisable s x := by
  simp only [leaveOp, bind_eq_error] at h
  rcases h with h | ⟨_, _, h⟩
  · exact popRead_raises h
  · cases h

theorem tableOperand_raises {h src s x} (h : tableOperand h src s = .error (.raised x)) :
    (∃ r, src = .reg r) ∧ x = .ud ∨ (∃ m, src = .mem m) ∧ Raisable s x := by
  cases src with
  | reg r => left; cases h; exact ⟨⟨r, rfl⟩, rfl⟩
  | mem m =>
    right; refine ⟨⟨m, rfl⟩, ?_⟩
    simp only [tableOperand, bind_eq_error] at h
    rcases h with h | ⟨_, _, h | ⟨_, _, h | ⟨_, _, h⟩⟩⟩
    · exact (requireCpl0_raises h).1
    · exact (refuseIf_not_raised h).elim
    · exact segRead_raises h
    · cases h

theorem require_raises {s c} {y x : Exception} (h : require c y = .error (.raised x)) (hy : Raisable s y) :
    Raisable s x := by
  cases (require_eq_error h).2; exact hy

theorem lldtOp_raises {h src len s x} (h : lldtOp h src len s = .error (.raised x)) :
    (s.mode ≠ .prot ∧ x = .ud) ∨ (s.mode = .prot ∧ Raisable s x) := by
  rcases @requireProtected_cases s with ⟨hm, hr⟩ | ⟨hm, hr⟩
  · right; refine ⟨hm, ?_⟩
    simp only [lldtOp, hr, ok_bind, bind_eq_error] at h
    rcases h with h | ⟨_, _, h | ⟨sel, _, h⟩⟩
    · exact (requireCpl0_raises h).1
    · exact readRm16_raises h
    · split at h
      · cases h
      · simp only [bind_eq_error] at h
        rcases h with h | ⟨_, _, h | ⟨_, _, h | ⟨_, _, h | ⟨_, _, h⟩⟩⟩⟩
        · exact require_raises h (raisable_gp hm (selCode_low _))
        · exact descFetchOrGp_raises hm h
        · exact require_raises h (raisable_gp hm (selCode_low _))
        · exact require_raises h (raisable_np hm (selCode_low _))
        · cases h
  · left; simp only [lldtOp, hr, error_bind] at h; cases h; exact ⟨hm, rfl⟩

theorem ltrOp_raises {h src len s x} (h : ltrOp h src len s = .error (.raised x)) :
    (s.mode ≠ .prot ∧ x = .ud) ∨ (s.mode = .prot ∧ Raisable s x) := by
  rcases @requireProtected_cases s with ⟨hm, hr⟩ | ⟨hm, hr⟩
  · right; refine ⟨hm, ?_⟩
    simp only [ltrOp, hr, ok_bind, bind_eq_error] at h
    rcases h with h | ⟨_, _, h | ⟨sel, _, h | ⟨_, _, h | ⟨_, _, h | ⟨_, _, h | ⟨_, _, h | ⟨_, _, h⟩⟩⟩⟩⟩⟩⟩
    · exact (requireCpl0_raises h).1
    · exact readRm16_raises h
    · exact require_raises h (raisable_gp hm (selCode_low _))
    · exact descFetchOrGp_raises hm h
    · exact require_raises h (raisable_gp hm (selCode_low _))
    · exact require_raises h (raisable_np hm (selCode_low _))
    · exact memWrite_raises h
    · cases h
  · left; simp only [ltrOp, hr, error_bind] at h; cases h; exact ⟨hm, rfl⟩

theorem lmswOp_raises {h src len s x} (h : lmswOp h src len s = .error (.raised x)) : Raisable s x := by
  simp only [lmswOp, bind_eq_error] at h
  rcases h with h | ⟨_, _, h | ⟨_, _, h | ⟨_, _, h⟩⟩⟩
  · exact (requireCpl0_raises h).1
  · exact (refuseIf_not_raised h).elim
  · exact readRm16_raises h
  · cases h

/-- The accessed-bit store raises nothing: its page fault is refused (R201, D20). -/
theorem markAccessed_not_raised {d s x} : markAccessed d s ≠ .error (.raised x) := by
  intro h; unfold markAccessed at h; split at h
  · cases h
  · simp only at h; split at h
    · rcases (bind_eq_error _ _ _).mp h with h | ⟨_, _, h⟩
      · exact readCell_not_raised h
      · cases h
    · cases h
    · cases h

theorem loadSeg_raises {n sel s x} (h : loadSeg n sel s = .error (.raised x)) : Raisable s x := by
  by_cases hm : s.mode = .prot
  · simp only [loadSeg, hm, loadSegProtected] at h
    split at h
    · split at h
      · cases h; exact raisable_gp hm (by decide)
      · cases h
    · by_cases hn : n = .ss
      · simp only [hn, if_true, bind_eq_error, stackSegChecks] at h
        rcases h with h | ⟨d, _, (h | ⟨_, _, h | ⟨_, _, h | ⟨_, _, h⟩⟩⟩) | ⟨_, _, h | ⟨_, _, h⟩⟩⟩
        · exact descFetchOrGp_raises hm h
        · exact require_raises h (raisable_gp hm (selCode_low _))
        · exact require_raises h (raisable_gp hm (selCode_low _))
        · exact require_raises h (raisable_gp hm (selCode_low _))
        · exact require_raises h (raisable_ss hm (selCode_low _))
        · exact absurd h markAccessed_not_raised
        · cases h
      · simp only [hn, if_false, bind_eq_error, dataSegChecks] at h
        rcases h with h | ⟨d, _, (h | ⟨_, _, h | ⟨_, _, h⟩⟩) | ⟨_, _, h | ⟨_, _, h⟩⟩⟩
        · exact descFetchOrGp_raises hm h
        · exact require_raises h (raisable_gp hm (selCode_low _))
        · exact require_raises h (raisable_gp hm (selCode_low _))
        · exact require_raises h (raisable_np hm (selCode_low _))
        · exact absurd h markAccessed_not_raised
        · cases h
  · exfalso; unfold loadSeg at h; cases hh : s.mode <;> simp [hh] at h hm

theorem farOp_raises {n z h dst src len s x} (h : farOp n z h dst src len s = .error (.raised x)) :
    (∃ r, src = .reg r) ∧ x = .ud ∨ (∃ m, src = .mem m) ∧ Raisable s x := by
  cases src with
  | reg r => left; cases h; exact ⟨⟨r, rfl⟩, rfl⟩
  | mem m =>
    right; refine ⟨⟨m, rfl⟩, ?_⟩
    simp only [farOp, bind_eq_error] at h
    rcases h with h | ⟨_, _, h | ⟨_, _, h⟩⟩
    · exact segRead_raises h
    · exact loadSeg_raises h
    · cases h

theorem lodsOp_raises {w h len s x} (h : lodsOp w h len s = .error (.raised x)) : Raisable s x := by
  simp only [lodsOp, bind_eq_error] at h
  rcases h with h | ⟨_, _, h⟩
  · exact segRead_raises h
  · cases h

theorem loopOp_raises {c h rel len s x} (h : loopOp c h rel len s = .error (.raised x)) : Raisable s x := by
  simp only [loopOp] at h
  split at h
  · simp only [bind_eq_error] at h
    rcases h with h | ⟨_, _, h⟩
    · unfold targetCheck at h
      cases hm : s.mode <;> simp only [hm] at h
      · exact (refuseIf_not_raised h).elim
      · exact require_raises h (raisable_gp hm (by decide))
      · exact (refuseIf_not_raised h).elim
    · cases h
  · cases h

end Sys2Proof.Machine
end

