-- ==== Sys2Proof/Tests/Slice0.lean ====
section
/-! SUPPORT. Tests: ill-formed terms refused, words decoded, one step each with results from the worked values of the
spec (95_test_vectors.md, named V), and for each statement with hypotheses a state that meets them. -/

namespace Sys2Proof.Tests

open Sys2Proof Sys2Proof.Machine

/-! ### Helpers -/

/-- The 16-bit and the 32-bit default without prefixes. -/
abbrev h16 : Head := ⟨.s16, []⟩
abbrev h32 : Head := ⟨.s32, []⟩

/-- Bytes from an address upward, as memory cells. -/
def cellsAt : Nat → List Byte → List Host.Cell
  | _, [] => []
  | a, b :: bs => (a, b) :: cellsAt (a + 1) bs

/-- A flat writable data segment and a flat code segment, both with their size bit set. -/
def flatData : SegReg := ⟨0x0010, 0, 0xFFFFFFFF, 0x00C09300, true⟩
def flatCode : SegReg := ⟨0x0008, 0, 0xFFFFFFFF, 0x00C09B00, true⟩

/-- Real Address Mode, all bases 0, at 0100H. -/
def real (m : List Host.Cell) : State :=
  { State.reset with
    segs := ⟨resetDataSeg, { resetCodeSeg with sel := 0, base := 0 }, resetDataSeg, resetDataSeg, resetDataSeg, resetDataSeg⟩
    eip := 0x100, mem := m }

/-- Protected Mode at CPL 0, flat, at 1000H, the GDT at 2000H with the doublewords `lo` and `hi` as its entry 1. -/
def prot (lo hi : Dword) (m : List Host.Cell) : State :=
  { State.reset with
    cr0 := 1, segs := ⟨flatData, flatCode, flatData, flatData, flatData, flatData⟩, eip := 0x1000
    gdtr := ⟨0x2000, 0x000F⟩, mem := cellsAt 0x1000 [0x90] ++ cellsAt 0x2008 (bytes32 lo ++ bytes32 hi) ++ m }

/-- Virtual 8086 Mode. -/
def v86 (m : List Host.Cell) : State := { real m with cr0 := 1, eflags := 0x00020002, cpl := 3 }

/-- A field of the next state. -/
def after {α : Type} (o : Outcome) (f : State → α) : Option α :=
  match o with
  | .next t => some (f t)
  | _ => none

/-- The exception an outcome is, if any. -/
def raised (o : Outcome) : Option Exception :=
  match o with
  | .fault (.exception x _) => some x
  | _ => none

/-- The refusal an outcome is, if any. -/
def refused (o : Outcome) : Option Refusal :=
  match o with
  | .refused r => some r
  | _ => none

def completes (o : Outcome) : Bool :=
  match o with
  | .next _ => true
  | _ => false

theorem next_of_completes {o : Outcome} (h : completes o = true) : ∃ t, o = .next t := by
  cases o with
  | next t => exact ⟨t, rfl⟩
  | fault f => cases h
  | refused r => cases h

/-! ### Ill-formed terms -/

theorem test_wf_bp_without_displacement :
    (Instr.lea16 h16 .eax (.mem (.base16 .bp .absent))).wf = false := by decide
theorem test_wf_ebp_without_displacement :
    (Instr.lea32 h32 .eax (.mem (.base32 .ebp .absent))).wf = false := by decide
theorem test_wf_esp_without_sib : (Instr.lea32 h32 .eax (.mem (.base32 .esp (.d8 0)))).wf = false := by decide
theorem test_wf_esp_as_index :
    (Instr.lea32 h32 .eax (.mem (.sib 0 (some .esp) .eax .absent))).wf = false
      ∧ (Instr.lea32 h32 .eax (.mem (.sibAbs 0 (some .esp) 0))).wf = false := by decide
theorem test_wf_ebp_base_in_sib : (Instr.lea32 h32 .eax (.mem (.sib 0 none .ebp .absent))).wf = false := by decide
theorem test_wf_operand_of_the_other_address_size :
    (Instr.lea16 h16 .eax (.mem (.abs32 0))).wf = false ∧ (Instr.lea32 h32 .eax (.mem (.abs16 0))).wf = false := by decide
theorem test_wf_row_of_the_other_operand_size :
    (Instr.lods32 h16).wf = false ∧ (Instr.lods16 h32).wf = false
      ∧ (Instr.lar16 ⟨.s16, [.opSize]⟩ .eax (.reg .ebx)).wf = false := by decide
theorem test_wf_rep_prefix : (Instr.lods8 ⟨.s16, [.rep]⟩).wf = false ∧ (Instr.lods8 ⟨.s16, [.repne]⟩).wf = false := by decide
theorem test_wf_lock_prefix :
    (Instr.lahf ⟨.s16, [.lock]⟩).wf = false ∧ (Instr.lock h16 (.inScope (.alone .lahf))).wf = false := by decide
theorem test_wf_lock_of_a_listed_opcode :
    (Instr.lock ⟨.s16, [.lock]⟩ (.outOfScope (.one 0x9F))).wf = false
      ∧ (Instr.lock ⟨.s16, [.lock]⟩ (.outOfScope (.one 0x66))).wf = false
      ∧ (Instr.lock ⟨.s16, [.lock]⟩ (.outOfScope (.two 0x02))).wf = false
      ∧ (Instr.lock ⟨.s16, [.lock]⟩ (.outOfScope (.grp00 0xD0))).wf = false
      ∧ (Instr.lock ⟨.s16, [.lock]⟩ (.outOfScope (.grp01 0xF0))).wf = false := by decide
theorem test_wf_sixteen_bytes :
    (Instr.lahf ⟨.s16, List.replicate 15 .opSize⟩).wf = false
      ∧ (Instr.lahf ⟨.s16, List.replicate 14 .opSize⟩).wf = true := by decide

/-! ### Words written out from the opcode tables (R117, R118, R120) and the ModRM tables (R110 to R112) -/

theorem test_decode_lahf_leave :
    decode .s16 [0x9F] = .instr (.lahf h16) ∧ decode .s32 [0xC9] = .instr (.leave h32) := by decide
theorem test_decode_lar_lsl :
    decode .s16 [0x0F, 0x02, 0xC3] = .instr (.lar16 h16 .eax (.reg .ebx))
      ∧ decode .s32 [0x0F, 0x02, 0x45, 0x00] = .instr (.lar32 h32 .eax (.mem (.base32 .ebp (.d8 0))))
      ∧ decode .s32 [0x66, 0x0F, 0x03, 0xCB] = .instr (.lsl16 ⟨.s32, [.opSize]⟩ .ecx (.reg .ebx))
      ∧ decode .s32 [0x0F, 0x03, 0xCB] = .instr (.lsl32 h32 .ecx (.reg .ebx)) := by decide
theorem test_decode_lea :
    decode .s16 [0x8D, 0x40, 0x05] = .instr (.lea16 h16 .eax (.mem (.base16 .bxsi (.d8 5))))
      ∧ decode .s32 [0x8D, 0x84, 0x8B, 0x00, 0x01, 0x00, 0x00]
        = .instr (.lea32 h32 .eax (.mem (.sib 2 (some .ecx) .ebx (.full 0x100))))
      ∧ decode .s32 [0x8D, 0x04, 0x25, 0x00, 0x00, 0x00, 0x80]
        = .instr (.lea32 h32 .eax (.mem (.sibAbs 0 none 0x80000000)))
      ∧ decode .s32 [0x8D, 0x64, 0x24, 0xFC] = .instr (.lea32 h32 .esp (.mem (.sib 0 none .esp (.d8 0xFC))))
      ∧ decode .s32 [0x67, 0x8D, 0x00] = .instr (.lea32 ⟨.s32, [.addrSize]⟩ .eax (.mem (.base16 .bxsi .absent))) := by
  decide
theorem test_decode_tables :
    decode .s16 [0x0F, 0x01, 0x16, 0x00, 0x7E] = .instr (.lgdt h16 (.mem (.abs16 0x7E00)))
      ∧ decode .s32 [0x0F, 0x01, 0x1D, 0x06, 0x50, 0x00, 0x00] = .instr (.lidt h32 (.mem (.abs32 0x5006)))
      ∧ decode .s32 [0x0F, 0x00, 0xD2] = .instr (.lldt h32 (.reg .edx))
      ∧ decode .s16 [0x0F, 0x01, 0xF0] = .instr (.lmsw h16 (.reg .eax))
      ∧ decode .s32 [0x0F, 0x00, 0xDF] = .instr (.ltr h32 (.reg .edi)) := by decide
theorem test_decode_pointers_16 :
    decode .s16 [0xC5, 0x36, 0x00, 0x10] = .instr (.lds16 h16 .esi (.mem (.abs16 0x1000)))
      ∧ decode .s16 [0x0F, 0xB2, 0x27] = .instr (.lss16 h16 .esp (.mem (.base16 .bx .absent)))
      ∧ decode .s16 [0xC4, 0x3F] = .instr (.les16 h16 .edi (.mem (.base16 .bx .absent)))
      ∧ decode .s16 [0x0F, 0xB4, 0x76, 0x00] = .instr (.lfs16 h16 .esi (.mem (.base16 .bp (.d8 0))))
      ∧ decode .s16 [0x0F, 0xB5, 0x37] = .instr (.lgs16 h16 .esi (.mem (.base16 .bx .absent))) := by decide
theorem test_decode_pointers_32 :
    decode .s32 [0xC5, 0x33] = .instr (.lds32 h32 .esi (.mem (.base32 .ebx .absent)))
      ∧ decode .s32 [0x0F, 0xB2, 0x23] = .instr (.lss32 h32 .esp (.mem (.base32 .ebx .absent)))
      ∧ decode .s32 [0xC4, 0x3B] = .instr (.les32 h32 .edi (.mem (.base32 .ebx .absent)))
      ∧ decode .s32 [0x0F, 0xB4, 0x35, 0x10, 0x50, 0x00, 0x00] = .instr (.lfs32 h32 .esi (.mem (.abs32 0x5010)))
      ∧ decode .s32 [0x0F, 0xB5, 0x33] = .instr (.lgs32 h32 .esi (.mem (.base32 .ebx .absent))) := by decide
theorem test_decode_lods :
    decode .s16 [0xAC] = .instr (.lods8 h16) ∧ decode .s16 [0xAD] = .instr (.lods16 h16)
      ∧ decode .s32 [0xAD] = .instr (.lods32 h32) ∧ decode .s32 [0x66, 0xAD] = .instr (.lods16 ⟨.s32, [.opSize]⟩) := by
  decide
theorem test_decode_loop :
    decode .s16 [0xE2, 0xFD] = .instr (.loop h16 0xFD) ∧ decode .s16 [0xE1, 0x10] = .instr (.loope h16 0x10)
      ∧ decode .s16 [0xE0, 0xF5] = .instr (.loopne h16 0xF5) := by decide
theorem test_encode_second_spellings :
    encode (.lodsb h16) = [0xAC] ∧ encode (.lodsw h16) = [0xAD] ∧ encode (.lodsd h32) = [0xAD]
      ∧ encode (.loopz h16 0x10) = [0xE1, 0x10] ∧ encode (.loopnz h16 0xF5) = [0xE0, 0xF5] := by decide
theorem test_decode_lock :
    decode .s16 [0x66, 0xF0, 0x9F] = .instr (.lock ⟨.s16, [.opSize, .lock]⟩ (.inScope (.alone .lahf)))
      ∧ decode .s16 [0xF0, 0x90] = .instr (.lock ⟨.s16, [.lock]⟩ (.outOfScope (.one 0x90))) := by decide
theorem test_decode_rejected :
    decode .s16 [0xF3, 0xAC] = .rejected .repBefore
      ∧ decode .s16 [0x0F, 0x00, 0xC0] = .rejected (.outOfScope (.grp00 0xC0))
      ∧ decode .s16 [0x0F, 0x01, 0xE0] = .rejected (.outOfScope (.grp01 0xE0))
      ∧ decode .s16 [0x0F, 0xB6] = .rejected (.outOfScope (.two 0xB6))
      ∧ decode .s16 (List.replicate 16 0x66 ++ [0x9F]) = .rejected .tooLong
      ∧ decode .s16 [0x8D] = .more := by decide
theorem test_decode_table_words :
    decodeTableWord 8 0x9F = some (.lahf h16)
      ∧ decodeTableWord 24 0xD8000F = some (.ltr h16 (.reg .eax))
      ∧ decodeTableWord 16 0x068D = some (.lea16 h16 .eax (.mem (.abs16 0))) := by decide

/-! ### One step, results from the spec's vectors -/

/-- V4: EAX & FFFFD5FF = 12344478. -/
theorem test_lahf (u : BitVec 3) : flagsByte 0x46 u &&& 0xD5 = 0x44 := by revert u; decide
/-- V4: bits 31:16 and 7:0 of EAX and the flags are kept. -/
theorem test_lahf_keeps :
    ∃ u, after (exec (.lahf h16) (((real []).setR32 .eax 0x12345678).withFlags 0x46)) (fun t => (t.r32 .eax, t.eflags, t.eip))
      = some (((0x1234 : BitVec 16) ++ flagsByte 0x46 u ++ (0x78 : BitVec 8) : Dword), 0x46, 0x101) := ⟨_, rfl⟩
/-- V10: 00FxFF00 of entry 2. -/
theorem test_lar_value (u : BitVec 4) : larValue 0x00CF9200 u &&& 0xFFF0FFFF = 0x00C09200 := by revert u; decide
/-- V10: the whole instruction; the high half of EBX is ignored (V13). -/
theorem test_lar32 :
    ∃ u, after (exec (.lar32 h32 .eax (.reg .ebx)) ((prot 0xFFFF 0x00CF9200 []).setR32 .ebx 0xFFFF0008))
      (fun t => (t.r32 .eax, t.zf)) = some (larValue 0x00CF9200 u, true) := ⟨_, rfl⟩
/-- V14, V32: a null selector clears ZF. -/
theorem test_lar_null :
    after (step ((prot 0xFFFF 0x00CF9200 (cellsAt 0x3000 [0x0F, 0x02, 0xC3])).withFlags 0x42 |>.withEip 0x3000))
      (fun t => (t.r32 .eax, t.eflags, t.eip)) = some (0, 0x02, 0x3003) := by decide
/-- V42, V43: G = 0, raw limit 12345. -/
theorem test_lsl32_value :
    after (exec (.lsl32 h32 .ecx (.reg .ebx)) ((prot 0x2345 0x0041F200 []).setR32 .ebx 8))
      (fun t => (t.r32 .ecx, t.zf)) = some (0x12345, true) := by decide
theorem test_lsl16_value :
    after (exec (.lsl16 h32 .ecx (.reg .ebx)) (((prot 0x2345 0x0041F200 []).setR32 .ebx 8).setR32 .ecx 0xAAAA0000))
      (fun t => (t.r32 .ecx, t.zf)) = some (0xAAAA2345, true) := by decide
/-- V54: a page-granular limit. -/
theorem test_lsl32_pages :
    after (exec (.lsl32 h32 .ecx (.reg .ebx)) ((prot 0x0010 0x00C19200 []).setR32 .ebx 8)) (·.r32 .ecx)
      = some 0x10010FFF := by decide
/-- V62 and V70: 32-bit addresses into 16-bit registers. -/
theorem test_lea16 :
    after (exec (.lea16 ⟨.s32, [.opSize]⟩ .eax (.mem (.base32 .eax (.d8 5)))) ((real []).setR32 .eax 0x1234FFFE)) (·.r32 .eax)
      = some 0x12340003 := by decide
/-- V60 and V68. -/
theorem test_lea32 :
    after (exec (.lea32 h32 .eax (.mem (.sib 2 (some .ecx) .ebx (.d8 8)))) (((real []).setR32 .ebx 0x1000).setR32 .ecx 3))
      (·.r32 .eax) = some 0x1014 := by decide
theorem test_lea32_of_16_bit_address :
    after (exec (.lea32 ⟨.s16, [.opSize]⟩ .eax (.mem (.base16 .bxsi (.d8 5))))
      ((((real []).setR32 .ebx 0xFFFE).setR32 .esi 3).setR32 .eax 0xAAAAAAAA)) (·.r32 .eax) = some 6 := by decide
/-- V81. -/
theorem test_leave :
    after (exec (.leave ⟨.s16, [.opSize]⟩)
      (((real (cellsAt 0x100 [0x44, 0x33, 0x22, 0x11])).setR32 .ebp 0xAAAA0100).setR32 .esp 0xBBBB00F0))
      (fun t => (t.r32 .esp, t.r32 .ebp)) = some (0xBBBB0104, 0x11223344) := by decide
/-- V85; and #SS(0) through an SS that is not valid (R173, R309). -/
theorem test_leave_stack_faults :
    raised (exec (.leave h16) ((real []).setR32 .ebp 0xFFFF)) = some (.gp none)
      ∧ raised (exec (.leave h32) { prot 0 0 [] with segs := (prot 0 0 []).segs.set .ss { flatData with valid := false } })
        = some (.ss 0) := by decide
/-- The program P4: the 24-bit base, and with `66` the 32-bit base. -/
theorem test_lgdt :
    after (exec (.lgdt h16 (.mem (.abs16 0x7D00))) (real (cellsAt 0x7D00 [0x5F, 0x00, 0x00, 0x20, 0x00, 0xFF]))) (·.gdtr)
      = some ⟨0x00002000, 0x005F⟩ := by decide
theorem test_lgdt_opsize_32 :
    after (exec (.lgdt ⟨.s16, [.opSize]⟩ (.mem (.abs16 0x7D00))) (real (cellsAt 0x7D00 [0x5F, 0, 0, 0x20, 0, 0xFF]))) (·.gdtr)
      = some ⟨0xFF002000, 0x005F⟩ := by decide
theorem test_lidt :
    after (exec (.lidt h16 (.mem (.abs16 0x7D06))) (real (cellsAt 0x7D06 [0xFF, 0x07, 0x00, 0x30, 0x00, 0xAA])))
      (fun t => (t.idtr, t.gdtr)) = some (⟨0x00003000, 0x07FF⟩, ⟨0, 0⟩) := by decide
/-- The program P3, steps 5 and 6. -/
theorem test_lldt :
    after (exec (.lldt h32 (.reg .edx)) ((prot 0x4000000F 0x00008200 []).setR32 .edx 8)) (·.ldtr)
      = some ⟨8, 0x4000, 0x0F, true⟩ := by decide
theorem test_lldt_not_an_ldt :
    raised (exec (.lldt h32 (.reg .edx)) ((prot 0xFFFF 0x00CF9200 []).setR32 .edx 0xB)) = some (.gp (some 8)) := by decide
/-- V240: the busy bit in memory and in TR. -/
theorem test_ltr :
    after (exec (.ltr h32 (.reg .edi)) ((prot 0x30000067 0x00008900 []).setR32 .edi 8))
      (fun t => (t.tr, memGet t.mem 0x200D, t.stored)) = some (⟨8, 0x3000, 0x67, 0x00008B00⟩, some 0x8B, [0x200D]) := by decide
/-- V241, V247. -/
theorem test_ltr_busy_or_absent :
    raised (exec (.ltr h32 (.reg .edi)) ((prot 0x30000067 0x00008B00 []).setR32 .edi 8)) = some (.gp (some 8))
      ∧ raised (exec (.ltr h32 (.reg .edi)) ((prot 0x30000067 0x00000900 []).setR32 .edi 8)) = some (.np 8) := by decide
/-- P4, steps 3 and 4; PE is not cleared again (R217). -/
theorem test_lmsw :
    after (step ((real (cellsAt 0x100 [0x0F, 0x01, 0xF0])).setR32 .eax 1)) (fun t => (t.cr0, t.mode, t.jumpPending))
        = some (1, .prot, true)
      ∧ refused (step { real [] with jumpPending := true, cr0 := 1 }) = some .noJumpAfterLmsw := by decide
theorem test_lmsw_keeps_pe :
    after (exec (.lmsw h32 (.reg .eax)) ((prot 0 0 []).setR32 .eax 0x000E)) (fun t => (t.cr0, t.jumpPending))
      = some (0x000F, false) := by decide
/-- Pointer loads in Real Address Mode, both sizes: limit, attributes and valid bit are kept (R195). -/
theorem test_lds16 :
    after (exec (.lds16 h16 .esi (.mem (.base16 .bx .absent)))
      ((real (cellsAt 0x104 [0x34, 0x12, 0x00, 0x20])).setR32 .ebx 0x104)) (fun t => (t.r32 .esi, t.seg .ds))
      = some (0x1234, ⟨0x2000, 0x20000, 0xFFFF, 0x9300, true⟩) := by decide
theorem test_lss32 :
    after (exec (.lss32 ⟨.s16, [.opSize]⟩ .esp (.mem (.base16 .bx .absent)))
      ((real (cellsAt 0x200 [0x78, 0x56, 0x34, 0x12, 0x00, 0x30])).setR32 .ebx 0x200))
      (fun t => (t.r32 .esp, (t.seg .ss).sel, (t.seg .ss).base)) = some (0x12345678, 0x3000, 0x30000) := by decide
/-- P3, step 4, with an accessed descriptor; its variant (c), not present. -/
theorem test_lfs32 :
    after (exec (.lfs32 h32 .esi (.mem (.abs32 0x5010)))
      (prot 0x00000FFF 0x00409305 (cellsAt 0x5010 [0x23, 0x01, 0x00, 0x00, 0x08, 0x00]))) (fun t => (t.r32 .esi, t.seg .fs))
      = some (0x123, ⟨8, 0x50000, 0xFFF, 0x00409300, true⟩) := by decide
theorem test_lfs32_not_present :
    raised (exec (.lfs32 h32 .esi (.mem (.abs32 0x5010)))
      (prot 0xFFFF 0x00CF1200 (cellsAt 0x5010 [0x23, 0x01, 0x00, 0x00, 0x08, 0x00]))) = some (.np 8) := by decide
/-- R199: null selectors. -/
theorem test_les32_null :
    after (exec (.les32 h32 .edi (.mem (.abs32 0x5010))) (prot 0 0 (cellsAt 0x5010 [1, 0, 0, 0, 3, 0])))
      (fun t => (t.r32 .edi, (t.seg .es).sel, (t.seg .es).valid)) = some (1, 3, false) := by decide
theorem test_lss32_null :
    raised (exec (.lss32 h32 .edi (.mem (.abs32 0x5010))) (prot 0 0 (cellsAt 0x5010 [1, 0, 0, 0, 3, 0])))
      = some (.gp (some 0)) := by decide
/-- R193: a register operand. -/
theorem test_lgs32_register :
    raised (exec (.lgs32 h32 .edi (.reg .eax)) (prot 0 0 [])) = some .ud := by decide
/-- V190, V192. -/
theorem test_lock :
    raised (step (real (cellsAt 0x100 [0xF0, 0x9F]))) = some .ud
      ∧ refused (step (real (cellsAt 0x100 [0xF0, 0x90]))) = some (.lockOutOfScope (.one 0x90)) := by decide
/-- V200, V202, V203, V210. -/
theorem test_lods8 :
    after (exec (.lods8 h32) (((prot 0 0 (cellsAt 0x3000 [0x5A])).setR32 .esi 0x3000).setR32 .eax 0x11223344))
      (fun t => (t.r32 .eax, t.r32 .esi)) = some (0x1122335A, 0x3001) := by decide
theorem test_lods8_override :
    after (step { real (cellsAt 0x100 [0x26, 0xAC] ++ cellsAt 0x30004 [0x99]) with
      segs := (real []).segs.set .es { resetDataSeg with base := 0x30000 }, regs := (real []).regs.set .esi 4 })
      (fun t => (t.r8 .al, t.r16 .esi)) = some (0x99, 5) := by decide
theorem test_lods16 :
    after (exec (.lods16 ⟨.s32, [.opSize]⟩)
      (((prot 0 0 (cellsAt 0x3000 [0x78, 0x56, 0x34, 0x12])).setR32 .esi 0x3000).setR32 .eax 0xAAAAAAAA))
      (fun t => (t.r32 .eax, t.r32 .esi)) = some (0xAAAA5678, 0x3002) := by decide
theorem test_lods32_down :
    after (exec (.lods32 h32) (((prot 0 0 (cellsAt 0x3000 [0x78, 0x56, 0x34, 0x12])).setR32 .esi 0x3000).withFlags 0x402))
      (fun t => (t.r32 .eax, t.r32 .esi)) = some (0x12345678, 0x2FFC) := by decide
/-- V222, V229, V230, V232. -/
theorem test_loop_zero_count :
    after (exec (.loop h32 0xFB) ((prot 0 0 []).withEip 0x1003)) (fun t => (t.r32 .ecx, t.eip))
      = some (0xFFFFFFFF, 0x1000) := by decide
theorem test_loop_16_bit_target :
    after (exec (.loop h16 0xF0) (((real []).withEip 2).setR32 .ecx 2)) (fun t => (t.r32 .ecx, t.eip))
      = some (1, 0xFFF4) := by decide
/-- V224, V225, V226. -/
theorem test_loope :
    after (exec (.loope h32 0x10) (((prot 0 0 []).setR32 .ecx 5).withFlags 0x42)) (·.eip) = some 0x1012
      ∧ after (exec (.loope h32 0x10) ((prot 0 0 []).setR32 .ecx 5)) (·.eip) = some 0x1002 := by decide
theorem test_loopne :
    after (exec (.loopne h32 0x10) ((prot 0 0 []).setR32 .ecx 5)) (fun t => (t.r32 .ecx, t.eip)) = some (4, 0x1012) := by
  decide
/-- A word placed after reset is fetched, decoded and run. -/
theorem test_withFetchWord :
    after (step (State.reset.withFetchWord 16 0x00E2)) (fun t => (t.r16 .ecx, t.eip)) = some (0xFFFF, 0xFFF2) := by decide

/-! ### States that meet the hypotheses of the statements -/

theorem fault_of_raised {o : Outcome} {x : Exception} (h : raised o = some x) : ∃ u, o = .fault (.exception x u) := by
  cases o with
  | next t => cases h
  | fault f => cases f with | exception y u => cases h; exact ⟨u, rfl⟩
  | refused r => cases h

/-- Fifteen bytes, the longest instruction. -/
theorem test_meets_DecodeOfEncode :
    (Instr.lea32 ⟨.s16, .opSize :: .addrSize :: List.replicate 6 (.seg .gs)⟩ .eax (.mem (.sibAbs 2 none 0x12345678))).wf = true
      ∧ (Instr.lock ⟨.s32, [.lock]⟩ (.outOfScope (.two 0xB6))).wf = true ∧ (Instr.loopz h16 0x80).wf = true := by decide
theorem test_meets_EncodeOfDecode :
    decode .s32 (List.replicate 14 0x66 ++ [0x9F]) = .instr (.lahf ⟨.s32, List.replicate 14 .opSize⟩) := by decide
theorem test_meets_SizesAndPrefixes :
    (∀ p ∈ [Pfx.opSize, .lock], ∀ k, p ≠ .seg k) ∧ (prot 0 0 []).mode = .prot ∧ (prot 0 0 []).segs.cs.ar.getLsbD 22 = true
      ∧ ({ prot 0 0 [] with segs := (real []).segs } : State).mode = .prot
      ∧ ({ prot 0 0 [] with segs := (real []).segs } : State).segs.cs.ar.getLsbD 22 = false
      ∧ (real []).mode ≠ .prot ∧ (v86 []).mode ≠ .prot :=
  ⟨by simp, by decide, by decide, by decide, by decide, by decide, by decide⟩
theorem test_meets_UnlistedOpcodesAreRefused :
    (Opcode.one 0x90).wf = true ∧ (List.map Pfx.byte (List.replicate 14 .opSize) ++ (Opcode.one 0x90).bytes).length = 15
      ∧ (⟨.s16, List.replicate 14 .opSize⟩ : Head).hasLock = false
      ∧ (⟨.s16, [.rep, .lock]⟩ : Head).hasRep = true
      ∧ (⟨.s16, [.lock]⟩ : Head).hasLock = true ∧ (⟨.s16, [.lock]⟩ : Head).hasRep = false
      ∧ (Raw.alone .lodsByte).wf .s16 = true
      ∧ (List.map Pfx.byte (List.replicate 14 .rep) ++ (Raw.alone .lodsByte).bytes).length = 15 := by decide
theorem test_meets_LockBeforeThisSpecIsUndefined :
    (⟨.s16, List.replicate 13 .opSize ++ []⟩ : Head).hasRep = false
      ∧ (Raw.alone .lahf).wf (⟨.s16, List.replicate 13 .opSize ++ []⟩ : Head).addrSize = true
      ∧ (List.map Pfx.byte (List.replicate 13 .opSize ++ .lock :: []) ++ (Raw.alone .lahf).bytes).length = 15 := by decide

/-! Steps. -/

theorem test_meets_StepRunsDecodedInstruction :
    (real (cellsAt 0x100 [0xE2, 0xFD])).jumpPending = false
      ∧ (∀ (k : Nat) (hk : k < 2), fetchByte ((0x100 : Dword) + BitVec.ofNat 32 k) (real (cellsAt 0x100 [0xE2, 0xFD]))
          = .ok ([0xE2, 0xFD] : List Byte)[k])
      ∧ decode (real (cellsAt 0x100 [0xE2, 0xFD])).defaultSize [0xE2, 0xFD] = .instr (.loop h16 0xFD) := by decide
/-- The byte after 0FFFFH, the byte after the last populated one, and an opcode of no table. -/
theorem test_meets_StepStopsWithTheDecoder :
    fetchByte 0xFFFF (real (cellsAt 0xFFFF [0x8D])) = .ok 0x8D ∧ decode .s16 [0x8D] = .more
      ∧ fetchByte 0x10000 (real (cellsAt 0xFFFF [0x8D])) = .error (.raised (.gp none))
      ∧ fetchByte 0x101 (real (cellsAt 0x100 [0x8D])) = .error (.refused (.unpopulated 0x101))
      ∧ fetchByte 0x100 (real (cellsAt 0x100 [0x90])) = .ok 0x90
      ∧ decode .s16 [0x90] = .rejected (.outOfScope (.one 0x90)) := by decide
/-- A code segment with the limit 1000H, and a stored byte. -/
def limited : State :=
  { prot 0 0 [] with segs := (prot 0 0 []).segs.set .cs { flatCode with limit := 0x1000 } }
theorem test_meets_FetchChecks :
    (real []).mode ≠ .prot ∧ limited.mode = .prot ∧ isExpandDown limited.segs.cs.ar = false ∧ limited.segs.cs.valid = true
      ∧ limited.segs.cs.limit.toNat = 0x1000
      ∧ translate 0xFFFF .fetch .supervisor (real []) = .ok 0xFFFF
      ∧ translate (limited.segs.cs.base + 0x1000) .fetch .supervisor limited = .ok 0x1000
      ∧ 0x1000 ∉ limited.stored ∧ memGet limited.mem 0x1000 = some 0x90 ∧ memGet (real []).mem 0xFFFF = none
      ∧ 0x1000 ∈ ({ limited with stored := [0x1000] } : State).stored := by decide
/-- A code segment that is not valid, and expand-down ones above the limit 1000H, with the B bit and without. -/
def csOf (valid : Bool) (ar : Dword) : State :=
  { prot 0 0 [] with segs := (prot 0 0 []).segs.set .cs ⟨0x0008, 0, 0x1000, ar, valid⟩, mem := cellsAt 0x1001 [0x90] }
theorem test_meets_FetchChecks_invalid_and_expand_down :
    (csOf false 0x00C09B00).mode = .prot ∧ (csOf false 0x00C09B00).segs.cs.valid = false
      ∧ fetchByte 0x1001 (csOf false 0x00C09B00) = .error (.raised (.gp (some 0)))
      ∧ isExpandDown (csOf true 0x00009700).segs.cs.ar = true
      ∧ fetchByte 0x1000 (csOf true 0x00009700) = .error (.raised (.gp (some 0)))
      ∧ fetchByte 0x1001 (csOf true 0x00009700) = .ok 0x90
      ∧ fetchByte 0xFFFF (csOf true 0x00009700) = .error (.refused (.unpopulated 0xFFFF))
      ∧ fetchByte 0x10000 (csOf true 0x00009700) = .error (.raised (.gp (some 0)))
      ∧ fetchByte 0x10000 (csOf true 0x00C09700) = .error (.refused (.unpopulated 0x10000)) := by decide
/-- V267: fifteen of `66`, then LAHF; and fourteen, with `F0` among them, then a two-byte opcode out of scope. -/
def overlong : State := real (cellsAt 0x100 (List.replicate 15 0x66 ++ [0x9F]))
theorem test_meets_OverlongInstructionsAreRefused :
    (LockTarget.inScope (.alone .lahf)).wf (⟨.s16, List.replicate 15 .opSize⟩ : Head).addrSize = true
      ∧ ((List.replicate 15 Pfx.opSize).map Pfx.byte ++ (LockTarget.inScope (.alone .lahf)).bytes).length = 16
      ∧ (LockTarget.outOfScope (.two 0x05)).wf (⟨.s16, .lock :: List.replicate 13 .opSize⟩ : Head).addrSize = true
      ∧ ((Pfx.lock :: List.replicate 13 .opSize).map Pfx.byte ++ (LockTarget.outOfScope (.two 0x05)).bytes).length = 16
      ∧ overlong.jumpPending = false ∧ overlong.defaultSize = .s16
      ∧ (∀ k, k < 15 → fetchByte (overlong.eip + BitVec.ofNat 32 k) overlong
          = .ok (((List.replicate 15 Pfx.opSize).map Pfx.byte ++ [0x9F]).getD k 0))
      ∧ refused (step overlong) = some .tooLong := by decide
theorem test_meets_JumpOwedAfterSettingPe :
    ({ real [] with jumpPending := true } : State).jumpPending = true
      ∧ (∃ t, exec (.lmsw h16 (.reg .eax)) ((real []).setR32 .eax 1) = .next t) ∧ (∃ t, exec (.lahf h16) (real []) = .next t) :=
  ⟨by decide, next_of_completes (by decide), next_of_completes (by decide)⟩

/-! Frames: each instruction gives a next state somewhere, with and without a store. -/

/-- Real Address Mode with bytes at 0 and at 100H, all other registers 0. -/
def realData : State := real (cellsAt 0 [0, 0, 0, 0, 0, 0] ++ cellsAt 0x100 [0x9F])

theorem test_meets_frames_plain :
    (∃ t, exec (.lahf h16) realData = .next t)
      ∧ (∃ t, exec (.lea16 h16 .eax (.mem (.abs16 0))) realData = .next t)
      ∧ (∃ t, exec (.lea32 h32 .eax (.mem (.abs32 0))) realData = .next t)
      ∧ (∃ t, exec (.leave h16) realData = .next t)
      ∧ (∃ t, exec (.lgdt h16 (.mem (.abs16 0))) realData = .next t)
      ∧ (∃ t, exec (.lidt h16 (.mem (.abs16 0))) realData = .next t)
      ∧ (∃ t, exec (.lmsw h16 (.mem (.abs16 0))) realData = .next t) :=
  ⟨next_of_completes (by decide), next_of_completes (by decide), next_of_completes (by decide), next_of_completes (by decide),
    next_of_completes (by decide), next_of_completes (by decide), next_of_completes (by decide)⟩
theorem test_meets_frames_lods_loop :
    (∃ t, exec (.lods8 h16) realData = .next t) ∧ (∃ t, exec (.lodsb h16) realData = .next t)
      ∧ (∃ t, exec (.lods16 h16) realData = .next t) ∧ (∃ t, exec (.lodsw h16) realData = .next t)
      ∧ (∃ t, exec (.lods32 h32) realData = .next t) ∧ (∃ t, exec (.lodsd h32) realData = .next t)
      ∧ (∃ t, exec (.loop h16 0) realData = .next t) ∧ (∃ t, exec (.loope h16 0) realData = .next t)
      ∧ (∃ t, exec (.loopz h16 0) realData = .next t) ∧ (∃ t, exec (.loopne h16 0) realData = .next t)
      ∧ (∃ t, exec (.loopnz h16 0) realData = .next t) := by
  refine ⟨?_, ?_, ?_, ?_, ?_, ?_, ?_, ?_, ?_, ?_, ?_⟩ <;> exact next_of_completes (by decide)
theorem test_meets_frames_protected :
    (∃ t, exec (.lar16 h16 .eax (.reg .ebx)) (prot 0 0 []) = .next t)
      ∧ (∃ t, exec (.lar32 h32 .eax (.reg .ebx)) ((prot 0 0x00009200 []).setR32 .ebx 8) = .next t)
      ∧ (∃ t, exec (.lsl16 h16 .eax (.reg .ebx)) (prot 0 0 []) = .next t)
      ∧ (∃ t, exec (.lsl32 h32 .eax (.reg .ebx)) ((prot 0 0x00009200 []).setR32 .ebx 8) = .next t)
      ∧ (∃ t, exec (.lldt h32 (.reg .eax)) (prot 0 0 []) = .next t)
      ∧ (∃ t, exec (.ltr h32 (.reg .eax)) ((prot 0 0x00008900 []).setR32 .eax 8) = .next t) :=
  ⟨next_of_completes (by decide), next_of_completes (by decide), next_of_completes (by decide), next_of_completes (by decide),
    next_of_completes (by decide), next_of_completes (by decide)⟩
theorem test_meets_frames_pointers :
    (∃ t, exec (.lds16 h16 .eax (.mem (.abs16 0))) realData = .next t)
      ∧ (∃ t, exec (.lds32 h32 .eax (.mem (.abs16 0))) realData = .next t)
      ∧ (∃ t, exec (.lss16 h16 .eax (.mem (.abs16 0))) realData = .next t)
      ∧ (∃ t, exec (.lss32 h32 .eax (.mem (.abs16 0))) realData = .next t)
      ∧ (∃ t, exec (.les16 h16 .eax (.mem (.abs16 0))) realData = .next t)
      ∧ (∃ t, exec (.les32 h32 .eax (.mem (.abs16 0))) realData = .next t)
      ∧ (∃ t, exec (.lfs16 h16 .eax (.mem (.abs16 0))) realData = .next t)
      ∧ (∃ t, exec (.lfs32 h32 .eax (.mem (.abs16 0))) realData = .next t)
      ∧ (∃ t, exec (.lgs16 h16 .eax (.mem (.abs16 0))) realData = .next t)
      ∧ (∃ t, exec (.lgs32 h32 .eax (.mem (.abs16 0))) realData = .next t) := by
  refine ⟨?_, ?_, ?_, ?_, ?_, ?_, ?_, ?_, ?_, ?_⟩ <;> exact next_of_completes (by decide)

/-- A pointer to entry 1 at 5000H, the entry a data segment that is not marked accessed. -/
def pointing : State := prot 0xFFFF 0x00CF9200 (cellsAt 0x5000 [0, 0, 0, 0, 8, 0])

theorem test_meets_MemoryFrame :
    storeAddr (.ltr h32 (.reg .eax)) ((prot 0 0x00008900 []).setR32 .eax 8) = some 0x200D
      ∧ storeAddr (.lfs32 h32 .esi (.mem (.abs32 0x5000))) pointing = some 0x200D
      ∧ completes (exec (.lfs32 h32 .esi (.mem (.abs32 0x5000))) pointing) = true
      ∧ storeAddr (.lfs32 h32 .esi (.mem (.abs32 0))) realData = none ∧ storeAddr (.lods8 h16) realData = none := by decide

theorem realData_inv : realData.Inv where
  memory := by decide
  cpl := ⟨by decide, by decide, by decide⟩
  hidden := ⟨fun n => by cases n <;> exact ⟨by unfold arKept; decide, .inl (by decide)⟩, .inl (by decide),
    by unfold arKept; decide, .inl (by decide)⟩
  stored := ⟨by decide, by decide⟩
  jump := fun h => absurd h (by decide)

theorem test_meets_EveryStepKeepsTheInvariant : realData.Inv ∧ ∃ t, step realData = .next t :=
  ⟨realData_inv, next_of_completes (by decide)⟩
/-- A load in Real Address Mode that left attributes and limit as they were. -/
theorem realData_segs : realData.segsLaunch [] :=
  ⟨by simp, fun n => .inr (.inl ⟨by cases n <;> decide, fun h => absurd h (by decide)⟩)⟩

/-- Protected Mode with the flat code and data segments of `flatCode` and `flatData` as entries 1 and 2 of the GDT,
before a LAHF. -/
def launched : State :=
  { prot 0 0 [] with
    gdtr := ⟨0x2000, 0x0017⟩
    mem := cellsAt 0x1000 [0x9F] ++ cellsAt 0x2008
      (bytes32 0x0000FFFF ++ bytes32 0x00CF9B00 ++ bytes32 0x0000FFFF ++ bytes32 0x00CF9200) }

theorem launched_segs : launched.segsLaunch [] := by
  have hd : descFetch 0x0010 launched = .ok (some ⟨0x0000FFFF, 0x00CF9200, 0x2010⟩) := by decide
  have hc : descFetch 0x0008 launched = .ok (some ⟨0x0000FFFF, 0x00CF9B00, 0x2008⟩) := by decide
  refine ⟨by simp, fun n => .inr (.inr (.inr ?_))⟩
  cases n
  case cs => exact ⟨by decide, _, 0, hc, show loadableAttrs .cs _ = true by decide, by decide⟩
  case ss => exact ⟨by decide, _, 1, hd, show stackSegChecks _ _ _ = _ by decide, by decide⟩
  all_goals exact ⟨by decide, _, 1, hd, show dataSegChecks _ _ _ = _ by decide, by decide⟩

theorem launched_hidden : launched.hiddenKept :=
  ⟨fun n => by cases n <;> exact ⟨by unfold arKept; decide, .inr (by decide)⟩, .inl (by decide), by unfold arKept; decide,
    .inl (by decide)⟩

/-- A DS that no load of its selector gives is no launch state's unless the claim states it. -/
def baseless : State := { launched with segs := launched.segs.set .ds ⟨0x0008, 5, 0xFFFFFFFF, 0, true⟩ }
theorem test_launch_refuses_baseless :
    ¬baseless.segsLaunch [] ∧ baseless.segsLaunch [(.ds, ⟨0x0008, 5, 0xFFFFFFFF, 0, true⟩)] := by
  constructor
  · intro h
    rcases h.2 .ds with h | ⟨h, _⟩ | ⟨h, _⟩ | ⟨_, d, u, hf, _, hr⟩
    · cases h
    · exact absurd h (by decide)
    · exact absurd h (by decide)
    · have hc : descFetch (baseless.seg .ds).sel baseless = .ok (some ⟨0x0000FFFF, 0x00CF9B00, 0x2008⟩) := by decide
      rw [hc] at hf; cases hf
      have hb : (baseless.seg .ds).base = Desc.base ⟨0x0000FFFF, 0x00CF9B00, 0x2008⟩ := congrArg SegReg.base hr
      exact absurd hb (by decide)
  · refine ⟨by decide, fun n => ?_⟩
    cases n
    case ds => exact .inl (by decide)
    case es => exact launched_segs.2 .es |>.resolve_left (by simp) |> .inr
    case cs => exact launched_segs.2 .cs |>.resolve_left (by simp) |> .inr
    case ss => exact launched_segs.2 .ss |>.resolve_left (by simp) |> .inr
    case fs => exact launched_segs.2 .fs |>.resolve_left (by simp) |> .inr
    case gs => exact launched_segs.2 .gs |>.resolve_left (by simp) |> .inr

/-- Runs of one step from launch states of both modes. -/
theorem test_meets_LaunchRunsAreSound :
    realData.Launch [] 1 ∧ launched.Launch [] 1 ∧ realData.reaches 0 realData ∧ ∃ t, launched.reaches 1 t := by
  obtain ⟨t, ht⟩ := next_of_completes (show completes (step realData) = true by decide)
  obtain ⟨u, hu⟩ := next_of_completes (show completes (step launched) = true by decide)
  refine ⟨⟨realData_inv.memory, realData_inv.cpl, realData_segs, realData_inv.hidden, ⟨fun p hp => ?_, fun _ _ => trivial⟩,
    rfl, rfl⟩, ⟨by decide, ⟨by decide, by decide, by decide⟩, launched_segs, launched_hidden,
    ⟨fun p hp => ?_, fun _ _ => trivial⟩, rfl, rfl⟩, rfl, u, u, hu, rfl⟩
  · rw [ht] at hp; cases hp
  · rw [hu] at hp; cases hp
/-- R41 in Protected Mode: CPL is the RPL of CS, unless a jump is owed. -/
theorem test_cplAgrees_protected :
    (prot 0 0 []).cplAgrees ∧ ¬({ prot 0 0 [] with cpl := 3 } : State).cplAgrees
      ∧ ({ prot 0 0 [] with cpl := 3, segs := (prot 0 0 []).segs.set .cs { flatCode with sel := 0x000B } } : State).cplAgrees :=
  ⟨⟨by decide, by decide, by decide⟩, fun h => absurd (h.2.1 (by decide) (by decide)) (by decide),
    ⟨by decide, by decide, by decide⟩⟩
/-- Counts 2 and 1, the condition met and not met. -/
theorem test_meets_ProgramCounterAdvances :
    loopForm (.lahf h16) = none ∧ loopForm (.loopz h16 0x80) = some (.zero, h16, 0x80)
      ∧ after (exec (.loopnz h16 0xFE) ((real []).setR32 .ecx 2)) (·.eip) = some 0x100
      ∧ after (exec (.loopz h16 0xFE) ((real []).setR32 .ecx 2)) (·.eip) = some 0x102
      ∧ after (exec (.loopnz h16 0xFE) ((real []).setR32 .ecx 1)) (·.eip) = some 0x102 := by decide
theorem test_meets_ExceptionsArePrecise : ∃ u, step (real (cellsAt 0x100 [0xF0, 0x9F])) = .fault (.exception .ud u) :=
  fault_of_raised (by decide)
theorem test_meets_PageFaultNeedsPaging :
    (real []).mode = .real ∧ (v86 []).pg = false ∧ (prot 0 0 []).pg = false
      ∧ ({ prot 0 0 [] with cr0 := 0x80000001 } : State).mode ≠ .real
      ∧ ({ prot 0 0 [] with cr0 := 0x80000001 } : State).pg = true := by decide
theorem test_meets_ErrorCodesByMode :
    (∃ u, step ((real (cellsAt 0x100 [0xC9])).setR32 .ebp 0xFFFF) = .fault (.exception (.gp none) u))
      ∧ (∃ u, step { (prot 0 0x00000200 (cellsAt 0x3000 [0x0F, 0x00, 0xD0])).setR32 .eax 0x000B with eip := 0x3000 }
          = .fault (.exception (.np 8) u)) :=
  ⟨fault_of_raised (by decide), fault_of_raised (by decide)⟩
theorem test_meets_OnlyLmswEntersProtectedMode :
    (∃ t, exec (.lmsw h16 (.reg .eax)) ((real []).setR32 .eax 1) = .next t) ∧ (real []).mode = .real
      ∧ after (exec (.lmsw h16 (.reg .eax)) ((real []).setR32 .eax 1)) (·.mode) = some .prot ∧ (real []).cplAgrees
      ∧ (∃ t, exec (.lmsw h16 (.reg .eax)) (prot 0 0 []) = .next t) ∧ (prot 0 0 []).mode = .prot
      ∧ (∃ t, exec (.lahf h16) (v86 []) = .next t) ∧ (v86 []).mode = .v86 :=
  ⟨next_of_completes (by decide), by decide, by decide, ⟨by decide, by decide, by decide⟩, next_of_completes (by decide), by decide,
    next_of_completes (by decide), by decide⟩
theorem test_meets_SystemRegistersNeedPrivilege :
    (∃ t, step { prot 0 0 (cellsAt 0x3000 [0xE2, 0x00]) with cpl := 3, eip := 0x3000 } = .next t)
      ∧ (∃ t, step (v86 (cellsAt 0x100 [0xE2, 0x00])) = .next t) ∧ (v86 []).mode = .v86 :=
  ⟨next_of_completes (by decide), next_of_completes (by decide), by decide⟩

/-! Registers, memory and segments. -/

/-- BH: the bytes beside it, and the general registers beside EBX. -/
theorem test_meets_SubRegisterWrites :
    (((real []).setR32 .ebx 0x11223344).setR8 .bh 0xAB).r32 .ebx = 0x1122AB44
      ∧ (.eax : Reg) ≠ reg8Parent .bh ∧ (.bl : Reg8) ≠ .bh ∧ reg8Parent .bl = reg8Parent .bh := by decide

theorem test_meets_StoredByteReadsBack :
    Memory.wf [(0, 1), (0xFFFFFFFE, 2)] = true ∧ 0xFFFFFFFF < 2 ^ 32 ∧ (0xFFFFFFFE : Nat) ≠ 0xFFFFFFFF := by decide
/-- Eight bytes, the widest read, and a byte that is not populated. -/
theorem test_meets_MemReadIsLittleEndian :
    (∀ k, k < 8 → translate ((0x2008 : Dword) + BitVec.ofNat 32 k) .read .supervisor pointing = .ok (0x2008 + k))
      ∧ (∀ k, k < 8 → memGet pointing.mem (0x2008 + k) = some (([0xFF, 0xFF, 0, 0, 0, 0x92, 0xCF, 0] : List Byte).getD k 0))
      ∧ (memGet pointing.mem 0x200F).isSome = true ∧ memGet pointing.mem 0x2010 = none := by decide
/-- Four bytes around the end of the address space. -/
theorem test_meets_MemWriteThenRead :
    ∃ t, memWrite 0xFFFFFFFE 4 0x11223344 .supervisor (real [(0, 0), (1, 0), (0xFFFFFFFE, 0), (0xFFFFFFFF, 0)]) = .ok t :=
  ⟨_, rfl⟩
theorem test_meets_SegmentCheckOutsideProtectedMode :
    (real []).mode ≠ .prot ∧ (v86 []).mode ≠ .prot ∧ 0xFFFF < (0xFFFE : Dword).toNat + 3 - 1
      ∧ (0xFFFE : Dword).toNat + 2 - 1 ≤ 0xFFFF := by decide

/-- The data segment DS of `prot` with other attributes, limit and valid bit. -/
def withDs (limit ar : Dword) (valid : Bool) : State :=
  { prot 0 0 [] with segs := (prot 0 0 []).segs.set .ds ⟨0x10, 0, limit, ar, valid⟩ }
/-- The limit itself and one beyond, expand-up and expand-down; execute-only code; read-only data; not valid. -/
theorem test_meets_SegmentChecksInProtectedMode :
    (withDs 0xFFF 0x9300 true).mode = .prot
      ∧ limitOk ((withDs 0xFFF 0x9300 true).seg .ds) 0xFFE 2 = true ∧ limitOk ((withDs 0xFFF 0x9300 true).seg .ds) 0xFFF 2 = false
      ∧ limitOk ((withDs 0xFFF 0x9700 true).seg .ds) 0x1000 2 = true ∧ limitOk ((withDs 0xFFF 0x9700 true).seg .ds) 0xFFF 2 = false
      ∧ limitOk ((withDs 0xFFF 0x9700 true).seg .ds) 0xFFFF 2 = false
      ∧ limitOk ((withDs 0xFFF 0x409700 true).seg .ds) 0xFFFF 2 = true
      ∧ typeOk ((withDs 0xFFF 0x9900 true).seg .ds) .read = false ∧ typeOk ((withDs 0xFFF 0x9100 true).seg .ds) .write = false
      ∧ typeOk ((withDs 0xFFF 0x9300 true).seg .ds) .write = true ∧ ((withDs 0xFFF 0x9300 false).seg .ds).valid = false := by
  decide
/-- The last descriptor of a table, the one after it, a table that is not valid, a descriptor that cannot be read. -/
theorem test_meets_DescriptorFetch :
    pointing.gdtr.limit.toNat = 8 * 1 + 7 ∧ pointing.ldtr.valid = false
      ∧ memRead 0x2008 8 .supervisor pointing = .ok 0x00CF92000000FFFF
      ∧ memRead 0x2000 8 .supervisor pointing = .error (.refused (.unpopulated 0x2000)) := by decide
theorem test_meets_DescriptorFields :
    (0x00409305 : Dword).getLsbD 23 = false ∧ (0x00CF9200 : Dword).getLsbD 23 = true := by decide
theorem test_meets_EffectiveAddress16 : h16.segOverride = none ∧ (⟨.s16, [.seg .es, .seg .cs]⟩ : Head).segOverride = some .cs := by
  decide

/-- A selector at 5000H in a data segment that ends after `limit`. -/
def selectorAt (limit : Dword) : State :=
  { prot 0xFFFF 0x00CF9200 (cellsAt 0x5000 [8, 0, 0xAD, 0xDE]) with
    segs := (prot 0 0 []).segs.set .ds { flatData with limit := limit } }
/-- V27, V28, V29: four bytes, two of four, one of two. -/
theorem test_meets_SelectorSources :
    readMem h32 (.abs32 0x5000) 4 (selectorAt 0x5003) = .ok 0xDEAD0008
      ∧ readMem h32 (.abs32 0x5000) 2 (selectorAt 0x5001) = .ok 0x0008
      ∧ readMem h32 (.abs32 0x5000) 4 (selectorAt 0x5001) = .error (.raised (.gp (some 0)))
      ∧ readMem h32 (.abs32 0x5000) 2 (selectorAt 0x5000) = .error (.raised (.gp (some 0)))
      ∧ readMem h32 (.abs32 0x5000) 4 (selectorAt 0x5000) = .error (.raised (.gp (some 0))) := by decide

/-! The instructions, one clause after another. -/

theorem test_meets_LarLoadsAccessRights :
    larForm (.lar16 h16 .eax (.reg .ebx)) = some (.s16, h16, .eax, .reg .ebx) ∧ (v86 []).mode ≠ .prot
      ∧ readSelector .s32 h32 (.mem (.abs32 0x5000)) (selectorAt 0x5000) = .error (.raised (.gp (some 0)))
      ∧ readSelector .s32 h32 (.mem (.abs32 0x5000)) (selectorAt 0x5003) = .ok 8
      ∧ selNull 3 = true ∧ selNull 4 = false ∧ selNull 8 = false
      ∧ descFetch 8 pointing = .ok (some ⟨0xFFFF, 0x00CF9200, 0x2008⟩) ∧ larTypeValid 0x00CF9200 = true
      ∧ visible 8 0x00CF9200 pointing = true ∧ visible 0xB 0x00CF9200 pointing = false
      ∧ descFetch 0x10 pointing = .ok none ∧ descFetch 4 pointing = .ok none ∧ larTypeValid 0x00008800 = false := by decide
/-- The refusals of a read: the band of V28, and bytes that are not populated, of an operand and of a descriptor. -/
theorem test_meets_refused_reads :
    readSelector .s32 h32 (.mem (.abs32 0x5000)) (selectorAt 0x5001) = .error (.refused .memWidthBand)
      ∧ refused (exec (.lar32 h32 .eax (.mem (.abs32 0x5000))) (selectorAt 0x5001)) = some .memWidthBand
      ∧ refused (exec (.lsl32 h32 .eax (.mem (.abs32 0x5000))) (selectorAt 0x5001)) = some .memWidthBand
      ∧ readMem h32 (.abs32 0x7000) 6 pointing = .error (.refused (.unpopulated 0x7000))
      ∧ readRm16 h32 (.mem (.abs32 0x7000)) pointing = .error (.refused (.unpopulated 0x7000))
      ∧ segRead .ds 0x7000 2 pointing = .error (.refused (.unpopulated 0x7000))
      ∧ segCheck .ss 0x7000 4 .read pointing = .ok ()
      ∧ segRead .ss 0x7000 4 pointing = .error (.refused (.unpopulated 0x7000))
      ∧ descFetch 0x10 { pointing with gdtr := ⟨0x2000, 0x0017⟩ } = .error (.refused (.unpopulated 0x2010)) := by decide
theorem test_meets_LslLoadsTheLimit :
    lslForm (.lsl32 h32 .eax (.reg .ebx)) = some (.s32, h32, .eax, .reg .ebx)
      ∧ lslTypeValid 0x00CF9200 = true ∧ lslTypeValid 0x00008800 = false := by decide
theorem test_meets_LeaStoresTheOffset :
    leaForm (.lea32 h32 .eax (.reg .ebx)) = some (.s32, h32, .eax, .reg .ebx) := by decide
theorem test_meets_LeaveReleasesTheFrame_LeaveStackFaults :
    segRead .ss 0xFFFE 2 (real (cellsAt 0xFFFE [1, 0])) = .ok 1
      ∧ segCheck .ss 0xFFFF 4 .read
          { prot 0 0 [] with segs := (prot 0 0 []).segs.set .ss { flatData with limit := 0x10001 } } = .error (.raised (.ss 0))
      ∧ segCheck .ss 0 4 .read { prot 0 0 [] with segs := (prot 0 0 []).segs.set .ss { flatData with valid := false } }
          = .error (.raised (.gp (some 0)))
      ∧ 0xFFFF < (truncTo (real []).stackSize 0xFFFF).toNat + sizeBytes h16.opSize - 1 := by decide
theorem test_meets_LgdtLidtLoadTheTables :
    ({ prot 0 0 [] with cpl := 3 } : State).mode = .prot ∧ ({ prot 0 0 [] with cpl := 3 } : State).cpl ≠ 0
      ∧ (v86 []).mode = .v86 ∧ readMem h16 (.abs16 0) 6 realData = .ok 0
      ∧ readMem h16 (.abs16 0xFFFB) 6 (real []) = .error (.raised (.gp none)) := by decide
theorem test_meets_PointerLoadsOutsideProtectedMode :
    farForm (.lgs16 h16 .eax (.mem (.abs16 0))) = some (.gs, .s16, h16, .eax, .mem (.abs16 0))
      ∧ readMem h16 (.abs16 0) (sizeBytes .s16 + 2) realData = .ok 0
      ∧ readMem h16 (.abs16 0) (sizeBytes .s32 + 2) realData = .ok 0 ∧ realData.mode ≠ .prot := by decide
theorem test_meets_PointerLoadOperandFaults :
    readMem h16 (.abs16 0xFFFD) (sizeBytes .s16 + 2) (real []) = .error (.raised (.gp none)) := by decide
/-- A null selector, one beyond the table, a system type, a level not allowed, not present, accessed, not accessed. -/
theorem test_meets_DataPointerLoadsInProtectedMode :
    readMem h32 (.abs32 0x5000) (sizeBytes .s32 + 2) pointing = .ok 0x000800000000
      ∧ farSelector .s32 0x000800000000 = 8 ∧ selNull (farSelector .s32 0x000300000000) = true
      ∧ descFetch (farSelector .s32 0x001000000000) pointing = .ok none
      ∧ descFetch 8 pointing = .ok (some ⟨0xFFFF, 0x00CF9200, 0x2008⟩)
      ∧ (0x00008200 : Dword).getLsbD 12 = false
      ∧ ¬((0xB : Word).extractLsb' 0 2 ≤ (0x00CF9200 : Dword).extractLsb' 13 2)
      ∧ (0x00CF1200 : Dword).getLsbD 15 = false ∧ (0x00409305 : Dword).getLsbD 8 = true
      ∧ (0x00CF9200 : Dword).getLsbD 8 = false ∧ translate (0x2008 + 5) .write .supervisor pointing = .ok 0x200D
      ∧ memGet pointing.mem 0x200D = some 0x92 := by decide
theorem test_meets_StackPointerLoadInProtectedMode :
    farForm (.lss32 h32 .esp (.mem (.abs32 0x5000))) = some (.ss, .s32, h32, .esp, .mem (.abs32 0x5000))
      ∧ (8 : Word).extractLsb' 0 2 = pointing.cpl ∧ (0x00CF9200 : Dword).getLsbD 12 = true
      ∧ (0x00CF9200 : Dword).getLsbD 11 = false ∧ (0x00CF9200 : Dword).getLsbD 9 = true
      ∧ (0x00CF9200 : Dword).extractLsb' 13 2 = pointing.cpl ∧ (0xB : Word).extractLsb' 0 2 ≠ pointing.cpl := by decide
theorem test_meets_LldtLoadsTheLocalTable :
    readRm16 h32 (.reg .eax) (prot 0 0 []) = .ok 0
      ∧ readRm16 h32 (.mem (.abs32 0x5000)) (selectorAt 0x5000) = .error (.raised (.gp (some 0)))
      ∧ (3 : Word).extractLsb' 2 14 = 0 ∧ (4 : Word).extractLsb' 2 14 ≠ 0 ∧ (4 : Word).getLsbD 2 = true
      ∧ descFetch 8 (prot 0 0x00008200 []) = .ok (some ⟨0, 0x00008200, 0x2008⟩)
      ∧ (0x00008200 : Dword).extractLsb' 8 4 = 2 ∧ (0x00000200 : Dword).getLsbD 15 = false
      ∧ (0x00008900 : Dword).extractLsb' 8 4 ≠ 2 := by decide
theorem test_meets_LmswLoadsTheStatusWord :
    ({ prot 0 0 [] with cpl := 1 } : State).cpl ≠ 0 ∧ readRm16 h16 (.reg .eax) (real []) = .ok 0
      ∧ readRm16 h16 (.mem (.abs16 0xFFFF)) (real []) = .error (.raised (.gp none)) := by decide
theorem test_meets_LtrLoadsTheTaskRegister :
    descFetch 8 (prot 0 0x00008900 []) = .ok (some ⟨0, 0x00008900, 0x2008⟩)
      ∧ (0x00008900 : Dword).extractLsb' 8 4 = 9 ∧ (0x00008100 : Dword).extractLsb' 8 4 = 1
      ∧ translate (0x2000 + BitVec.ofNat 32 (8 * ((8 : Word).toNat / 8) + 5)) .write .supervisor (prot 0 0x00008900 []) = .ok 0x200D
      ∧ memGet (prot 0 0x00008900 []).mem 0x200D = some 0x89 := by decide
theorem test_meets_LtrTwiceIsBusy :
    (prot 0 0x00008900 []).pg = false ∧ readRm16 h32 (.reg .eax) ((prot 0 0x00008900 []).setR32 .eax 8) = .ok 8
      ∧ after (exec (.ltr h32 (.reg .eax)) ((prot 0 0x00008900 []).setR32 .eax 8)) (·.r16 .eax) = some 8 := by decide
theorem test_meets_LodsLoadsTheAccumulator :
    lodsForm (.lodsw h16) = some (.word, h16) ∧ segRead .ds 0 2 realData = .ok 0 ∧ segRead .ds 0xFFFE 2 (real []) ≠ .ok 0
      ∧ segRead .ds 0xFFFF 2 (real []) = .error (.raised (.gp none)) := by decide
/-- A count of 1 and of 2; a target at the limit of CS and one beyond; at 0FFFFH and one beyond. -/
theorem test_meets_LoopCountsAndBranches_LoopTargetChecks :
    loopForm (.loopnz h16 0) = some (.notZero, h16, 0) ∧ truncTo .s16 ((0x00010001 : Dword) - 1) = 0
      ∧ truncTo .s32 ((2 : Dword) - 1) ≠ 0
      ∧ limited.mode = .prot ∧ truncTo .s32 ((0x0FFE : Dword) + 2 + (0 : Byte).signExtend 32) ≤ limited.segs.cs.limit
      ∧ limited.segs.cs.limit < truncTo .s32 ((0x0FFE : Dword) + 2 + (1 : Byte).signExtend 32)
      ∧ truncTo .s32 ((0xFFF0 : Dword) + 3 + (0x0C : Byte).signExtend 32) = 0xFFFF
      ∧ 0xFFFF < truncTo .s32 ((0xFFF0 : Dword) + 3 + (0x0D : Byte).signExtend 32) := by decide

/-! Page faults: `PageTranslate` is open (R79), so these states meet the clauses about page faults for every
`PageTranslate` that faults at the address named. -/

/-- `selectorAt` with paging on. -/
def paged : State := { selectorAt 0x5003 with cr0 := 0x80000001 }

theorem translate_paged {a : Dword} {acc : Config.Access} {lvl : Config.Level} {c : Dword}
    (h : Config.pageTranslate a acc lvl = .pageFault c) : translate a acc lvl paged = .error (.raised (.pf c a)) := by
  have h1 : ¬(paged.mode = .real ∨ paged.pg = false) := by decide
  simp only [Machine.translate, h1, if_false, h]; rfl

theorem memRead_paged {a : Dword} {n : Nat} {lvl : Config.Level} {c : Dword}
    (h : Config.pageTranslate a .read lvl = .pageFault c) : memRead a (n + 1) lvl paged = .error (.raised (.pf c a)) := by
  simp only [memRead, translateRange, translate_paged h, error_bind]

/-- Operand reads: LAR, LSL, LEAVE, the tables, the pointer loads, LLDT, LMSW, LTR, LODS. -/
theorem test_meets_page_fault_of_an_operand (c : Dword)
    (h : Config.pageTranslate 0x5000 .read .supervisor = .pageFault c) :
    segCheck .ss 0x5000 4 .read paged = .ok () ∧ segRead .ss 0x5000 4 paged = .error (.raised (.pf c 0x5000))
      ∧ readMem h32 (.abs32 0x5000) 2 paged = .error (.raised (.pf c 0x5000)) := by
  have h1 : segCheck .ss 0x5000 4 .read paged = .ok () := by decide
  have h2 : segCheck .ds 0x5000 2 .read paged = .ok () := by decide
  refine ⟨h1, ?_, ?_⟩
  · simp only [segRead, h1, ok_bind]; exact memRead_paged h
  · show segRead .ds 0x5000 2 paged = _
    simp only [segRead, h2, ok_bind]; exact memRead_paged h

/-- Descriptor reads: LAR, LSL, the pointer loads, LLDT, LTR. -/
theorem test_meets_page_fault_of_a_descriptor (c : Dword)
    (h : Config.pageTranslate 0x2008 .read .supervisor = .pageFault c) :
    selNull 8 = false ∧ descFetch 8 paged = .error (.raised (.pf c 0x2008)) := by
  have h1 : paged.inTable 8 = true := by decide
  refine ⟨by decide, ?_⟩
  simp only [descFetch, h1, if_true]
  have h2 : memRead (paged.descAddr 8) 8 .supervisor paged = .error (.raised (.pf c 0x2008)) := memRead_paged h
  rw [h2, error_bind]

/-- Writes of an access-rights byte: LTR and the pointer loads. -/
theorem test_meets_page_fault_of_a_write (c : Dword)
    (h : Config.pageTranslate 0x200D .write .supervisor = .pageFault c) :
    translate (0x2008 + 5) .write .supervisor paged = .error (.raised (.pf c 0x200D)) := translate_paged h

/-- A write sent to a byte that is not populated: LTR, and the accessed bit of a pointer load. -/
theorem test_meets_unpopulated_write (h : Config.pageTranslate 0x200D .write .supervisor = .phys 0x9000) :
    translate (0x2008 + 5) .write .supervisor paged = .ok 0x9000 ∧ memGet paged.mem 0x9000 = none := by
  have h1 : ¬(paged.mode = .real ∨ paged.pg = false) := by decide
  refine ⟨?_, by decide⟩
  simp only [Machine.translate, h1, if_false, show (0x2008 + 5 : Dword) = 0x200D by decide, h]; rfl

/-- The fetch. -/
theorem test_meets_page_fault_of_a_fetch (c : Dword)
    (h : Config.pageTranslate 0x1000 .fetch .supervisor = .pageFault c) :
    translate (paged.segs.cs.base + 0x1000) .fetch .supervisor paged = .error (.raised (.pf c 0x1000)) := translate_paged h

end Sys2Proof.Tests
end

section
/-! The mode of a state read off PE (R42), and the mode after reset (R46). -/

namespace Sys2Proof.Machine

/-- Mode is Real Address Mode when PE is clear, whatever VM holds, and in no other case (R42). -/
theorem State.mode_eq_real_iff (s : State) : s.mode = .real ↔ s.pe = false := by
  unfold State.mode
  cases s.pe with
  | false => simp
  | true => cases s.vm <;> simp

/-- Reset leaves CR0 clear, PE with it (R40, R46). -/
@[simp] theorem State.reset_pe : State.reset.pe = false := by decide

/-- Settles O30: the mode follows from PE by the table of R42. -/
theorem resetIsRealAddressMode : Obligations.ResetIsRealAddressMode :=
  ⟨State.reset_pe, rfl, (State.mode_eq_real_iff State.reset).mpr State.reset_pe⟩

end Sys2Proof.Machine
end

section
/-! Second spellings (R127): an instruction and the row it is another name of have the same bytes and the same
meaning. -/

namespace Sys2Proof

@[simp] theorem Instr.head_canonical (i : Instr) : i.canonical.head = i.head := by
  cases i <;> rfl

@[simp] theorem Instr.target_canonical (i : Instr) : i.canonical.target = i.target := by
  cases i <;> rfl

@[simp] theorem encode_canonical (i : Instr) : encode i.canonical = encode i := by
  simp only [encode, Instr.head_canonical, Instr.target_canonical]

@[simp] theorem Instr.len_canonical (i : Instr) : i.canonical.len = i.len :=
  congrArg List.length (encode_canonical i)

namespace Machine

/-- A form of LODS is read off the canonical spelling as off the instruction itself. -/
@[simp] theorem lodsForm_canonical (i : Instr) : lodsForm i.canonical = lodsForm i := by
  cases i <;> rfl

/-- A form of LOOP is read off the canonical spelling as off the instruction itself. -/
@[simp] theorem loopForm_canonical (i : Instr) : loopForm i.canonical = loopForm i := by
  cases i <;> rfl

/-- Both spellings of a LODS run the one operation its form names, over the same length. -/
theorem exec_canonical_of_lodsForm {i : Instr} {w : LodsWidth} {h : Head} (hi : lodsForm i = some (w, h)) :
    exec i.canonical = exec i := by
  funext s
  have hc : lodsForm i.canonical = some (w, h) := (lodsForm_canonical i).trans hi
  rw [exec_lods hc, exec_lods hi, Instr.len_canonical]

/-- Both spellings of a LOOP test the same condition on ZF, over the same length. -/
theorem exec_canonical_of_loopForm {i : Instr} {c : LoopCond} {h : Head} {rel : Byte}
    (hi : loopForm i = some (c, h, rel)) : exec i.canonical = exec i := by
  obtain ⟨cond, hcond, hexec⟩ := exec_loop hi
  obtain ⟨cond', hcond', hexec'⟩ := exec_loop ((loopForm_canonical i).trans hi)
  have same : cond' = cond := funext fun z => Bool.eq_iff_iff.mpr ((hcond' z).trans (hcond z).symm)
  funext s
  rw [hexec', hexec, same, Instr.len_canonical]

/-- Only LODS and LOOP have a second spelling; every other instruction is its own canonical spelling. -/
@[simp] theorem exec_canonical (i : Instr) : exec i.canonical = exec i := by
  cases i with
  | lodsb | lodsw | lodsd => exact exec_canonical_of_lodsForm rfl
  | loopz | loopnz => exact exec_canonical_of_loopForm rfl
  | _ => rfl

/-- An instruction and its canonical spelling agree in bytes and in meaning (R127). -/
theorem same_as_canonical (i : Instr) : encode i = encode i.canonical ∧ exec i = exec i.canonical :=
  ⟨(encode_canonical i).symm, (exec_canonical i).symm⟩

/-- Settles O9: each synonym's canonical spelling is the row it names; the bytes are those of R117. -/
theorem synonymsMeanTheSame : Obligations.SynonymsMeanTheSame := fun h d =>
  ⟨same_as_canonical (.lodsb h), same_as_canonical (.lodsw h), same_as_canonical (.lodsd h),
    same_as_canonical (.loopz h d), same_as_canonical (.loopnz h d), rfl, rfl, rfl, rfl, rfl⟩

end Machine
end Sys2Proof
end

section
/-! LEA (R160 to R162): the opcode byte of both sizes, and what a memory and a register operand each end in. -/

namespace Sys2Proof.Machine

/-- The two sizes share one opcode byte, and the operand's `reg` field is the destination (R117). -/
theorem encode_lea {i : Instr} {z : Size} {h : Head} {dst : Reg} {src : RM} (hi : leaForm i = some (z, h, dst, src)) :
    encode i = h.pfx.map Pfx.byte ++ [0x8D] ++ src.bytes dst.num := by
  rw [List.append_assoc]
  cases i with
  | lea16 | lea32 => cases hi; rfl
  | _ => cases hi

/-- A register has no offset to take (R162). -/
@[simp] theorem leaOp_reg (z : Size) (dst r : Reg) (len : Nat) (s : State) :
    leaOp z dst (.reg r) len s = raise .ud := rfl

/-- The offset alone goes into the destination: neither the segments nor the memory of `s` is asked (R160, R161). -/
@[simp] theorem leaOp_mem (z : Size) (dst : Reg) (m : MemOp) (len : Nat) (s : State) :
    leaOp z dst (.mem m) len s = .ok ((s.setReg z dst (effAddr m s)).advance len) := rfl

/-- A register written and the instruction left behind: those two fields change and no other. -/
theorem State.setReg_advance (s : State) (z : Size) (r : Reg) (v : Dword) (len : Nat) :
    (s.setReg z r v).advance len =
      { s with regs := s.regs.set r (merge z (s.r32 r) v), eip := s.eip + BitVec.ofNat 32 len } := by
  rw [setReg_merge]
  rfl

/-- Settles O46: both sizes run the one operation `leaOp`, taken apart by its operand. -/
theorem leaStoresTheOffset : Obligations.LeaStoresTheOffset := by
  intro i z h dst src s hi
  refine ⟨encode_lea hi, ?_, ?_⟩
  · rintro r rfl
    rw [exec_lea hi, leaOp_reg, complete_raise]
  · rintro m rfl
    rw [exec_lea hi, leaOp_mem, complete_ok, State.setReg_advance]

end Sys2Proof.Machine
end

section
/-! LEAVE (R170 to R174): what it does where the stack can be read, and that neither of its two writes is seen by the
other's right-hand side (R172). -/

namespace Sys2Proof.Machine

theorem exec_leave (h : Head) (s : State) : exec (.leave h) s = complete s (leaveOp h (Instr.leave h).len s) := rfl

/-- The converse of `leaveOp_ok`, from the plain read of the stack: a value read at the frame pointer is all LEAVE needs
to complete (R171). -/
theorem leaveOp_of_segRead {h : Head} {s : State} {v : BitVec 64} (len : Nat)
    (hv : segRead .ss (s.reg s.stackSize .ebp) (sizeBytes h.opSize) s = .ok v) :
    leaveOp h len s =
      .ok (((s.setReg s.stackSize .esp (s.reg s.stackSize .ebp + BitVec.ofNat 32 (sizeBytes h.opSize))).setReg
        h.opSize .ebp (v.extractLsb' 0 32)).advance len) := by
  have hpop : popRead (s.reg s.stackSize .ebp) (sizeBytes h.opSize) s = .ok v := popRead_eq_ok.mpr hv
  simp only [leaveOp, hpop, ok_bind]

/-- Two different registers written and the instruction left behind: each write is merged into that register's value in
`s`, and no other field changes. -/
theorem State.setReg_setReg_advance (s : State) (z w : Size) {r q : Reg} (hqr : q ≠ r) (a b : Dword) (len : Nat) :
    ((s.setReg z r a).setReg w q b).advance len =
      { s with
        regs := (s.regs.set r (merge z (s.r32 r) a)).set q (merge w (s.r32 q) b)
        eip := s.eip + BitVec.ofNat 32 len } := by
  rw [State.setReg_advance, State.r32_setReg_ne s z r q a hqr, setReg_merge]

/-- Settles O47: the read completes the operation, and EBP is merged into its own value before the instruction, since
the write of ESP before it keeps EBP. -/
theorem leaveReleasesTheFrame : Obligations.LeaveReleasesTheFrame := by
  intro h s fp n v hv
  rw [exec_leave, leaveOp_of_segRead _ hv, complete_ok, State.setReg_setReg_advance s _ _ (by decide)]
  rfl

end Sys2Proof.Machine
end

section
/-! Decoding against encoding (R100 to R125): bytes split in one way only into prefixes, target and rest, and the
decoder answers by the split. -/

namespace Sys2Proof

/-! ### Prefixes and target -/

/-- What the parser answers on the bytes of a target. -/
def LockTarget.parsed (rest : List Byte) : LockTarget → Parse
  | .inScope r => .done r rest
  | .outOfScope o => .outOfScope o rest

theorem parseRaw_target (asz : Size) (t : LockTarget) (rest : List Byte) (h : t.wf asz = true) :
    parseRaw asz (t.bytes ++ rest) = t.parsed rest := by
  cases t with
  | inScope r => exact parseRaw_bytes asz r rest h
  | outOfScope o => exact parseRaw_outOfScope_bytes asz o rest h

theorem LockTarget.parsed_inj {t u : LockTarget} {rest rest' : List Byte} (h : t.parsed rest = u.parsed rest') :
    t = u ∧ rest = rest' := by
  cases t with
  | inScope r =>
    cases u with
    | inScope r' => cases h; exact ⟨rfl, rfl⟩
    | outOfScope o => cases h
  | outOfScope o =>
    cases u with
    | inScope r => cases h
    | outOfScope o' => cases h; exact ⟨rfl, rfl⟩

/-- What the decoder answers where it has read a whole target under a head (R122, R230, R244; logs 13 and 14). -/
def decodeTarget (h : Head) : LockTarget → Decoded
  | .inScope r =>
    if h.hasRep then .rejected .repBefore
    else if h.hasLock then .instr (.lock h (.inScope r))
    else .instr (build h r)
  | .outOfScope o =>
    if h.hasRep then .rejected (.outOfScope o)
    else if h.hasLock then .instr (.lock h (.outOfScope o))
    else .rejected (.outOfScope o)

theorem decodeTarget_ne_more (h : Head) (t : LockTarget) : decodeTarget h t ≠ .more := by
  cases t <;> simp only [decodeTarget] <;> split_ifs <;> simp

theorem splitPfx_target {asz : Size} (ps : List Pfx) {t : LockTarget} (rest : List Byte) (h : t.wf asz = true) :
    splitPfx (ps.map Pfx.byte ++ t.bytes ++ rest) = (ps, t.bytes ++ rest) := by
  obtain ⟨b, tl, hb, hnone⟩ := LockTarget.bytes_first h
  rw [hb, List.append_assoc, List.cons_append]
  exact splitPfx_bytes ps b _ hnone

/-- Prefixes, target and rest are determined by the bytes: the parser reads each off them. -/
theorem target_bytes_unique {d : Size} {ps qs : List Pfx} {t u : LockTarget} {rest rest' : List Byte}
    (ht : t.wf (⟨d, ps⟩ : Head).addrSize = true) (hu : u.wf (⟨d, qs⟩ : Head).addrSize = true)
    (h : ps.map Pfx.byte ++ t.bytes ++ rest = qs.map Pfx.byte ++ u.bytes ++ rest') :
    ps = qs ∧ t = u ∧ rest = rest' := by
  have hsplit := splitPfx_target ps rest ht
  rw [h, splitPfx_target qs rest' hu, Prod.mk.injEq] at hsplit
  obtain ⟨rfl, hbytes⟩ := hsplit
  have hparse := parseRaw_target _ t rest ht
  rw [← hbytes, parseRaw_target _ u rest' hu] at hparse
  obtain ⟨rfl, rfl⟩ := LockTarget.parsed_inj hparse
  exact ⟨rfl, rfl, rfl⟩

theorem decodeAny_bytes (d : Size) (ps : List Pfx) (t : LockTarget) (rest : List Byte)
    (h : t.wf (⟨d, ps⟩ : Head).addrSize = true) :
    decodeAny d (ps.map Pfx.byte ++ t.bytes ++ rest) = decodeTarget ⟨d, ps⟩ t := by
  simp only [decodeAny, splitPfx_target ps rest h, parseRaw_target _ t rest h]
  cases t <;> rfl

/-- The decoder asks for more bytes, or has read prefixes and a target. -/
theorem decodeAny_cases (d : Size) (bs : List Byte) :
    decodeAny d bs = .more ∨ ∃ (ps : List Pfx) (t : LockTarget) (rest : List Byte),
      bs = ps.map Pfx.byte ++ t.bytes ++ rest
      ∧ t.wf (⟨d, ps⟩ : Head).addrSize = true := by
  cases hsplit : splitPfx bs with
  | mk ps tail =>
    obtain ⟨hbytes, hfirst⟩ := splitPfx_some hsplit
    cases hparse : parseRaw (⟨d, ps⟩ : Head).addrSize tail with
    | done r rest =>
      obtain ⟨htail, hw⟩ := parseRaw_done hparse
      exact .inr ⟨ps, .inScope r, rest, by rw [hbytes, htail, List.append_assoc]; rfl, hw⟩
    | outOfScope o rest =>
      obtain ⟨htail, hw⟩ := parseRaw_out hparse hfirst
      exact .inr ⟨ps, .outOfScope o, rest, by rw [hbytes, htail, List.append_assoc]; rfl, hw⟩
    | short => exact .inl (by simp only [decodeAny, hsplit, hparse])

/-- A target cut short makes the decoder ask for more: had it read another one, the whole bytes would split in two
ways. -/
theorem decodeAny_take {d : Size} {ps : List Pfx} {t : LockTarget} (rest : List Byte) {n : Nat}
    (h : t.wf (⟨d, ps⟩ : Head).addrSize = true) (hn : n < (ps.map Pfx.byte ++ t.bytes).length) :
    decodeAny d ((ps.map Pfx.byte ++ t.bytes ++ rest).take n) = .more := by
  rcases decodeAny_cases d ((ps.map Pfx.byte ++ t.bytes ++ rest).take n) with hm | ⟨qs, u, rest', hbytes, hu⟩
  · exact hm
  · exfalso
    have hwhole : ps.map Pfx.byte ++ t.bytes ++ rest
        = qs.map Pfx.byte ++ u.bytes ++ (rest' ++ (ps.map Pfx.byte ++ t.bytes ++ rest).drop n) := by
      rw [← List.append_assoc, ← hbytes, List.take_append_drop]
    obtain ⟨rfl, rfl, -⟩ := target_bytes_unique h hu hwhole
    have hlen := congrArg List.length hbytes
    simp only [List.length_take, List.length_append] at hlen hn
    omega

theorem decodeAny_append {d : Size} {bs : List Byte} (rest : List Byte) (h : decodeAny d bs ≠ .more) :
    decodeAny d (bs ++ rest) = decodeAny d bs := by
  rcases decodeAny_cases d bs with hm | ⟨ps, t, tail, rfl, ht⟩
  · exact absurd hm h
  · rw [List.append_assoc _ tail rest, decodeAny_bytes d ps t _ ht, decodeAny_bytes d ps t _ ht]

/-! ### The length cap (R103) -/

theorem decode_of_read {d : Size} {bs : List Byte} (h : decodeAny d (bs.take Config.maxInstrLen) ≠ .more) :
    decode d bs = decodeAny d (bs.take Config.maxInstrLen) := by
  unfold decode
  cases hdec : decodeAny d (bs.take Config.maxInstrLen) with
  | more => exact absurd hdec h
  | instr i => rfl
  | rejected r => rfl

theorem decode_of_more {d : Size} {bs : List Byte} (h : decodeAny d (bs.take Config.maxInstrLen) = .more) :
    decode d bs = if Config.maxInstrLen ≤ bs.length then .rejected .tooLong else .more := by
  unfold decode
  rw [h]

theorem decode_of_fits {d : Size} {ps : List Pfx} {t : LockTarget} (rest : List Byte)
    (h : t.wf (⟨d, ps⟩ : Head).addrSize = true)
    (hlen : (ps.map Pfx.byte ++ t.bytes).length ≤ Config.maxInstrLen) :
    decode d (ps.map Pfx.byte ++ t.bytes ++ rest) = decodeTarget ⟨d, ps⟩ t := by
  have hany : decodeAny d ((ps.map Pfx.byte ++ t.bytes ++ rest).take Config.maxInstrLen) = decodeTarget ⟨d, ps⟩ t := by
    rw [List.take_append, List.take_of_length_le hlen]
    exact decodeAny_bytes d ps t _ h
  rw [decode_of_read (by rw [hany]; exact decodeTarget_ne_more _ t), hany]

/-- What the decoder answers on some bytes it answers on any longer ones, unless it asked for more. -/
theorem decode_append {d : Size} {bs : List Byte} (rest : List Byte) (h : decode d bs ≠ .more) :
    decode d (bs ++ rest) = decode d bs := by
  by_cases hm : decodeAny d (bs.take Config.maxInstrLen) = .more
  · have hlen : Config.maxInstrLen ≤ bs.length := by
      by_contra hlt
      exact h (by rw [decode_of_more hm, if_neg hlt])
    have htake : (bs ++ rest).take Config.maxInstrLen = bs.take Config.maxInstrLen := List.take_append_of_le_length hlen
    rw [decode_of_more hm, decode_of_more (by rw [htake]; exact hm), if_pos hlen,
      if_pos (by rw [List.length_append]; omega)]
  · have hany : decodeAny d ((bs ++ rest).take Config.maxInstrLen) = decodeAny d (bs.take Config.maxInstrLen) := by
      rw [List.take_append]
      exact decodeAny_append _ hm
    rw [decode_of_read hm, decode_of_read (by rw [hany]; exact hm), hany]

/-- Settles O6: an opcode of no table is a target of its own, and `decodeTarget` says what `F0`, `F2` and `F3` make of
it. -/
theorem unlistedOpcodesAreRefused : Obligations.UnlistedOpcodesAreRefused := by
  intro d ps rest
  refine ⟨fun o ho hlen => ?_, fun r hr hlen hrep => ?_⟩
  · have hdec := decode_of_fits (d := d) (t := .outOfScope o) rest ho hlen
    refine ⟨fun hpfx => hdec.trans ?_, fun hlock hrep => ⟨hdec.trans ?_, fun s => rfl⟩⟩
    · rcases hpfx with hlock | hrep
      · simp [decodeTarget, hlock]
      · simp [decodeTarget, hrep]
    · simp [decodeTarget, hlock, hrep]
  · exact (decode_of_fits (t := .inScope r) rest hr hlen).trans (by simp [decodeTarget, hrep])

theorem Head.hasLock_insert (d : Size) (ps qs : List Pfx) : (⟨d, ps ++ .lock :: qs⟩ : Head).hasLock = true := by
  simp [Head.hasLock]

theorem Head.hasRep_insert_lock (d : Size) (ps qs : List Pfx) :
    (⟨d, ps ++ .lock :: qs⟩ : Head).hasRep = (⟨d, ps ++ qs⟩ : Head).hasRep := by
  simp [Head.hasRep]

theorem Head.addrSize_insert_lock (d : Size) (ps qs : List Pfx) :
    (⟨d, ps ++ .lock :: qs⟩ : Head).addrSize = (⟨d, ps ++ qs⟩ : Head).addrSize := by
  simp [Head.addrSize]

/-- Settles O8: the `F0` changes neither the address size nor the absence of `F2` and `F3`, so the target is read as
without it. -/
theorem lockBeforeThisSpecIsUndefined : Obligations.LockBeforeThisSpecIsUndefined := by
  intro d ps qs r rest hrep hr hlen
  rw [← Head.addrSize_insert_lock] at hr
  rw [← Head.hasRep_insert_lock] at hrep
  refine ⟨(decode_of_fits (t := .inScope r) rest hr hlen).trans ?_, fun s => rfl⟩
  simp [decodeTarget, hrep, Head.hasLock_insert]

/-! ### Round trips -/

/-- `build` gives an instruction of the head and target it was given, in its first spelling and its operand size. -/
theorem build_spec (h : Head) (r : Raw) :
    (build h r).head = h ∧ (build h r).target = .inScope r ∧ (build h r).canonical = build h r
      ∧ (build h r).isLock = false ∧ ∀ z, (build h r).rowSize = some z → h.opSize = z := by
  cases r with
  | alone op =>
    cases op with
    | lodsWide =>
      cases hz : h.opSize <;>
        simp [build, hz, Instr.head, Instr.target, Instr.canonical, Instr.isLock, Instr.rowSize]
    | _ => exact ⟨rfl, rfl, rfl, rfl, by simp [build, Instr.rowSize]⟩
  | rel op x => cases op <;> exact ⟨rfl, rfl, rfl, rfl, by simp [build, Instr.rowSize]⟩
  | digit op m => cases op <;> exact ⟨rfl, rfl, rfl, rfl, by simp [build, Instr.rowSize]⟩
  | slashR op reg m =>
    cases op <;> cases hz : h.opSize <;>
      simp [build, hz, Instr.head, Instr.target, Instr.canonical, Instr.isLock, Instr.rowSize]

/-- An instruction but LOCK is, up to its spelling, what `build` makes of its head and target. -/
theorem build_target {i : Instr} (hl : i.isLock = false) (hz : ∀ z, i.rowSize = some z → i.head.opSize = z) :
    ∃ r, i.target = .inScope r ∧ build i.head r = i.canonical := by
  cases i with
  | lock h t => cases hl
  | lahf | leave | lods8 | lodsb | lgdt | lidt | lldt | lmsw | ltr | loop | loope | loopz | loopne | loopnz =>
    exact ⟨_, rfl, rfl⟩
  | _ =>
    have hsize := hz _ rfl
    simp only [Instr.head] at hsize
    exact ⟨_, rfl, by simp only [build, Instr.head, hsize, Instr.canonical]⟩

theorem Instr.wf_iff (i : Instr) :
    i.wf = true ↔ i.head.hasRep = false ∧ i.head.hasLock = i.isLock ∧ (∀ z, i.rowSize = some z → i.head.opSize = z)
      ∧ i.target.wf i.head.addrSize = true ∧ i.len ≤ Config.maxInstrLen := by
  simp only [Instr.wf, Bool.and_eq_true, Bool.not_eq_true', decide_eq_true_eq, and_assoc]

/-- A well-formed instruction's head and target are read as the instruction. -/
theorem decodeTarget_of_wf {i : Instr} (h : i.wf = true) : decodeTarget i.head i.target = .instr i.canonical := by
  obtain ⟨hrep, hlock, hz, -, -⟩ := (Instr.wf_iff i).mp h
  cases hl : i.isLock with
  | true =>
    rw [hl] at hlock
    cases i with
    | lock hd t =>
      have hrep' : hd.hasRep = false := hrep
      have hlock' : hd.hasLock = true := hlock
      cases t <;> simp [decodeTarget, Instr.head, Instr.target, Instr.canonical, hrep', hlock']
    | _ => cases hl
  | false =>
    rw [hl] at hlock
    obtain ⟨r, ht, hbuild⟩ := build_target hl hz
    simp [ht, decodeTarget, hrep, hlock, hbuild]

/-- What is read under a head is an instruction of that head and target, in its first spelling. -/
theorem decodeTarget_instr {h : Head} {t : LockTarget} {i : Instr} (hi : decodeTarget h t = .instr i) :
    i.head = h ∧ i.target = t ∧ i.canonical = i ∧ h.hasRep = false ∧ h.hasLock = i.isLock
      ∧ ∀ z, i.rowSize = some z → h.opSize = z := by
  cases t with
  | inScope r =>
    simp only [decodeTarget] at hi
    split_ifs at hi with hrep hlock
    · cases hi
      exact ⟨rfl, rfl, rfl, by simpa using hrep, hlock, by simp [Instr.rowSize]⟩
    · cases hi
      obtain ⟨h1, h2, h3, h4, h5⟩ := build_spec h r
      exact ⟨h1, h2, h3, by simpa using hrep, by rw [h4]; simpa using hlock, h5⟩
  | outOfScope o =>
    simp only [decodeTarget] at hi
    split_ifs at hi with hrep hlock
    cases hi
    exact ⟨rfl, rfl, rfl, by simpa using hrep, hlock, by simp [Instr.rowSize]⟩

/-- Settles O1: the encoding is prefixes and a target that fit in fifteen bytes, and a well-formed instruction is what
`decodeTarget` makes of them. -/
theorem decodeOfEncode : Obligations.DecodeOfEncode := by
  intro i rest h
  obtain ⟨-, -, -, ht, hlen⟩ := (Instr.wf_iff i).mp h
  exact (decode_of_fits rest ht hlen).trans (decodeTarget_of_wf h)

/-- Settles O2: of the first fifteen bytes the decoder has read prefixes and a target, which are those of its answer. -/
theorem encodeOfDecode : Obligations.EncodeOfDecode := by
  intro d bs i h
  have hread : decodeAny d (bs.take Config.maxInstrLen) = .instr i := by
    by_cases hm : decodeAny d (bs.take Config.maxInstrLen) = .more
    · rw [decode_of_more hm] at h
      split_ifs at h
    · rw [← decode_of_read hm, h]
  rcases decodeAny_cases d (bs.take Config.maxInstrLen) with hm | ⟨ps, t, rest, hbytes, ht⟩
  · rw [hm] at hread
    cases hread
  rw [hbytes, decodeAny_bytes d ps t rest ht] at hread
  obtain ⟨hhead, rfl, hcan, hrep, hlock, hz⟩ := decodeTarget_instr hread
  have henc : encode i = ps.map Pfx.byte ++ i.target.bytes := by rw [encode, hhead]
  rw [← henc] at hbytes
  have hlen : i.len ≤ Config.maxInstrLen := by
    have := congrArg List.length hbytes
    simp only [List.length_take, List.length_append] at this
    unfold Instr.len
    omega
  refine ⟨(Instr.wf_iff i).mpr ⟨?_, ?_, ?_, ?_, hlen⟩, hcan, by rw [hhead], rest ++ bs.drop Config.maxInstrLen, ?_⟩
  · rw [hhead]; exact hrep
  · rw [hhead]; exact hlock
  · rw [hhead]; exact hz
  · rw [hhead]; exact ht
  · rw [← List.append_assoc, ← hbytes, List.take_append_drop]

/-- Settles O3: each word is run through the decoder. -/
theorem decodedWordsOfTheSpec : Obligations.DecodedWordsOfTheSpec := by
  unfold Obligations.DecodedWordsOfTheSpec
  decide

end Sys2Proof
end

section
/-! The step against the decoder (R25, R75, R103, R314): the bytes a step fetches, and how its end follows from
what they decode to. -/

namespace Sys2Proof.Machine

/-! ### The fetched bytes -/

/-- Bytes that can be fetched at the program counter stand at the front of the window, and the window goes on behind
them. -/
theorem fetchWindow_of_bytes {s : State} {bs : List Byte} (hlen : bs.length ≤ Config.maxInstrLen)
    (h : ∀ (k : Nat) (hk : k < bs.length), fetchByte (s.eip + BitVec.ofNat 32 k) s = .ok bs[k]) :
    fetchWindow s Config.maxInstrLen s.eip
      = (bs ++ (fetchWindow s (Config.maxInstrLen - bs.length) (s.eip + BitVec.ofNat 32 bs.length)).1,
        (fetchWindow s (Config.maxInstrLen - bs.length) (s.eip + BitVec.ofNat 32 bs.length)).2) := by
  obtain ⟨h1, h2⟩ := fetchWindow_take hlen h
  exact Prod.ext h1 h2

/-- A window ends before a byte that cannot be fetched. -/
theorem fetchWindow_error {s : State} {n : Nat} {off : Dword} {e : Stop} (hn : 0 < n)
    (h : fetchByte off s = .error e) : fetchWindow s n off = ([], e) := by
  cases n with
  | zero => omega
  | succ n => simp only [fetchWindow, h]

/-- How the decoder's answer on the window ends the fetch. -/
def fetched (e : Stop) : Decoded → Res Instr
  | .instr i => .ok i
  | .more => .error e
  | .rejected r => refuse (rejection r)

theorem fetchInstr_eq {s : State} (h : s.jumpPending = false) :
    fetchInstr s = fetched (fetchWindow s Config.maxInstrLen s.eip).2
      (decode s.defaultSize (fetchWindow s Config.maxInstrLen s.eip).1) := by
  unfold fetchInstr
  rw [h]
  simp only [Bool.false_eq_true, if_false]
  cases decode s.defaultSize (fetchWindow s Config.maxInstrLen s.eip).1 <;> rfl

/-- The bytes the decoder has answered on decide the fetch, whatever stands behind them. -/
theorem fetchInstr_of_decode {s : State} {bs : List Byte} (hj : s.jumpPending = false)
    (hlen : bs.length ≤ Config.maxInstrLen)
    (h : ∀ (k : Nat) (hk : k < bs.length), fetchByte (s.eip + BitVec.ofNat 32 k) s = .ok bs[k])
    (hdec : decode s.defaultSize bs ≠ .more) :
    ∃ e, fetchInstr s = fetched e (decode s.defaultSize bs) := by
  rw [fetchInstr_eq hj, fetchWindow_of_bytes hlen h, decode_append _ hdec]
  exact ⟨_, rfl⟩

/-- Where the decoder asks for a byte that cannot be fetched, that failure stops the fetch. -/
theorem fetchInstr_of_more {s : State} {bs : List Byte} {e : Stop} (hj : s.jumpPending = false)
    (hlen : bs.length < Config.maxInstrLen)
    (h : ∀ (k : Nat) (hk : k < bs.length), fetchByte (s.eip + BitVec.ofNat 32 k) s = .ok bs[k])
    (hdec : decode s.defaultSize bs = .more)
    (he : fetchByte (s.eip + BitVec.ofNat 32 bs.length) s = .error e) : fetchInstr s = .error e := by
  have hwindow := fetchWindow_error (n := Config.maxInstrLen - bs.length) (by omega) he
  rw [fetchInstr_eq hj, fetchWindow_of_bytes hlen.le h, hwindow, List.append_nil, hdec]
  rfl

/-! ### The step -/

theorem step_of_ok {s : State} {i : Instr} (h : fetchInstr s = .ok i) : step s = exec i s := by
  unfold step
  rw [h]

theorem step_of_error {s : State} {e : Stop} (h : fetchInstr s = .error e) : step s = stopped e s := by
  unfold step
  rw [h]

/-- Settles O10: the bytes decide the fetch, and the step runs what was fetched. -/
theorem stepRunsDecodedInstruction : Obligations.StepRunsDecodedInstruction := by
  intro s bs i hj hlen h hdec
  obtain ⟨e, hfetch⟩ := fetchInstr_of_decode hj hlen h (by rw [hdec]; simp)
  rw [hdec] at hfetch
  exact step_of_ok hfetch

/-- A step on bytes the decoder rejects is refused with the decoder's reason. -/
theorem step_of_rejected {s : State} {bs : List Byte} {r : Reject} (hj : s.jumpPending = false)
    (hlen : bs.length ≤ Config.maxInstrLen)
    (h : ∀ (k : Nat) (hk : k < bs.length), fetchByte (s.eip + BitVec.ofNat 32 k) s = .ok bs[k])
    (hdec : decode s.defaultSize bs = .rejected r) : step s = .refused (rejection r) := by
  obtain ⟨e, hfetch⟩ := fetchInstr_of_decode hj hlen h (by rw [hdec]; simp)
  rw [hdec] at hfetch
  exact step_of_error hfetch

/-- Settles O11: a rejection and the failure of a needed byte each stop the fetch, and with it the step. -/
theorem stepStopsWithTheDecoder : Obligations.StepStopsWithTheDecoder := by
  intro s bs hj hlen h
  refine ⟨fun r hdec => step_of_rejected hj hlen h hdec, fun x hlt hdec hx => ?_, fun r hlt hdec hr => ?_⟩
  · exact step_of_error (fetchInstr_of_more hj hlt h hdec hx)
  · exact step_of_error (fetchInstr_of_more hj hlt h hdec hr)

/-- A target that does not fit in fifteen bytes is cut short by the cap. -/
theorem decode_overlong {d : Size} {ps : List Pfx} {t : LockTarget} (rest : List Byte)
    (h : t.wf (⟨d, ps⟩ : Head).addrSize = true) (hlen : Config.maxInstrLen < (ps.map Pfx.byte ++ t.bytes).length) :
    decode d (ps.map Pfx.byte ++ t.bytes ++ rest) = .rejected .tooLong := by
  rw [decode_of_more (decodeAny_take rest h hlen), if_pos]
  rw [List.length_append]
  omega

/-- The first bytes of an overlong target: fifteen of them are rejected as all of it is, fewer ask for more. -/
theorem decode_overlong_take {d : Size} {ps : List Pfx} {t : LockTarget} (rest : List Byte) {n : Nat}
    (h : t.wf (⟨d, ps⟩ : Head).addrSize = true) (hlen : Config.maxInstrLen < (ps.map Pfx.byte ++ t.bytes).length)
    (hn : n ≤ Config.maxInstrLen) :
    decode d ((ps.map Pfx.byte ++ t.bytes ++ rest).take n)
      = if n = Config.maxInstrLen then .rejected .tooLong else .more := by
  have hmore := decodeAny_take rest (n := n) h (by omega)
  have hcut : ((ps.map Pfx.byte ++ t.bytes ++ rest).take n).length = n := by
    rw [List.length_take, List.length_append]
    omega
  rw [decode_of_more (by rw [List.take_take, min_eq_right hn]; exact hmore), hcut]
  exact if_congr (by omega) rfl rfl

/-- Settles O7: no target of more than fifteen bytes is whole within the window a step fetches. -/
theorem overlongInstructionsAreRefused : Obligations.OverlongInstructionsAreRefused := by
  intro d ps t rest ht hlen bs
  have hcut : decode d (bs.take 15) = .rejected .tooLong := decode_overlong_take rest ht hlen le_rfl
  refine ⟨decode_overlong rest ht hlen, hcut, fun n hn => ?_, fun s hj hsize hfetch => ?_⟩
  · exact (decode_overlong_take rest ht hlen hn.le).trans (if_neg hn.ne)
  · have hbs : (bs.take 15).length = 15 := by
      rw [List.length_take, List.length_append]
      omega
    refine step_of_rejected hj hbs.le (fun k hk => ?_) (by rw [hsize]; exact hcut)
    rw [hbs] at hk
    have hin : k < bs.length := by
      rw [List.length_append]
      omega
    rw [hfetch k hk, List.getElem_take, List.getD_eq_getElem _ _ hin]

end Sys2Proof.Machine
end

section
/-! The lengths of R116, and the size attributes and prefixes of R103 to R106. -/

namespace Sys2Proof

open Sys2Proof.Machine Sys2Proof.Laws.EncodedLength

/-! ### Lengths -/

/-- ModRM is one byte, and the addressing bytes follow it (R116). -/
theorem RM.length_bytes (reg : BitVec 3) (rm : RM) : (rm.bytes reg).length = 1 + addressingBytes rm := by
  have disp16 : ∀ d : Disp 16, d.bytes16.length = dispBytes d := fun d => by cases d <;> rfl
  have disp32 : ∀ d : Disp 32, d.bytes32.length = dispBytes d := fun d => by cases d <;> rfl
  rcases rm with r | m
  · rfl
  · cases m <;> simp [RM.bytes, addressingBytes, disp16, disp32, bytes16, bytes32] <;> omega

theorem OpD.length_bytes (op : OpD) : op.bytes.length = 2 := by
  cases op <;> rfl

/-- Settles O4: each length is that of the prefixes and the target, LOCK's target among them. -/
theorem instructionLengths : Obligations.InstructionLengths := by
  intro h r m d
  refine ⟨?_, ?_, ?_, ?_, ?_, ?_, ?_, ?_, ?_, ?_⟩ <;>
    simp [len_eq, Instr.head, Instr.target, LockTarget.bytes, Raw.bytes, RM.length_bytes, OpR.bytes, OpD.length_bytes,
      Opcode.bytes] <;>
    omega

/-! ### Prefixes -/

theorem lastOverride_none {ps : List Pfx} (h : ∀ p ∈ ps, ∀ k, p ≠ .seg k) : lastOverride ps = none := by
  induction ps with
  | nil => rfl
  | cons p ps ih =>
    have htail := ih fun q hq => h q (List.mem_cons_of_mem p hq)
    have hhead := h p List.mem_cons_self
    cases p with
    | seg k => exact absurd rfl (hhead k)
    | _ => simp only [lastOverride, htail]

/-- The last override of a run wins, whatever stands before it (R103). -/
theorem lastOverride_append (ps : List Pfx) {qs : List Pfx} {g : SegName} (h : lastOverride qs = some g) :
    lastOverride (ps ++ qs) = some g := by
  induction ps with
  | nil => exact h
  | cons p ps ih => simp only [List.cons_append, lastOverride, ih]

/-- Settles O5: the two size prefixes count by their presence, the override by its place. -/
theorem sizesAndPrefixes : Obligations.SizesAndPrefixes := by
  refine ⟨fun d ps => ⟨rfl, rfl⟩, fun d ps qs g h => ?_, fun d ps h => lastOverride_none h, fun s hm => ?_,
    fun s hm => ?_⟩
  · exact lastOverride_append ps (by simp only [lastOverride, lastOverride_none h])
  · simp only [State.defaultSize, State.stackSize, hm]
    exact ⟨rfl, rfl⟩
  · cases hmode : s.mode with
    | prot => exact absurd hmode hm
    | real | v86 => simp only [State.defaultSize, State.stackSize, hmode, and_self]

end Sys2Proof
end

section
/-! What a completed instruction leaves of the state before it (R24, R30, R35 to R41, R67): `Completes` says it once for
each kind of instruction, and the frames are read off it. -/

namespace Sys2Proof.Machine

/-! ### Families against what they may write -/

theorem regsWritten_lar {i : Instr} {z : Size} {h : Head} {dst : Reg} {src : RM}
    (hi : larForm i = some (z, h, dst, src)) : regsWritten i = [dst] ∧ loopForm i = none := by
  cases i <;> cases hi <;> exact ⟨rfl, rfl⟩

theorem regsWritten_lsl {i : Instr} {z : Size} {h : Head} {dst : Reg} {src : RM}
    (hi : lslForm i = some (z, h, dst, src)) : regsWritten i = [dst] ∧ loopForm i = none := by
  cases i <;> cases hi <;> exact ⟨rfl, rfl⟩

theorem regsWritten_lea {i : Instr} {z : Size} {h : Head} {dst : Reg} {src : RM}
    (hi : leaForm i = some (z, h, dst, src)) : regsWritten i = [dst] ∧ loopForm i = none := by
  cases i <;> cases hi <;> exact ⟨rfl, rfl⟩

theorem regsWritten_far {i : Instr} {n : SegName} {z : Size} {h : Head} {dst : Reg} {src : RM}
    (hi : farForm i = some (n, z, h, dst, src)) : regsWritten i = [dst] ∧ loopForm i = none := by
  cases i <;> cases hi <;> exact ⟨rfl, rfl⟩

theorem regsWritten_lods {i : Instr} {w : LodsWidth} {h : Head} (hi : lodsForm i = some (w, h)) :
    regsWritten i = [.eax, .esi] ∧ loopForm i = none := by
  cases i <;> cases hi <;> exact ⟨rfl, rfl⟩

theorem regsWritten_loop {i : Instr} {c : LoopCond} {h : Head} {rel : Byte} (hi : loopForm i = some (c, h, rel)) :
    regsWritten i = [.ecx] := by
  cases i <;> cases hi <;> rfl

/-- No pointer load writes CS (R35). -/
theorem farForm_ne_cs {i : Instr} {n : SegName} {z : Size} {h : Head} {dst : Reg} {src : RM}
    (hi : farForm i = some (n, z, h, dst, src)) : n ≠ .cs := by
  cases i <;> cases hi <;> decide

theorem storeAddr_far {i : Instr} {n : SegName} {z : Size} {h : Head} {dst : Reg} {src : RM}
    (hi : farForm i = some (n, z, h, dst, src)) (s : State) : storeAddr i s = farStoreAddr z h src s := by
  cases i <;> cases hi <;> rfl

/-! ### Registers left alone -/

/-- The registers outside a list are those of `g`. -/
def Regs.agreeBut (l : List Reg) (g g' : Regs) : Prop := ∀ r, r ∉ l → g'.get r = g.get r

theorem Regs.agreeBut_set (g : Regs) (r : Reg) (v : Dword) : g.agreeBut [r] (g.set r v) := fun q hq => by
  rw [Regs.get_set, if_neg (by simpa using hq)]

theorem Regs.agreeBut_set_set (g : Regs) (r q : Reg) (v w : Dword) : g.agreeBut [r, q] ((g.set r v).set q w) :=
  fun k hk => by
    simp only [List.mem_cons, List.not_mem_nil, or_false, not_or] at hk
    rw [Regs.get_set, if_neg hk.2, Regs.get_set, if_neg hk.1]

theorem Regs.agreeBut_refl (l : List Reg) (g : Regs) : g.agreeBut l g := fun _ _ => rfl

/-! ### The kinds of instructions -/

/-- What a completed instruction leaves, by kind: general registers alone (LAHF, LEA, LEAVE, LODS), with ZF (LAR, LSL),
with a branch (the LOOP family); a segment register and a general register; one system register. -/
inductive Completes (i : Instr) (s : State) : State → Prop
  | registers (g : Regs) (k : Nat) (hregs : s.regs.agreeBut (regsWritten i) g) (hloop : loopForm i = none) :
      Completes i s { s with regs := g, eip := s.nextPc i.len, draws := k }
  | tested (g : Regs) (z : Bool) (k : Nat) (hform : larForm i ≠ none ∨ lslForm i ≠ none)
      (hregs : s.regs.agreeBut (regsWritten i) g) (hloop : loopForm i = none) :
      Completes i s { s with regs := g, eflags := putZF s.eflags z, eip := s.nextPc i.len, draws := k }
  | counted (c : LoopCond) (h : Head) (rel : Byte) (g : Regs) (a : Dword) (hi : loopForm i = some (c, h, rel))
      (hregs : s.regs.agreeBut (regsWritten i) g)
      (hpc : ((loopCount h s ≠ 0 ∧ c.holds s.zf) ∧ a = loopTarget h rel i.len s)
        ∨ (¬(loopCount h s ≠ 0 ∧ c.holds s.zf) ∧ a = s.nextPc i.len)) :
      Completes i s { s with regs := g, eip := a }
  | pointer (n : SegName) (z : Size) (h : Head) (dst : Reg) (m : MemOp) (p : BitVec 64) (u : State)
      (hi : farForm i = some (n, z, h, dst, .mem m)) (hp : readMem h m (sizeBytes z + 2) s = .ok p)
      (hu : loadSeg n (farSelector z p) s = .ok u) :
      Completes i s ((u.setReg z dst (p.extractLsb' 0 32)).advance i.len)
  | gdt (h : Head) (src : RM) (d : TableReg) (hi : i = .lgdt h src) (hd : tableOperand h src s = .ok d) :
      Completes i s ((s.withGdtr d).advance i.len)
  | idt (h : Head) (src : RM) (d : TableReg) (hi : i = .lidt h src) (hd : tableOperand h src s = .ok d) :
      Completes i s ((s.withIdtr d).advance i.len)
  | ldt (h : Head) (src : RM) (l : LdtReg) (hi : i = .lldt h src) (hm : s.mode = .prot) (hc : s.cpl = 0)
      (hl : l.limit = s.ldtr.limit ∨ ∃ d : Desc, l.limit = d.byteLimit) :
      Completes i s ((s.withLdtr l).advance i.len)
  | msw (h : Head) (src : RM) (v : Word) (hi : i = .lmsw h src) (hm : s.mode ≠ .v86) (hc : s.mode = .prot → s.cpl = 0) :
      Completes i s (((s.withCr0 (s.cr0.extractLsb' 16 16 ++ newMsw s.pe v)).withJumpPending
        (s.jumpPending || (!s.pe && v.getLsbD 0))).advance i.len)
  | task (h : Head) (src : RM) (sel : Word) (d : Desc) (p : Nat) (hi : i = .ltr h src) (hm : s.mode = .prot)
      (hc : s.cpl = 0) (hsel : readRm16 h src s = .ok sel) (hd : descFetch sel s = .ok (some d))
      (hp : translate d.arAddr .write .supervisor s = .ok p) (hpop : (memGet s.mem p).isSome = true) :
      Completes i s ((((s.withMem (memSet s.mem p (d.arByte ||| 0x02))).withStored (addStored s.stored p)).withTr
        ⟨sel, d.base, d.byteLimit, (d.hi ||| 0x00000200) &&& arMask⟩).advance i.len)

/-- LAR and LSL: a register and ZF, or ZF alone. -/
theorem Completes.of_set_setZF {i : Instr} {s : State} {dst : Reg} (v : Dword) (k : Nat)
    (hform : larForm i ≠ none ∨ lslForm i ≠ none) (hw : regsWritten i = [dst] ∧ loopForm i = none) :
    Completes i s { s with
      regs := s.regs.set dst v, eflags := putZF s.eflags true, eip := s.nextPc i.len, draws := k } :=
  .tested _ true k hform (by rw [hw.1]; exact Regs.agreeBut_set _ _ _) hw.2

theorem Completes.of_setZF {i : Instr} {s : State} (hform : larForm i ≠ none ∨ lslForm i ≠ none)
    (hloop : loopForm i = none) : Completes i s ((s.setZF false).advance i.len) :=
  .tested s.regs false s.draws hform (Regs.agreeBut_refl _ _) hloop

/-- The LOOP family: the count alone is written, whether the branch is taken or not. -/
theorem Completes.of_loop {i : Instr} {s t : State} {c : LoopCond} {h : Head} {rel : Byte}
    (hi : loopForm i = some (c, h, rel)) (ht : exec i s = .next t) : Completes i s t := by
  obtain ⟨cond, hcond, hexec⟩ := exec_loop hi
  rw [hexec, complete_next] at ht
  have hregs (v : Dword) : s.regs.agreeBut (regsWritten i) (s.regs.set .ecx v) := by
    rw [regsWritten_loop hi]
    exact Regs.agreeBut_set _ _ _
  rcases loopOp_ok ht with ⟨hcount, hz, -, rfl⟩ | ⟨hnot, rfl⟩
  · rw [setReg_merge]
    exact .counted c h rel _ _ hi (hregs _) (.inl ⟨⟨hcount, (hcond _).mp hz⟩, rfl⟩)
  · rw [setReg_merge]
    exact .counted c h rel _ _ hi (hregs _) (.inr ⟨fun hk => hnot ⟨hk.1, (hcond _).mpr hk.2⟩, rfl⟩)

/-- LODS: the accumulator and the index. -/
theorem Completes.of_lods {i : Instr} {s : State} {w : LodsWidth} {h : Head} (hi : lodsForm i = some (w, h))
    (v : BitVec 64) (x : Dword) :
    Completes i s (((loadAccumulator w v s).setReg h.addrSize .esi x).advance i.len) := by
  obtain ⟨hw, hloop⟩ := regsWritten_lods hi
  rw [setReg_merge]
  cases w <;> exact .registers _ s.draws (by rw [hw]; exact Regs.agreeBut_set_set _ _ _ _ _) hloop

/-- LLDT: LDTR, whose limit is the old one or a descriptor's. -/
theorem Completes.of_lldt {s t : State} {h : Head} {src : RM}
    (ht : lldtOp h src (Instr.lldt h src).len s = .ok t) : Completes (.lldt h src) s t := by
  obtain ⟨hm, hc, sel, -, ⟨-, rfl⟩ | ⟨-, -, d, -, -, -, rfl⟩⟩ := lldtOp_ok ht
  · exact .ldt h src _ rfl hm hc (.inl rfl)
  · exact .ldt h src _ rfl hm hc (.inr ⟨d, rfl⟩)

/-- Every instruction that gives a next state is of one of the kinds. -/
theorem exec_completes {i : Instr} {s t : State} (h : exec i s = .next t) : Completes i s t := by
  rcases exec_next_cases h with ⟨hd, rfl, rfl⟩ | ⟨z, hd, dst, src, hi, ht⟩ | ⟨z, hd, dst, src, hi, ht⟩ |
    ⟨z, hd, dst, src, hi, ht⟩ | ⟨hd, rfl, ht⟩ | ⟨hd, src, rfl, ht⟩ | ⟨hd, src, rfl, ht⟩ |
    ⟨n, z, hd, dst, src, hi, ht⟩ | ⟨hd, src, rfl, ht⟩ | ⟨hd, src, rfl, ht⟩ | ⟨w, hd, hi, ht⟩ |
    ⟨c, cond, hd, rel, hi, -⟩ | ⟨hd, src, rfl, ht⟩
  · exact .registers _ _ (Regs.agreeBut_set _ _ _) rfl
  · obtain ⟨-, sel, -, ⟨d, -, rfl⟩ | ⟨-, rfl⟩⟩ := larOp_ok ht
    · rw [setReg_merge]
      exact .of_set_setZF _ _ (.inl (by simp [hi])) (regsWritten_lar hi)
    · exact .of_setZF (.inl (by simp [hi])) (regsWritten_lar hi).2
  · obtain ⟨-, sel, -, ⟨d, -, rfl⟩ | ⟨-, rfl⟩⟩ := lslOp_ok ht
    · rw [setReg_merge]
      exact .of_set_setZF _ s.draws (.inr (by simp [hi])) (regsWritten_lsl hi)
    · exact .of_setZF (.inr (by simp [hi])) (regsWritten_lsl hi).2
  · obtain ⟨m, -, rfl⟩ := leaOp_ok ht
    obtain ⟨hw, hloop⟩ := regsWritten_lea hi
    rw [setReg_merge]
    exact .registers _ s.draws (by rw [hw]; exact Regs.agreeBut_set _ _ _) hloop
  · obtain ⟨v, -, rfl⟩ := leaveOp_ok ht
    rw [setReg_merge, setReg_merge]
    exact .registers _ s.draws (Regs.agreeBut_set_set _ _ _ _ _) rfl
  · obtain ⟨d, hd', rfl⟩ := lgdtOp_ok ht
    exact .gdt hd src d rfl hd'
  · obtain ⟨d, hd', rfl⟩ := lidtOp_ok ht
    exact .idt hd src d rfl hd'
  · obtain ⟨m, p, u, rfl, hp, hu, rfl⟩ := farOp_ok ht
    exact .pointer n z hd dst m p u hi hp hu
  · exact .of_lldt ht
  · obtain ⟨hm, hc, v, -, rfl⟩ := lmswOp_ok ht
    exact .msw hd src v rfl hm hc
  · obtain ⟨v, -, rfl⟩ := lodsOp_ok ht
    exact .of_lods hi v _
  · exact .of_loop hi h
  · obtain ⟨hm, hc, sel, d, p, hsel, -, -, hdesc, -, -, hp, hpop, rfl⟩ := ltrOp_ok ht
    exact .task hd src sel d p rfl hm hc hsel hdesc hp hpop

end Sys2Proof.Machine
end

section
/-! The frames of an instruction and of a step (R24, R26, R30, R35 to R41, R67, R69), read off `Completes`. -/

namespace Sys2Proof.Machine

/-! ### Flags and memory under an update -/

/-- Replacing ZF changes bit 6 alone (R30). -/
theorem getLsbD_putZF (f : Dword) (z : Bool) (k : Nat) :
    (putZF f z).getLsbD k = if k = 6 then z else f.getLsbD k := by
  have happ : (putZF f z).getLsbD k
      = if k < 6 then (f.extractLsb' 0 6).getLsbD k
        else if k - 6 < 1 then (BitVec.ofBool z).getLsbD (k - 6) else (f.extractLsb' 7 25).getLsbD (k - 6 - 1) := by
    rw [← BitVec.getLsbD_append, ← BitVec.getLsbD_append]
    rfl
  rw [happ]
  by_cases hlow : k < 6
  · rw [if_pos hlow, if_neg (by omega)]
    simp [hlow]
  · by_cases hz : k = 6
    · subst hz
      simp
    · rw [if_neg hlow, if_neg (by omega), if_neg hz, BitVec.getLsbD_extractLsb', show 7 + (k - 6 - 1) = k by omega]
      by_cases hk : k < 32
      · simp [show k - 6 - 1 < 25 by omega]
      · simp [BitVec.getLsbD_of_ge f k (by omega)]

/-- What a loaded segment register leaves: its own register, hidden fields kept or a descriptor's, and memory but for
the accessed bit of the descriptor named (R195 to R201). -/
theorem loadSeg_shape {n : SegName} {sel : Word} {s u : State} (h : loadSeg n sel s = .ok u) :
    ∃ (v : SegReg) (m : List Host.Cell) (l : List Nat) (k : Nat),
      u = { s with segs := s.segs.set n v, mem := m, stored := l, draws := k }
      ∧ ((v.ar = (s.seg n).ar ∧ v.limit = (s.seg n).limit)
        ∨ ∃ (d : Desc) (a : Dword), v.ar = a &&& arMask ∧ v.limit = d.byteLimit)
      ∧ ((m = s.mem ∧ l = s.stored)
        ∨ ∃ d q b, s.mode = .prot ∧ selNull sel = false ∧ descFetch sel s = .ok (some d) ∧ d.hi.getLsbD 8 = false
          ∧ translate d.arAddr .write .supervisor s = .ok q ∧ (memGet s.mem q).isSome = true
          ∧ m = memSet s.mem q b ∧ l = addStored s.stored q) := by
  rcases loadSeg_cases h with ⟨-, rfl⟩ | ⟨-, -, -, rfl⟩ | ⟨hm, h0, d, hd, -, ⟨-, rfl⟩ | ⟨h8, q, b, hq, hb, rfl⟩⟩
  · exact ⟨_, s.mem, s.stored, s.draws, rfl, .inl ⟨rfl, rfl⟩, .inl ⟨rfl, rfl⟩⟩
  · exact ⟨_, s.mem, s.stored, s.draws, rfl, .inl ⟨rfl, rfl⟩, .inl ⟨rfl, rfl⟩⟩
  · exact ⟨_, s.mem, s.stored, s.draws, rfl, .inr ⟨d, _, rfl, rfl⟩, .inl ⟨rfl, rfl⟩⟩
  · exact ⟨_, _, _, _, rfl, .inr ⟨d, _, rfl, rfl⟩, .inr ⟨d, q, _, hm, h0, hd, h8, hq, by rw [hb]; rfl, rfl, rfl⟩⟩

/-! ### Flags, program counter -/

/-- Settles O14: `putZF` is the one change of the flags, and only LAR and LSL make it. -/
theorem onlyLarAndLslWriteAFlag : Obligations.OnlyLarAndLslWriteAFlag := by
  intro i s t hnext
  cases exec_completes hnext with
  | tested g z k hform hregs hloop =>
    refine ⟨fun k hk => by rw [getLsbD_putZF, if_neg hk], fun hlar hlsl => ?_⟩
    rcases hform with hne | hne
    · exact absurd hlar hne
    · exact absurd hlsl hne
  | pointer n z h dst m p u hi hp hu =>
    obtain ⟨v, m, l, k, rfl, -, -⟩ := loadSeg_shape hu
    simp
  | _ => exact ⟨fun _ _ => rfl, fun _ _ => rfl⟩

/-- Decrementing before or after the truncation to an address size gives the same count. -/
theorem truncTo_sub_one (z : Size) (x : Dword) : truncTo z (truncTo z x - 1) = truncTo z (x - 1) := by
  cases z with
  | s32 => rfl
  | s16 =>
    apply BitVec.eq_of_toNat_eq
    simp [truncTo, BitVec.toNat_sub]

theorem loopCount_eq (h : Head) (s : State) : loopCount h s = truncTo h.addrSize (s.r32 .ecx - 1) :=
  truncTo_sub_one h.addrSize (s.r32 .ecx)

/-- Settles O20: every kind but the LOOP family advances, and a LOOP goes by its count and condition. -/
theorem programCounterAdvances : Obligations.ProgramCounterAdvances := by
  intro i s t hnext
  cases exec_completes hnext with
  | counted c h rel g a hi hregs hpc =>
    refine ⟨fun hnone => absurd (hi.symm.trans hnone) (by simp), fun c' h' rel' hi' => ?_⟩
    obtain ⟨rfl, rfl, rfl⟩ : c = c' ∧ h = h' ∧ rel = rel' := by simpa using hi.symm.trans hi'
    rw [← loopCount_eq]
    rcases hpc with ⟨htaken, rfl⟩ | ⟨hnot, rfl⟩
    · exact ⟨fun _ => rfl, fun hnot => absurd htaken hnot⟩
    · exact ⟨fun htaken => absurd htaken hnot, fun _ => rfl⟩
  | registers g k hregs hloop => exact ⟨fun _ => rfl, fun c h rel hi => by simp [hloop] at hi⟩
  | tested g z k hform hregs hloop => exact ⟨fun _ => rfl, fun c h rel hi => by simp [hloop] at hi⟩
  | pointer n z h dst m p u hi hp hu =>
    obtain ⟨v, m, l, k, rfl, -, -⟩ := loadSeg_shape hu
    exact ⟨fun _ => by simp [State.nextPc], fun c h rel hl => by simp [(regsWritten_far hi).2] at hl⟩
  | gdt h src d hi | idt h src d hi | ldt h src d hi | msw h src v hi | task h src sel d p hi =>
    subst hi
    exact ⟨fun _ => rfl, fun c h rel hl => by cases hl⟩

/-! ### Registers -/

/-- Settles O15: each kind names the general registers it writes, and the system loads write none. -/
theorem generalRegistersFrame : Obligations.GeneralRegistersFrame := by
  intro i s t hnext r hr
  cases exec_completes hnext with
  | registers g k hregs hloop => exact hregs r hr
  | tested g z k hform hregs hloop => exact hregs r hr
  | counted c h rel g a hi hregs hpc => exact hregs r hr
  | pointer n z h dst m p u hi hp hu =>
    obtain ⟨v, m, l, k, rfl, -, -⟩ := loadSeg_shape hu
    rw [(regsWritten_far hi).1] at hr
    exact State.r32_setReg_ne _ _ _ _ _ (by simpa using hr)
  | _ => rfl

/-- Settles O16: a pointer load sets the one register its form names, which is never CS. -/
theorem segmentRegistersFrame : Obligations.SegmentRegistersFrame := by
  intro i s t hnext
  cases exec_completes hnext with
  | pointer n z h dst m p u hi hp hu =>
    obtain ⟨v, m, l, k, rfl, -, -⟩ := loadSeg_shape hu
    have hseg (q : SegName) (hq : q ≠ n) :
        (((State.mk s.regs (s.segs.set n v) s.eip s.eflags s.gdtr s.idtr s.ldtr s.tr s.cr0 s.cpl m s.jumpPending l
          k).setReg z dst (p.extractLsb' 0 32)).advance i.len).seg q = s.seg q := by
      simp [State.seg, hq]
    exact ⟨fun q hq => hseg q (hq _ hi).symm, hseg .cs (farForm_ne_cs hi).symm⟩
  | _ => exact ⟨fun _ _ => rfl, rfl⟩

/-- Settles O17: each system register has its one kind, and LMSW puts back the high half of CR0. -/
theorem systemRegistersFrame : Obligations.SystemRegistersFrame := by
  intro i s t hnext
  cases exec_completes hnext with
  | registers | tested | counted =>
    exact ⟨fun _ => rfl, fun _ => rfl, fun _ => rfl, fun _ => rfl, fun _ => rfl, rfl, rfl⟩
  | pointer n z h dst m p u hi hp hu =>
    obtain ⟨v, m, l, k, rfl, -, -⟩ := loadSeg_shape hu
    simp
  | gdt h src d hi =>
    exact ⟨fun hne => absurd hi (hne h src), fun _ => rfl, fun _ => rfl, fun _ => rfl, fun _ => rfl, rfl, rfl⟩
  | idt h src d hi =>
    exact ⟨fun _ => rfl, fun hne => absurd hi (hne h src), fun _ => rfl, fun _ => rfl, fun _ => rfl, rfl, rfl⟩
  | ldt h src l hi =>
    exact ⟨fun _ => rfl, fun _ => rfl, fun hne => absurd hi (hne h src), fun _ => rfl, fun _ => rfl, rfl, rfl⟩
  | msw h src v hi =>
    exact ⟨fun _ => rfl, fun _ => rfl, fun _ => rfl, fun _ => rfl, fun hne => absurd hi (hne h src), high_half _ _, rfl⟩
  | task h src sel d p hi =>
    exact ⟨fun _ => rfl, fun _ => rfl, fun _ => rfl, fun hne => absurd hi (hne h src), fun _ => rfl, rfl, rfl⟩

/-! ### Memory -/

theorem arStoreAddr_of_translate {a : Dword} {s : State} {q : Nat} (h : translate a .write .supervisor s = .ok q) :
    arStoreAddr a s = some q := by
  simp only [arStoreAddr, h]

theorem farStoreAddr_of_desc {z : Size} {h : Head} {m : MemOp} {s : State} {p : BitVec 64} {d : Desc}
    (hp : readMem h m (sizeBytes z + 2) s = .ok p) (hm : s.mode = .prot) (h0 : selNull (farSelector z p) = false)
    (hd : descFetch (farSelector z p) s = .ok (some d)) (h8 : d.hi.getLsbD 8 = false) :
    farStoreAddr z h (.mem m) s = arStoreAddr d.arAddr s := by
  simp only [farStoreAddr, hp, hm, h0, hd, h8, and_self, if_true, Bool.false_eq_true, if_false]

/-- Memory after an instruction: as before, or with one populated byte stored and remembered, at the address `storeAddr`
computes. -/
theorem exec_mem {i : Instr} {s t : State} (hnext : exec i s = .next t) :
    (t.mem = s.mem ∧ t.stored = s.stored)
      ∨ ∃ p b, storeAddr i s = some p ∧ p < 2 ^ Config.physBits ∧ (memGet s.mem p).isSome = true
        ∧ t.mem = memSet s.mem p b ∧ t.stored = addStored s.stored p := by
  cases exec_completes hnext with
  | pointer n z h dst m p u hi hp hu =>
    obtain ⟨v, m', l, k, rfl, -, ⟨rfl, rfl⟩ | ⟨d, q, b, hm, h0, hd, h8, hq, hpop, rfl, rfl⟩⟩ := loadSeg_shape hu
    · exact .inl (by simp)
    · refine .inr ⟨q, b, ?_, translate_lt hq, hpop, by simp, by simp⟩
      rw [storeAddr_far hi, farStoreAddr_of_desc hp hm h0 hd h8, arStoreAddr_of_translate hq]
  | task h src sel d p hi hm hc hsel hd hp hpop =>
    subst hi
    refine .inr ⟨p, _, ?_, translate_lt hp, hpop, rfl, rfl⟩
    have haddr : s.descAddr sel + 5 = d.arAddr := by rw [Desc.arAddr, (descFetch_some hd).2.1]
    simp only [storeAddr, ltrStoreAddr, hsel, haddr, arStoreAddr_of_translate hp]
  | _ => exact .inl ⟨rfl, rfl⟩

/-- Settles O18: the one store is at `storeAddr`. -/
theorem memoryFrame : Obligations.MemoryFrame := by
  intro i s t h a ha
  rcases exec_mem h with ⟨hmem, -⟩ | ⟨p, b, hp, -, -, hmem, -⟩
  · rw [hmem]
  · have hap : a ≠ p := by
      rintro rfl
      exact ha hp
    rw [hmem, memGet_memSet, if_neg hap]

/-- An instruction stores to populated addresses alone, so their set stays. -/
theorem exec_isSome {i : Instr} {s t : State} (h : exec i s = .next t) (a : Nat) :
    (memGet t.mem a).isSome = (memGet s.mem a).isSome := by
  rcases exec_mem h with ⟨hmem, -⟩ | ⟨p, b, -, -, hpop, hmem, -⟩
  · rw [hmem]
  · by_cases hap : a = p
    · rw [hmem, memGet_memSet, if_pos hap, hap, hpop]
      rfl
    · rw [hmem, memGet_memSet, if_neg hap]

/-- Settles O19: a step executes one instruction. -/
theorem populatedAddressesKept : Obligations.PopulatedAddressesKept := by
  intro s t h a
  obtain ⟨i, -, hi⟩ := step_next h
  exact exec_isSome hi a

/-! ### The owed jump (R346) -/

/-- LMSW stores the operand's PE, and keeps one that is set (R217). -/
theorem newMsw_pe (pe : Bool) (c : Word) (v : Word) : (c ++ newMsw pe v : Dword).getLsbD 0 = (pe || v.getLsbD 0) := by
  rw [getLsbD_halves]
  cases pe <;> simp [newMsw]

theorem fetchInstr_of_jump {s : State} (hj : s.jumpPending = true) :
    fetchInstr s = .error (.refused .noJumpAfterLmsw) := by
  rw [fetchInstr, if_pos hj]
  rfl

/-- Settles O13: the fetch refuses first where a jump is owed; a debt arises with PE, in LMSW alone. -/
theorem jumpOwedAfterSettingPe : Obligations.JumpOwedAfterSettingPe := by
  refine ⟨fun s hj => step_of_error (fetchInstr_of_jump hj), fun i s t hnext => ?_⟩
  have debt : ∀ b c : Bool, c = (c || (!b && b)) := by decide
  cases exec_completes hnext with
  | pointer n z h dst m p u hi hp hu =>
    obtain ⟨v, m, l, k, rfl, -, -⟩ := loadSeg_shape hu
    simp [State.pe]
  | msw h src v hi =>
    have hpe := newMsw_pe s.pe (s.cr0.extractLsb' 16 16) v
    show (s.jumpPending || (!s.pe && v.getLsbD 0)) = (s.jumpPending || (!s.pe && BitVec.getLsbD _ 0))
    rw [State.advance_cr0, State.withJumpPending_cr0, State.withCr0_cr0, hpe]
    cases s.pe <;> simp
  | _ => exact debt s.pe s.jumpPending

end Sys2Proof.Machine
end

section
/-! Modes, privilege levels and the invariant of a sound state (R41, R42, R320 to R322, R341). -/

namespace Sys2Proof.Machine

/-! ### The mode by PE and VM (R42) -/

theorem State.mode_eq_prot_iff (s : State) : s.mode = .prot ↔ s.pe = true ∧ s.vm = false := by
  unfold State.mode
  cases s.pe <;> cases s.vm <;> simp

theorem State.mode_eq_v86_iff (s : State) : s.mode = .v86 ↔ s.pe = true ∧ s.vm = true := by
  unfold State.mode
  cases s.pe <;> cases s.vm <;> simp

/-! ### What an instruction does to CPL, VM and PE -/

theorem exec_cpl {i : Instr} {s t : State} (h : exec i s = .next t) : t.cpl = s.cpl := by
  obtain ⟨-, -, -, -, -, -, hcpl⟩ := systemRegistersFrame i s t h
  exact hcpl

theorem exec_vm {i : Instr} {s t : State} (h : exec i s = .next t) : t.vm = s.vm :=
  (onlyLarAndLslWriteAFlag i s t h).1 17 (by decide)

/-- PE is written by LMSW alone, which does not clear it (R217). -/
theorem exec_pe {i : Instr} {s t : State} (hnext : exec i s = .next t) :
    t.pe = s.pe ∨ (∃ h src, i = .lmsw h src) ∧ t.pe = true := by
  cases exec_completes hnext with
  | pointer n z h dst m p u hi hp hu =>
    obtain ⟨v, m, l, k, rfl, -, -⟩ := loadSeg_shape hu
    exact .inl (by simp [State.pe])
  | msw h src v hi =>
    have hpe : ((s.cr0.extractLsb' 16 16 ++ newMsw s.pe v : Dword).getLsbD 0) = (s.pe || v.getLsbD 0) :=
      newMsw_pe s.pe (s.cr0.extractLsb' 16 16) v
    cases hv : v.getLsbD 0 with
    | true => exact .inr ⟨⟨h, src, hi⟩, hpe.trans (by rw [hv, Bool.or_true])⟩
    | false => exact .inl (hpe.trans (by rw [hv, Bool.or_false]))
  | _ => exact .inl rfl

theorem exec_pe_mono {i : Instr} {s t : State} (h : exec i s = .next t) (hpe : s.pe = true) : t.pe = true := by
  rcases exec_pe h with heq | ⟨-, htrue⟩
  · rw [heq, hpe]
  · exact htrue

theorem exec_mode_prot {i : Instr} {s t : State} (h : exec i s = .next t) (hm : s.mode = .prot) : t.mode = .prot := by
  obtain ⟨hpe, hvm⟩ := s.mode_eq_prot_iff.mp hm
  exact t.mode_eq_prot_iff.mpr ⟨exec_pe_mono h hpe, by rw [exec_vm h, hvm]⟩

theorem exec_mode_v86 {i : Instr} {s t : State} (h : exec i s = .next t) (hm : s.mode = .v86) : t.mode = .v86 := by
  obtain ⟨hpe, hvm⟩ := s.mode_eq_v86_iff.mp hm
  exact t.mode_eq_v86_iff.mpr ⟨exec_pe_mono h hpe, by rw [exec_vm h, hvm]⟩

/-- Real Address Mode with VM clear is left for Protected Mode alone. -/
theorem exec_mode_real {i : Instr} {s t : State} (h : exec i s = .next t) (hvm : s.vm = false) :
    t.mode = .real ∨ t.mode = .prot := by
  have hvm' : t.vm = false := by rw [exec_vm h, hvm]
  cases hpe : t.pe with
  | false => exact .inl (t.mode_eq_real_iff.mpr hpe)
  | true => exact .inr (t.mode_eq_prot_iff.mpr ⟨hpe, hvm'⟩)

/-- Settles O25: the mode is PE and VM, of which PE alone can change, set by LMSW. -/
theorem onlyLmswEntersProtectedMode : Obligations.OnlyLmswEntersProtectedMode := by
  intro i s t h
  refine ⟨exec_cpl h, exec_vm h, exec_mode_prot h, exec_mode_v86 h, fun hreal hleft => ?_, fun hagree hreal hleft => ?_⟩
  · rcases exec_pe h with heq | ⟨hlmsw, -⟩
    · exact absurd (t.mode_eq_real_iff.mpr (heq.trans (s.mode_eq_real_iff.mp hreal))) hleft
    · exact hlmsw
  · obtain ⟨hcpl, hvm⟩ := hagree.1 hreal
    exact ⟨(exec_mode_real h hvm).resolve_left hleft, (exec_cpl h).trans hcpl⟩

/-- Settles O26: each load of a system register asks Protected Mode at CPL 0, or a mode that is neither Protected nor
Virtual 8086. -/
theorem systemRegistersNeedPrivilege : Obligations.SystemRegistersNeedPrivilege := by
  intro s t hstep hpriv
  have barred (hm : s.mode ≠ .v86) (hc : s.mode = .prot → s.cpl = 0) : False := by
    rcases hpriv with ⟨hprot, hcpl⟩ | hv86
    · exact hcpl (hc hprot)
    · exact hm hv86
  obtain ⟨i, -, hnext⟩ := step_next hstep
  cases exec_completes hnext with
  | registers | tested | counted => exact ⟨rfl, rfl, rfl, rfl, rfl⟩
  | pointer n z h dst m p u hi hp hu =>
    obtain ⟨v, m, l, k, rfl, -, -⟩ := loadSeg_shape hu
    simp
  | gdt h src d hi hd | idt h src d hi hd =>
    obtain ⟨-, -, -, hm, hc, -⟩ := tableOperand_ok hd
    exact (barred hm hc).elim
  | msw h src v hi hm hc => exact (barred hm hc).elim
  | ldt h src l hi hm hc | task h src sel d p hi hm hc =>
    exact (barred (by rw [hm]; decide) fun _ => hc).elim

/-! ### The invariant, part by part -/

theorem arKept_masked (a : Dword) : arKept (a &&& arMask) := by
  rw [arKept, BitVec.and_assoc, BitVec.and_self]

/-- The limit of a descriptor is 20 raw bits, or ends in twelve set bits (R76). -/
theorem limitForm_byteLimit (d : Desc) : limitForm d.byteLimit := by
  unfold Desc.byteLimit
  split_ifs
  · right
    apply BitVec.eq_of_getLsbD_eq
    intro k _
    have absorb : ∀ a b : Bool, ((a || b) && b) = b := by decide
    rw [BitVec.getLsbD_and, BitVec.getLsbD_or, absorb]
  · left
    rw [BitVec.toNat_setWidth]
    have := d.rawLimit.isLt
    omega

/-- Hidden parts stay what a descriptor can give. -/
theorem exec_hiddenKept {i : Instr} {s t : State} (hnext : exec i s = .next t) (hs : s.hiddenKept) : t.hiddenKept := by
  obtain ⟨hseg, hldt, har, hlim⟩ := hs
  cases exec_completes hnext with
  | pointer n z h dst m p u hi hp hu =>
    obtain ⟨v, m, l, k, rfl, hv, -⟩ := loadSeg_shape hu
    have hloaded : arKept v.ar ∧ limitForm v.limit := by
      rcases hv with ⟨h1, h2⟩ | ⟨d, a, h1, h2⟩
      · rw [h1, h2]
        exact hseg n
      · rw [h1, h2]
        exact ⟨arKept_masked a, limitForm_byteLimit d⟩
    refine ⟨fun q => ?_, by simpa using hldt, by simpa using har, by simpa using hlim⟩
    by_cases hq : q = n
    · simpa [State.seg, hq] using hloaded
    · simpa [State.seg, hq] using hseg q
  | ldt h src l hi hm hc hl =>
    refine ⟨hseg, ?_, har, hlim⟩
    rcases hl with hl | ⟨d, hl⟩
    · exact (congrArg limitForm hl).mpr hldt
    · exact (congrArg limitForm hl).mpr (limitForm_byteLimit d)
  | task h src sel d p => exact ⟨hseg, hldt, arKept_masked _, limitForm_byteLimit d⟩
  | _ => exact ⟨hseg, hldt, har, hlim⟩

theorem exec_jumpPending {i : Instr} {s t : State} (h : exec i s = .next t) :
    t.jumpPending = (s.jumpPending || (!s.pe && t.pe)) :=
  jumpOwedAfterSettingPe.2 i s t h

theorem exec_storedPopulated {i : Instr} {s t : State} (h : exec i s = .next t) (hs : s.storedPopulated) :
    t.storedPopulated := by
  obtain ⟨hnodup, hpop⟩ := hs
  have hkept : ∀ p ∈ s.stored, (memGet t.mem p).isSome = true := fun p hp => by rw [exec_isSome h, hpop p hp]
  rcases exec_mem h with ⟨-, hstored⟩ | ⟨q, b, -, -, hq, -, hstored⟩
  · rw [State.storedPopulated, hstored]
    exact ⟨hnodup, hkept⟩
  · rw [State.storedPopulated, hstored]
    refine ⟨addStored_nodup hnodup q, fun p hp => ?_⟩
    rcases mem_addStored.mp hp with rfl | hp
    · rw [exec_isSome h, hq]
    · exact hkept p hp

/-- CPL agrees with the mode after an instruction: the mode is kept, or Protected Mode is entered with a jump owed. -/
theorem exec_cplAgrees {i : Instr} {s t : State} (h : exec i s = .next t) (hs : s.cplAgrees) : t.cplAgrees := by
  obtain ⟨hreal, hprot, hv86⟩ := hs
  have hcs : t.seg .cs = s.seg .cs := (segmentRegistersFrame i s t h).2
  have hjump := exec_jumpPending h
  cases hm : s.mode with
  | real =>
    obtain ⟨hcpl, hvm⟩ := hreal hm
    refine ⟨fun _ => ⟨by rw [exec_cpl h, hcpl], by rw [exec_vm h, hvm]⟩, fun ht hj => ?_, fun ht => ?_⟩
    · rw [s.mode_eq_real_iff.mp hm, (t.mode_eq_prot_iff.mp ht).1, hj] at hjump
      simp at hjump
    · rcases exec_mode_real h hvm with h' | h' <;> simp [h'] at ht
  | prot =>
    have ht := exec_mode_prot h hm
    refine ⟨fun h' => ?_, fun _ hj => ?_, fun h' => ?_⟩
    · simp [ht] at h'
    · rw [hj] at hjump
      have hj' : s.jumpPending = false := by
        cases hsj : s.jumpPending with
        | false => rfl
        | true => simp [hsj] at hjump
      rw [exec_cpl h, hcs, hprot hm hj']
    · simp [ht] at h'
  | v86 =>
    have ht := exec_mode_v86 h hm
    exact ⟨fun h' => by simp [ht] at h', fun h' => by simp [ht] at h', fun _ => by rw [exec_cpl h, hv86 hm]⟩

theorem exec_memory_wf {i : Instr} {s t : State} (h : exec i s = .next t) (hs : Memory.wf s.mem = true) :
    Memory.wf t.mem = true := by
  rcases exec_mem h with ⟨hmem, -⟩ | ⟨p, b, -, hp, -, hmem, -⟩
  · rw [hmem, hs]
  · rw [hmem]
    exact memSet_wf hs p b hp

theorem exec_jumpOwedOk {i : Instr} {s t : State} (h : exec i s = .next t) (hs : s.jumpOwedOk) : t.jumpOwedOk := by
  intro hj
  rw [exec_jumpPending h] at hj
  cases hsj : s.jumpPending with
  | true => exact exec_pe_mono h (hs hsj)
  | false =>
    rw [hsj] at hj
    simp at hj
    exact hj.2

/-- Settles O27: the step executes one instruction, which keeps each part of the invariant. -/
theorem everyStepKeepsTheInvariant : Obligations.EveryStepKeepsTheInvariant := by
  intro s t hs hstep
  obtain ⟨i, -, h⟩ := step_next hstep
  exact ⟨exec_memory_wf h hs.memory, exec_cplAgrees h hs.cpl, exec_hiddenKept h hs.hidden,
    exec_storedPopulated h hs.stored, exec_jumpOwedOk h hs.jump⟩

/-! ### Launch states and runs -/

/-- A launch state meets the invariant: nothing is stored and no jump is owed yet. -/
theorem State.Launch.inv {given : List (SegName × SegReg)} {n : Nat} {s : State} (h : s.Launch given n) : s.Inv where
  memory := h.memory
  cpl := h.cpl
  hidden := h.hidden
  stored := by simp [State.storedPopulated, h.stored]
  jump := fun hj => by simp [h.jump] at hj

/-- What holds of a state and is kept by every step holds of every state reached from it. -/
theorem State.reaches_induction {P : State → Prop} (hstep : ∀ u v, P u → step u = .next v → P v) {k : Nat}
    {s t : State} (hs : P s) (h : s.reaches k t) : P t := by
  induction k generalizing s with
  | zero => exact h ▸ hs
  | succ k ih =>
    obtain ⟨u, hu, ht⟩ := h
    exact ih (hstep s u hs hu) ht

theorem State.runPopulated_of_reaches {n k : Nat} {s t : State} (hn : s.runPopulated n) (hk : k ≤ n)
    (h : s.reaches k t) : t.runPopulated (n - k) := by
  induction k generalizing s n with
  | zero => exact h ▸ hn
  | succ k ih =>
    obtain ⟨u, hu, ht⟩ := h
    obtain ⟨m, rfl⟩ : ∃ m, n = m + 1 := ⟨n - 1, by omega⟩
    rw [Nat.add_sub_add_right]
    exact ih (hn.2 u hu) (by omega) ht

/-- Settles O28: the values after reset are run through the invariant's clauses; with CS given outright, each other
segment register is what a Real Address Mode load gives. -/
theorem resetMeetsTheInvariant : Obligations.ResetMeetsTheInvariant := by
  have hhidden : State.reset.hiddenKept :=
    ⟨fun n => by cases n <;> exact ⟨by unfold arKept; decide, .inl (by decide)⟩, .inl (by decide),
      by unfold arKept; decide, .inl (by decide)⟩
  have hcpl : State.reset.cplAgrees := ⟨by decide, by decide, by decide⟩
  have hloaded (n : SegName) (hn : n ≠ .cs) : State.reset.segLoaded n :=
    .inl ⟨by
      cases n with
      | cs => exact absurd rfl hn
      | _ => rfl, fun hp => by simp [State.mode] at hp⟩
  have hlaunch : State.reset.Launch [(.cs, State.reset.segs.cs)] 0 :=
    { memory := rfl, cpl := hcpl, hidden := hhidden, populated := trivial, stored := rfl, jump := rfl
      segs := ⟨by simp [State.seg, Segs.get], fun n => by
        by_cases hn : n = .cs
        · exact .inl (by simp [hn])
        · exact .inr (hloaded n hn)⟩ }
  exact ⟨hlaunch.inv, hlaunch⟩

/-- A run begun in Protected Mode with no jump owed stays so. -/
theorem reaches_prot {k : Nat} {s t : State} (h : s.reaches k t) (hm : s.mode = .prot) (hj : s.jumpPending = false) :
    t.mode = .prot ∧ t.jumpPending = false := by
  refine State.reaches_induction (P := fun u => u.mode = .prot ∧ u.jumpPending = false) ?_ ⟨hm, hj⟩ h
  rintro u v ⟨hum, huj⟩ hstep
  obtain ⟨i, -, hexec⟩ := step_next hstep
  refine ⟨exec_mode_prot hexec hum, ?_⟩
  rw [exec_jumpPending hexec, huj, (u.mode_eq_prot_iff.mp hum).1]
  rfl

theorem reaches_v86 {k : Nat} {s t : State} (h : s.reaches k t) (hm : s.mode = .v86) : t.mode = .v86 := by
  refine State.reaches_induction (P := fun u => u.mode = .v86) (fun u v hu hstep => ?_) hm h
  obtain ⟨i, -, hexec⟩ := step_next hstep
  exact exec_mode_v86 hexec hu

/-- A run begun in Real Address Mode with VM clear keeps CPL, and leaves the mode with a jump owed, where it ends. -/
theorem reaches_real {k : Nat} {s t : State} (h : s.reaches k t) (hm : s.mode = .real) (hvm : s.vm = false) :
    t.cpl = s.cpl ∧ (t.mode = .real ∨ t.mode = .prot ∧ t.jumpPending = true) := by
  have hall := State.reaches_induction
    (P := fun u => u.vm = false ∧ u.cpl = s.cpl ∧ (u.mode = .real ∨ u.mode = .prot ∧ u.jumpPending = true))
    (k := k) (s := s) (t := t) ?_ ⟨hvm, rfl, .inl hm⟩ h
  · exact hall.2
  · rintro u v ⟨huvm, hucpl, humode⟩ hstep
    obtain ⟨i, hfetch, hexec⟩ := step_next hstep
    refine ⟨by rw [exec_vm hexec, huvm], by rw [exec_cpl hexec, hucpl], ?_⟩
    rcases humode with hreal | ⟨-, hj⟩
    · rcases exec_mode_real hexec huvm with hv | hv
      · exact .inl hv
      · refine .inr ⟨hv, ?_⟩
        rw [exec_jumpPending hexec, u.mode_eq_real_iff.mp hreal, (v.mode_eq_prot_iff.mp hv).1]
        simp
    · rw [fetchInstr_of_jump hj] at hfetch
      cases hfetch

/-- Settles O29: each clause is kept by every step, so it holds along the run. -/
theorem launchRunsAreSound : Obligations.LaunchRunsAreSound := by
  intro given n s hl k t hk h
  have hinv : t.Inv := State.reaches_induction everyStepKeepsTheInvariant hl.inv h
  refine ⟨hinv, fun hm => ?_, fun hm => ?_, fun hm => ?_, fun a => ?_, fun hlt => ?_⟩
  · obtain ⟨htm, htj⟩ := reaches_prot h hm hl.jump
    exact ⟨htm, htj, hinv.cpl.2.1 htm htj⟩
  · have htm := reaches_v86 h hm
    exact ⟨htm, hinv.cpl.2.2 htm⟩
  · obtain ⟨hcpl, hvm⟩ := hl.cpl.1 hm
    obtain ⟨htcpl, htm⟩ := reaches_real h hm hvm
    exact ⟨htcpl.trans hcpl, htm⟩
  · exact State.reaches_induction (P := fun u => (memGet u.mem a).isSome = (memGet s.mem a).isSome)
      (fun u v hu hstep => (populatedAddressesKept u v hstep a).trans hu) rfl h
  · have hpop := State.runPopulated_of_reaches hl.populated hk h
    obtain ⟨m, hm⟩ : ∃ m, n - k = m + 1 := ⟨n - k - 1, by omega⟩
    rw [hm] at hpop
    exact hpop.1

end Sys2Proof.Machine
end

section
/-! Exceptions (R300 to R309, R317): what a step can raise, in which mode, with which state. -/

namespace Sys2Proof.Machine

/-! ### Raised by an instruction -/

/-- An instruction raises #UD for a cause of R302, or an exception that its mode allows, with the state before it. -/
theorem exec_raises {i : Instr} {s : State} {f : Fault} (hf : exec i s = .fault f) :
    ∃ x, f = .exception x s ∧ ((x = .ud ∧ udCause i s) ∨ Raisable s x) := by
  cases i with
  | lahf h => cases hf
  | lar16 h dst src | lar32 h dst src =>
    obtain ⟨x, hx, rfl⟩ := complete_fault hf
    exact ⟨x, rfl, (larOp_raises hx).imp And.symm And.right⟩
  | lsl16 h dst src | lsl32 h dst src =>
    obtain ⟨x, hx, rfl⟩ := complete_fault hf
    exact ⟨x, rfl, (lslOp_raises hx).imp And.symm And.right⟩
  | lldt h src =>
    obtain ⟨x, hx, rfl⟩ := complete_fault hf
    exact ⟨x, rfl, (lldtOp_raises hx).imp And.symm And.right⟩
  | ltr h src =>
    obtain ⟨x, hx, rfl⟩ := complete_fault hf
    exact ⟨x, rfl, (ltrOp_raises hx).imp And.symm And.right⟩
  | lea16 h dst src | lea32 h dst src =>
    cases src with
    | reg r => cases hf; exact ⟨_, rfl, .inl ⟨rfl, r, rfl⟩⟩
    | mem m => cases hf
  | leave h =>
    obtain ⟨x, hx, rfl⟩ := complete_fault hf
    exact ⟨x, rfl, .inr (leaveOp_raises hx)⟩
  | lgdt h src | lidt h src =>
    obtain ⟨x, hx, rfl⟩ := complete_fault hf
    rcases (bind_eq_error _ _ _).mp hx with hx | ⟨t, -, hx⟩
    · exact ⟨x, rfl, (tableOperand_raises hx).imp And.symm And.right⟩
    · cases hx
  | lds16 h dst src | lds32 h dst src | lss16 h dst src | lss32 h dst src | les16 h dst src | les32 h dst src
  | lfs16 h dst src | lfs32 h dst src | lgs16 h dst src | lgs32 h dst src =>
    obtain ⟨x, hx, rfl⟩ := complete_fault hf
    exact ⟨x, rfl, (farOp_raises hx).imp And.symm And.right⟩
  | lmsw h src =>
    obtain ⟨x, hx, rfl⟩ := complete_fault hf
    exact ⟨x, rfl, .inr (lmswOp_raises hx)⟩
  | lock h target =>
    cases target with
    | inScope r => cases hf; exact ⟨_, rfl, .inl ⟨rfl, trivial⟩⟩
    | outOfScope o => cases hf
  | lods8 h | lodsb h | lods16 h | lodsw h | lods32 h | lodsd h =>
    obtain ⟨x, hx, rfl⟩ := complete_fault hf
    exact ⟨x, rfl, .inr (lodsOp_raises hx)⟩
  | loop h rel | loope h rel | loopz h rel | loopne h rel | loopnz h rel =>
    obtain ⟨x, hx, rfl⟩ := complete_fault hf
    exact ⟨x, rfl, .inr (loopOp_raises hx)⟩

/-- An operation that asks Protected Mode first is #UD elsewhere (R302 e). -/
theorem complete_unprotected {s : State} (hm : s.mode ≠ .prot) (f : Unit → Res State) :
    complete s (requireProtected s >>= f) = .fault (.exception .ud s) := by
  rw [requireProtected_error hm]
  rfl

theorem exec_ud_of_cause {i : Instr} {s : State} (h : udCause i s) : exec i s = .fault (.exception .ud s) := by
  cases i with
  | lock hd target =>
    cases target with
    | inScope r => rfl
    | outOfScope o => cases h
  | lar16 | lar32 | lsl16 | lsl32 | lldt | ltr => exact complete_unprotected h _
  | lea16 | lea32 | lgdt | lidt | lds16 | lds32 | lss16 | lss32 | les16 | les32 | lfs16 | lfs32 | lgs16 | lgs32 =>
    obtain ⟨r, rfl⟩ := h
    rfl
  | _ => cases h

/-- Settles O22: what an instruction raises without a cause of R302 is no #UD. -/
theorem undefinedOpcodeCauses : Obligations.UndefinedOpcodeCauses := by
  refine fun i s => ⟨fun hf => ?_, exec_ud_of_cause⟩
  obtain ⟨x, hx, ⟨-, hcause⟩ | hr⟩ := exec_raises hf
  · exact hcause
  · cases hx
    exact absurd rfl hr.1

/-! ### Raised by the fetch -/

theorem fetchByte_raises {off : Dword} {s : State} {x : Exception} (h : fetchByte off s = .error (.raised x)) :
    Raisable s x := by
  simp only [fetchByte, bind_eq_error] at h
  rcases h with h | ⟨_, _, h | ⟨_, _, h | ⟨_, _, h⟩⟩⟩
  · exact segCheck_raises h
  · exact translate_raises h
  · exact absurd h refuseIf_raised
  · exact absurd h readCell_not_raised

theorem fetchWindow_raises {s : State} {n : Nat} {off : Dword} {x : Exception}
    (h : (fetchWindow s n off).2 = .raised x) : Raisable s x := by
  induction n generalizing off with
  | zero => cases h
  | succ n ih =>
    cases hb : fetchByte off s with
    | ok b =>
      simp only [fetchWindow, hb] at h
      exact ih h
    | error e =>
      simp only [fetchWindow, hb] at h
      exact fetchByte_raises (hb.trans (congrArg Except.error h))

theorem fetchInstr_raises {s : State} {x : Exception} (h : fetchInstr s = .error (.raised x)) : Raisable s x := by
  cases hj : s.jumpPending with
  | true =>
    rw [fetchInstr_of_jump hj] at h
    cases h
  | false =>
    rw [fetchInstr_eq hj] at h
    cases hdec : decode s.defaultSize (fetchWindow s Config.maxInstrLen s.eip).1 with
    | instr i => rw [hdec] at h; cases h
    | rejected r => rw [hdec] at h; cases h
    | more =>
      rw [hdec] at h
      exact fetchWindow_raises (Except.error.inj h)

/-! ### Raised by a step -/

/-- A step raises #UD, or an exception that its mode allows, with the state before it. -/
theorem step_raises {s : State} {f : Fault} (h : step s = .fault f) :
    ∃ x, f = .exception x s ∧ (x = .ud ∨ Raisable s x) := by
  cases hfetch : fetchInstr s with
  | ok i =>
    rw [step_of_ok hfetch] at h
    obtain ⟨x, hx, ⟨hud, -⟩ | hr⟩ := exec_raises h
    · exact ⟨x, hx, .inl hud⟩
    · exact ⟨x, hx, .inr hr⟩
  | error e =>
    rw [step_of_error hfetch] at h
    cases e with
    | refused r => cases h
    | raised x =>
      cases h
      exact ⟨x, rfl, .inr (fetchInstr_raises hfetch)⟩

/-- Settles O21: whatever raises carries the state of the step. -/
theorem exceptionsArePrecise : Obligations.ExceptionsArePrecise := by
  intro s f h
  obtain ⟨x, hx, -⟩ := step_raises h
  exact ⟨x, hx⟩

/-- Settles O24: #UD has no code, and every other exception is one the mode allows. -/
theorem errorCodesByMode : Obligations.ErrorCodesByMode := by
  intro s u x h
  obtain ⟨y, hy, rfl | ⟨-, hout, hprot, hcode, -⟩⟩ := step_raises h
  · cases hy
    exact ⟨fun _ => .inl rfl, fun _ => by simp, fun c hc => by simp at hc⟩
  · cases hy
    exact ⟨fun hm => .inr (hout hm), hprot, hcode⟩

/-- Settles O23: `translate` consults `PageTranslate` in one case only, and no other operation raises a page fault. -/
theorem pageFaultNeedsPaging : Obligations.PageFaultNeedsPaging := by
  refine fun s => ⟨fun hid => ⟨translate_identity hid, fun u code lin h => ?_⟩, fun hm hpg a acc lvl => ?_⟩
  · obtain ⟨x, hx, rfl | ⟨-, -, -, -, hpf⟩⟩ := step_raises h
    · cases hx
    · cases hx
      obtain ⟨hm, hpg⟩ := hpf code lin rfl
      rcases hid with hreal | hoff
      · exact hm hreal
      · rw [hpg] at hoff
        cases hoff
  · have hpaged : ¬(s.mode = .real ∨ s.pg = false) := by simp [hm, hpg]
    refine ⟨fun p hp => ?_, fun code hcode => ?_⟩
    · rw [translate, if_neg hpaged, hp]
    · rw [translate, if_neg hpaged, hcode]
      rfl

end Sys2Proof.Machine
end

section
/-! The segment checks (R70 to R75), and the reads, writes and fetches that pass or fail them. -/

namespace Sys2Proof.Machine

open Config (Access Level)

/-! ### The tests of R71 to R73 -/

/-- The limit test by the direction of expansion (R72; log 17). -/
theorem limitOk_iff (r : SegReg) (off : Dword) (n : Nat) :
    limitOk r off n = true ↔
      (isExpandDown r.ar = true ∧ r.limit.toNat < off.toNat
          ∧ off.toNat + n - 1 ≤ if r.ar.getLsbD 22 = true then 0xFFFFFFFF else 0xFFFF)
        ∨ (isExpandDown r.ar = false ∧ off.toNat + n - 1 ≤ r.limit.toNat) := by
  unfold limitOk
  cases isExpandDown r.ar with
  | true => simp [attrBig]
  | false => simp

theorem segCheck_invalid {s : State} {n : SegName} (hm : s.mode = .prot) (hv : (s.seg n).valid = false) (off : Dword)
    (len : Nat) (acc : Access) : segCheck n off len acc s = .error (.raised gp0) := by
  simp [segCheck, hm, require_neg, hv]

/-- Beyond the limit and of the wrong type is the same exception (R72, R73). -/
theorem segCheck_fault {s : State} {n : SegName} {off : Dword} {len : Nat} {acc : Access} (hm : s.mode = .prot)
    (hv : (s.seg n).valid = true) (h : ¬(limitOk (s.seg n) off len = true ∧ typeOk (s.seg n) acc = true)) :
    segCheck n off len acc s = .error (.raised (segFault n)) := by
  simp only [segCheck, hm, require_pos hv, ok_bind]
  by_cases hl : limitOk (s.seg n) off len = true
  · rw [require_pos hl, ok_bind, require_neg fun ht => h ⟨hl, ht⟩]
  · rw [require_neg hl, error_bind]

theorem segRead_error {s : State} {n : SegName} {off : Dword} {len : Nat} {e : Stop}
    (h : segCheck n off len .read s = .error e) : segRead n off len s = .error e := by
  rw [segRead, h, error_bind]

theorem segRead_of_check {s : State} {n : SegName} {off : Dword} {len : Nat} (h : segCheck n off len .read s = .ok ()) :
    segRead n off len s = memRead (s.linear n off) len s.level s := by
  rw [segRead, h, ok_bind]

theorem segWrite_error {s : State} {n : SegName} {off : Dword} {len : Nat} {e : Stop} (v : BitVec 64)
    (h : segCheck n off len .write s = .error e) : segWrite n off len v s = .error e := by
  rw [segWrite, h, error_bind]

theorem segWrite_of_check {s : State} {n : SegName} {off : Dword} {len : Nat} (v : BitVec 64)
    (h : segCheck n off len .write s = .ok ()) :
    segWrite n off len v s = memWrite (s.linear n off) len v s.level s := by
  rw [segWrite, h, ok_bind]

/-- Settles O35: outside Protected Mode the check is the 64K bound alone. -/
theorem segmentCheckOutsideProtectedMode : Obligations.SegmentCheckOutsideProtectedMode := by
  intro n off len v s hm _
  refine ⟨fun hout => ?_, fun hin => ?_⟩
  · have hcheck (acc : Access) : segCheck n off len acc s = .error (.raised (.gp none)) := by
      rw [segCheck_real hm, require_neg (by rw [decide_eq_true_eq]; omega)]
      rfl
    exact ⟨segRead_error (hcheck .read), segWrite_error v (hcheck .write)⟩
  · have hcheck (acc : Access) : segCheck n off len acc s = .ok () := by
      rw [segCheck_real hm, require_pos (by rw [decide_eq_true_eq]; omega)]
    exact ⟨segRead_of_check (hcheck .read), segWrite_of_check v (hcheck .write)⟩

theorem segFault_eq (n : SegName) : segFault n = if n = .ss then .ss 0 else .gp (some 0) := by
  cases n <;> rfl

theorem isExpandDown_iff (ar : Dword) :
    isExpandDown ar = true ↔ (ar.getLsbD 12 = true ∧ ar.getLsbD 11 = false) ∧ ar.getLsbD 10 = true := by
  simp [isExpandDown, isData, attrS]

theorem typeOk_read_iff (r : SegReg) :
    typeOk r .read = true ↔ ¬((r.ar.getLsbD 12 = true ∧ r.ar.getLsbD 11 = true) ∧ r.ar.getLsbD 9 = false) := by
  simp only [typeOk, isReadableCode, isCode, attrS]
  cases r.ar.getLsbD 12 <;> cases r.ar.getLsbD 11 <;> cases r.ar.getLsbD 9 <;> decide

theorem typeOk_write_iff (r : SegReg) :
    typeOk r .write = true ↔ ¬(r.ar.getLsbD 12 = true ∧ r.ar.getLsbD 11 = true)
      ∧ ¬((r.ar.getLsbD 12 = true ∧ r.ar.getLsbD 11 = false) ∧ r.ar.getLsbD 9 = false) := by
  simp only [typeOk, isWritableData, isData, isCode, attrS]
  cases r.ar.getLsbD 12 <;> cases r.ar.getLsbD 11 <;> cases r.ar.getLsbD 9 <;> decide

/-- Settles O36: the clauses are the tests of `segCheck`, written out in bits. -/
theorem segmentChecksInProtectedMode : Obligations.SegmentChecksInProtectedMode := by
  intro n off len v s hm _ r bad data code within readable writable
  have hlimit : limitOk (s.seg n) off len = true ↔ within := by
    have hdown : isExpandDown (s.seg n).ar = true ↔ data ∧ r.ar.getLsbD 10 = true := isExpandDown_iff r.ar
    rw [limitOk_iff, ← Bool.not_eq_true, hdown, and_assoc]
  have hread : typeOk (s.seg n) .read = true ↔ readable := typeOk_read_iff r
  have hwrite : typeOk (s.seg n) .write = true ↔ writable := typeOk_write_iff r
  have hbad : segFault n = bad := segFault_eq n
  refine ⟨fun hv => ?_, fun hv hnot => ?_, fun hv hin hok => ?_, fun hv hnot => ?_, fun hv hin hok => ?_⟩
  · exact ⟨segRead_error (segCheck_invalid hm hv off len .read),
      segWrite_error v (segCheck_invalid hm hv off len .write)⟩
  · rw [← hlimit, ← hread] at hnot
    rw [← hbad]
    exact segRead_error (segCheck_fault hm hv hnot)
  · exact segRead_of_check ((segCheck_prot_ok hm n off len .read ()).mpr ⟨hv, hlimit.mpr hin, hread.mpr hok⟩)
  · rw [← hlimit, ← hwrite] at hnot
    rw [← hbad]
    exact segWrite_error v (segCheck_fault hm hv hnot)
  · exact segWrite_of_check v ((segCheck_prot_ok hm n off len .write ()).mpr ⟨hv, hlimit.mpr hin, hwrite.mpr hok⟩)

/-! ### The fetch of a byte (R75) -/

theorem fetchByte_error {off : Dword} {s : State} {e : Stop} (h : segCheck .cs off 1 .fetch s = .error e) :
    fetchByte off s = .error e := by
  rw [fetchByte, h, error_bind]

theorem fetchByte_of_check {off : Dword} {s : State} (h : segCheck .cs off 1 .fetch s = .ok ()) :
    fetchByte off s = translate (s.linear .cs off) .fetch .supervisor s >>= fun p =>
      refuseIf (decide (p ∈ s.stored)) (.executesStoredByte p) >>= fun _ => readCell s.mem p := by
  rw [fetchByte, h, ok_bind]

/-- A translated byte that passed the checks: refused if stored, else read. -/
theorem fetchByte_of_translate {off : Dword} {s : State} {p : Nat} (h : segCheck .cs off 1 .fetch s = .ok ())
    (hp : translate (s.linear .cs off) .fetch .supervisor s = .ok p) :
    fetchByte off s = if p ∈ s.stored then .error (.refused (.executesStoredByte p)) else readCell s.mem p := by
  rw [fetchByte_of_check h, hp, ok_bind]
  by_cases hs : p ∈ s.stored
  · simp [hs, refuseIf, refuse]
  · simp [hs, refuseIf]

/-- Settles O12: the check of the mode, then translation, then the byte. -/
theorem fetchChecks : Obligations.FetchChecks := by
  intro off s cs top within
  have hlimit : limitOk (s.seg .cs) off 1 = true ↔ within := limitOk_iff cs off 1
  refine ⟨fun hm hout => ?_, fun hm hnot => ?_, fun hpass => ?_⟩
  · refine fetchByte_error ?_
    rw [segCheck_real hm, require_neg (by rw [decide_eq_true_eq]; omega)]
    rfl
  · refine fetchByte_error ?_
    cases hv : cs.valid with
    | false => exact segCheck_invalid (n := .cs) hm hv off 1 .fetch
    | true =>
      have hout : ¬within := hnot.resolve_left (by simp [hv])
      exact segCheck_fault (n := .cs) hm hv fun h => hout (hlimit.mp h.1)
  · have hcheck : segCheck .cs off 1 .fetch s = .ok () := by
      rcases hpass with ⟨hm, hin⟩ | ⟨hm, hv, hin⟩
      · rw [segCheck_real hm, require_pos (by rw [decide_eq_true_eq]; omega)]
      · exact (segCheck_prot_ok hm .cs off 1 .fetch ()).mpr ⟨hv, hlimit.mpr hin, rfl⟩
    refine ⟨fun x hx => ?_, fun p hp => ⟨fun hs => ?_, fun b hs hb => ?_, fun hs hb => ?_⟩⟩
    · have hx' : translate (s.linear .cs off) .fetch .supervisor s = .error (.raised x) := hx
      rw [fetchByte_of_check hcheck, hx', error_bind]
    · rw [fetchByte_of_translate hcheck hp, if_pos hs]
    · rw [fetchByte_of_translate hcheck hp, if_neg hs, readCell_ok.mpr hb]
    · rw [fetchByte_of_translate hcheck hp, if_neg hs, readCell, hb]
      rfl

end Sys2Proof.Machine
end

section
/-! Registers, memory and descriptors: the read after each write, byte by byte (R20 to R23, R60 to R67, R76, R77). -/

namespace Sys2Proof.Machine

open Config (Access Level)

/-! ### Byte registers (R22, R23) -/

/-- A doubleword with its low byte replaced. -/
def putLow (x : Dword) (v : Byte) : Dword := x.extractLsb' 8 24 ++ v

/-- A doubleword with its second byte replaced. -/
def putHigh (x : Dword) (v : Byte) : Dword := x.extractLsb' 16 16 ++ v ++ x.extractLsb' 0 8

theorem putLow_byte0 (x : Dword) (v : Byte) : (putLow x v).extractLsb' 0 8 = v := extract_low _ _

theorem putLow_above (x : Dword) (v : Byte) : (putLow x v).extractLsb' 8 24 = x.extractLsb' 8 24 := extract_high _ _

theorem putLow_byte1 (x : Dword) (v : Byte) : (putLow x v).extractLsb' 8 8 = x.extractLsb' 8 8 :=
  (extract_high_of (x.extractLsb' 8 24) v 0 8).trans (extract_extract x 8 24 0 8 (by decide))

theorem putLow_half (x : Dword) (v : Byte) : (putLow x v).extractLsb' 16 16 = x.extractLsb' 16 16 :=
  (extract_high_of (x.extractLsb' 8 24) v 8 16).trans (extract_extract x 8 24 8 16 (by decide))

theorem putHigh_byte0 (x : Dword) (v : Byte) : (putHigh x v).extractLsb' 0 8 = x.extractLsb' 0 8 := extract_low _ _

theorem putHigh_byte1 (x : Dword) (v : Byte) : (putHigh x v).extractLsb' 8 8 = v :=
  (extract_high_of (x.extractLsb' 16 16 ++ v) (x.extractLsb' 0 8) 0 8).trans (extract_low _ _)

theorem putHigh_half (x : Dword) (v : Byte) : (putHigh x v).extractLsb' 16 16 = x.extractLsb' 16 16 :=
  (extract_high_of (x.extractLsb' 16 16 ++ v) (x.extractLsb' 0 8) 8 16).trans (extract_high _ _)

/-- A byte register is written into its parent alone. -/
theorem State.r32_setR8 (s : State) (g : Reg8) (v : Byte) (q : Reg) :
    (s.setR8 g v).r32 q =
      if q = reg8Parent g then (if reg8High g then putHigh (s.r32 q) v else putLow (s.r32 q) v) else s.r32 q := by
  rw [State.setR8, State.r32_setR32]
  split
  · subst q
    rfl
  · rfl

theorem State.r8_eq (s : State) (g : Reg8) :
    s.r8 g = (s.r32 (reg8Parent g)).extractLsb' (if reg8High g then 8 else 0) 8 := rfl

/-- The byte register at a place of a parent: the inverse of `reg8Parent` and `reg8High`. -/
def reg8At : Reg → Bool → Reg8
  | .eax, high => if high then .ah else .al
  | .ecx, high => if high then .ch else .cl
  | .edx, high => if high then .dh else .dl
  | _, high => if high then .bh else .bl

theorem reg8At_parent_high (g : Reg8) : reg8At (reg8Parent g) (reg8High g) = g := by
  cases g <;> rfl

/-- A byte register is determined by its parent and its place in it. -/
theorem reg8_ext {k g : Reg8} (hp : reg8Parent k = reg8Parent g) (hh : reg8High k = reg8High g) : k = g := by
  rw [← reg8At_parent_high k, hp, hh, reg8At_parent_high]

theorem State.r8_setR8_same (s : State) (g : Reg8) (v : Byte) : (s.setR8 g v).r8 g = v := by
  rw [State.r8_eq, State.r32_setR8, if_pos rfl]
  cases reg8High g with
  | true => exact putHigh_byte1 _ v
  | false => exact putLow_byte0 _ v

theorem State.r8_setR8_ne (s : State) {k g : Reg8} (hkg : k ≠ g) (v : Byte) : (s.setR8 g v).r8 k = s.r8 k := by
  rw [State.r8_eq, State.r8_eq, State.r32_setR8]
  by_cases hp : reg8Parent k = reg8Parent g
  · rw [if_pos hp]
    have hne : reg8High k ≠ reg8High g := fun hh => hkg (reg8_ext hp hh)
    cases hk : reg8High k <;> cases hg : reg8High g
    · exact absurd (hk.trans hg.symm) hne
    · exact putHigh_byte0 _ v
    · exact putLow_byte1 _ v
    · exact absurd (hk.trans hg.symm) hne
  · rw [if_neg hp]

theorem State.half_setR8 (s : State) (g : Reg8) (v : Byte) :
    ((s.setR8 g v).r32 (reg8Parent g)).extractLsb' 16 16 = (s.r32 (reg8Parent g)).extractLsb' 16 16 := by
  rw [State.r32_setR8, if_pos rfl]
  cases reg8High g with
  | true => exact putHigh_half _ v
  | false => exact putLow_half _ v

/-- Settles O31: each clause is a field of `putLow`, `putHigh` or a joined half. -/
theorem subRegisterWrites : Obligations.SubRegisterWrites := by
  intro s r q v g k b
  refine ⟨rfl, ?_, ?_, fun hq => ?_, rfl, rfl, rfl, s.r8_setR8_same g b, fun hk => s.r8_setR8_ne hk b, s.half_setR8 g b,
    fun hq => ?_, rfl, ?_, s.half_setR8 .ah b, ?_⟩
  · rw [State.r16, State.r32_setR16, if_pos rfl, low_half]
  · rw [State.r32_setR16, if_pos rfl, high_half]
  · rw [State.r32_setR16, if_neg hq]
  · rw [State.r32_setR8, if_neg hq]
  · rw [State.r32_setR8]
    exact putLow_above _ b
  · rw [State.r32_setR8]
    exact putHigh_byte0 _ b

/-! ### Cells and ranges of bytes -/

/-- Settles O32: `memSet` against `memGet` and the rising order. -/
theorem storedByteReadsBack : Obligations.StoredByteReadsBack := by
  refine fun m a q b => ⟨?_, fun hq => ?_, fun hm ha => memSet_wf hm a b ha⟩
  · rw [memGet_memSet, if_pos rfl]
  · rw [memGet_memSet, if_neg hq]

/-- The value of `n` bytes has no bit above them. -/
theorem leValue_lt (bs : List Byte) : (leValue bs).toNat < 2 ^ (8 * bs.length) := by
  refine Nat.lt_pow_two_of_testBit _ fun i hi => ?_
  rw [BitVec.testBit_toNat]
  by_cases h64 : i < 64
  · rw [leValue_getLsbD bs i h64, List.getD_eq_default _ _ (by omega)]
    simp
  · exact BitVec.getLsbD_of_ge _ i (by omega)

/-- A read of bytes that are all translated and populated (R66). -/
theorem memRead_ok_of {a : Dword} {n : Nat} {lvl : Level} {s : State} {f : Nat → Nat} {g : Nat → Byte}
    (hf : ∀ k, k < n → translate (a + BitVec.ofNat 32 k) .read lvl s = .ok (f k))
    (hg : ∀ k, k < n → memGet s.mem (f k) = some (g k)) :
    memRead a n lvl s = .ok (leValue ((List.range n).map g)) :=
  memRead_ok.mpr ⟨_, _, translateRange_ok_of hf, readCells_ok_of hg, rfl⟩

theorem getD_map_range (n k : Nat) (g : Nat → Byte) (hk : k < n) : ((List.range n).map g).getD k 0 = g k := by
  rw [List.getD_eq_getElem _ _ (by simpa using hk)]
  simp

/-- Settles O33: the bytes are translated in order, then read in order, then joined. -/
theorem memReadIsLittleEndian : Obligations.MemReadIsLittleEndian := by
  intro a n lvl s hn
  refine ⟨fun k x hk hbefore hx => ?_, fun f hf => ⟨fun k hk hbefore hnone => ?_, fun g hg => ?_⟩, ?_⟩
  · rw [memRead, translateRange_error_of hk hbefore hx, error_bind]
  · rw [memRead, translateRange_ok_of hf, ok_bind, readCells_error_of hk hbefore hnone, error_bind]
  · refine ⟨_, memRead_ok_of hf hg, ?_, fun k hk => ?_⟩
    · have hlt := leValue_lt ((List.range n).map g)
      rwa [List.length_map, List.length_range] at hlt
    · rw [leValue_byte _ k (by omega), getD_map_range n k g hk]
  · unfold State.level
    split_ifs with hc
    · exact iff_of_true rfl hc
    · exact iff_of_false (by decide) hc

/-- The bytes of a value, joined again: the value with the bits above them cleared. -/
theorem leValue_bytes (v : BitVec 64) (n : Nat) :
    leValue ((List.range n).map fun k => v.extractLsb' (8 * k) 8) = v &&& BitVec.ofNat 64 (2 ^ (8 * n) - 1) := by
  apply BitVec.eq_of_getLsbD_eq
  intro i hi
  rw [leValue_getLsbD _ i hi, BitVec.getLsbD_and, BitVec.getLsbD_ofNat, Nat.testBit_two_pow_sub_one]
  by_cases hin : i / 8 < n
  · rw [getD_map_range n _ _ hin, BitVec.getLsbD_extractLsb', show 8 * (i / 8) + i % 8 = i by omega]
    simp [hi, show i % 8 < 8 by omega, show i < 8 * n by omega]
  · rw [List.getD_eq_default _ _ (by rw [List.length_map, List.length_range]; omega)]
    simp [show ¬ i < 8 * n by omega]

/-- The addresses of a short range differ. -/
theorem range_addr_inj {a : Dword} {n : Nat} (hn : n ≤ 2 ^ 32) (j k : Nat) (hj : j < n) (hk : k < n)
    (h : (a + BitVec.ofNat 32 j).toNat = (a + BitVec.ofNat 32 k).toNat) : j = k := by
  have ha := a.isLt
  simp only [BitVec.toNat_add, BitVec.toNat_ofNat] at h
  omega

/-- Settles O34: with the identity as translation the addresses are those of the range, which differ, and the read finds
what the write left there. -/
theorem memWriteThenRead : Obligations.MemWriteThenRead := by
  intro a n v lvl s t hn hid hwrite
  have hrange : translateRange .write lvl s n a = .ok ((List.range n).map fun k => (a + BitVec.ofNat 32 k).toNat) :=
    translateRange_ok_of fun k _ => translate_identity hid _ _ _
  simp only [memWrite, hrange, ok_bind, bind_eq_ok, Except.ok.injEq] at hwrite
  obtain ⟨m, hm, rfl⟩ := hwrite
  obtain ⟨hbytes, hothers⟩ := writeCells_spec (fun j k hj hk h => range_addr_inj (by omega) j k hj hk h) hm
  refine ⟨hbytes, hothers, fun q => ?_, ?_⟩
  · rw [State.withStored_stored, mem_foldl_addStored, or_comm]
    simp [eq_comm]
  · refine Eq.trans (memRead_ok_of (f := fun k => (a + BitVec.ofNat 32 k).toNat) (g := fun k => v.extractLsb' (8 * k) 8)
      (fun k _ => translate_identity hid _ _ _) ?_) (by rw [leValue_bytes])
    exact hbytes

/-! ### Descriptors (R76, R77) -/

theorem descFetch_of_inTable {sel : Word} {s : State} (h : s.inTable sel = true) :
    descFetch sel s = memRead (s.descAddr sel) 8 .supervisor s >>= fun v =>
      .ok (some ⟨v.extractLsb' 0 32, v.extractLsb' 32 32, s.descAddr sel⟩) := by
  rw [descFetch, if_pos h]

theorem State.table_ldt {sel : Word} {s : State} (h : sel.getLsbD 2 = true) :
    s.table sel = (s.ldtr.base, s.ldtr.limit.toNat, s.ldtr.valid) := if_pos h

theorem State.table_gdt {sel : Word} {s : State} (h : sel.getLsbD 2 = false) :
    s.table sel = (s.gdtr.base, s.gdtr.limit.toNat, true) := if_neg (by rw [selTI, h]; decide)

/-- Settles O37: the clauses are `State.table`, `State.descAddr` and `State.inTable` by the TI bit. -/
theorem descriptorFetch : Obligations.DescriptorFetch := by
  intro sel s base limit usable index
  have hin : s.inTable sel = true ↔ usable ∧ 8 * index + 7 ≤ limit := by
    rw [State.inTable, selIndex_eq, Bool.and_eq_true, decide_eq_true_eq]
    cases hti : sel.getLsbD 2 with
    | true => simp only [State.table_ldt hti, usable, limit, index, hti, if_true, true_implies]
    | false =>
      simp only [State.table_gdt hti, usable, limit, index, hti, Bool.false_eq_true, if_false, false_implies]
  have haddr : s.descAddr sel = base + BitVec.ofNat 32 (8 * index) := by
    rw [State.descAddr, selIndex_eq]
    cases hti : sel.getLsbD 2 with
    | true => simp only [State.table_ldt hti, base, index, hti, if_true]
    | false => simp only [State.table_gdt hti, base, index, hti, Bool.false_eq_true, if_false]
  refine ⟨fun hout => ?_, fun husable hlimit => ⟨fun v hv => ?_, fun e he => ?_⟩⟩
  · exact descFetch_none (by rw [← Bool.not_eq_true, hin]; exact hout)
  · rw [descFetch_of_inTable (hin.mpr ⟨husable, hlimit⟩), haddr, hv, ok_bind]
    exact ⟨_, rfl, rfl, rfl, rfl⟩
  · rw [descFetch_of_inTable (hin.mpr ⟨husable, hlimit⟩), haddr, he, error_bind]

/-- An append is the sum of its parts, the high one shifted. -/
theorem toNat_append_eq {n m : Nat} (a : BitVec n) (b : BitVec m) :
    (a ++ b).toNat = a.toNat * 2 ^ m + b.toNat := by
  rw [BitVec.toNat_append, ← Nat.shiftLeft_add_eq_or_of_lt b.isLt, Nat.shiftLeft_eq]

theorem Desc.rawLimit_toNat (d : Desc) :
    d.rawLimit.toNat = (d.hi.extractLsb' 16 4).toNat * 65536 + (d.lo.extractLsb' 0 16).toNat :=
  toNat_append_eq _ _

/-- The limit in bytes, by the granularity bit (R262). -/
theorem Desc.byteLimit_toNat (d : Desc) :
    d.byteLimit.toNat = if d.hi.getLsbD 23 = true then d.rawLimit.toNat * 4096 + 4095 else d.rawLimit.toNat := by
  have hraw := d.rawLimit.isLt
  unfold Desc.byteLimit attrGranular
  split_ifs with hg
  · have hshift : (d.rawLimit.setWidth 32 <<< 12).toNat = d.rawLimit.toNat <<< 12 := by
      rw [BitVec.toNat_shiftLeft, BitVec.toNat_setWidth, Nat.mod_eq_of_lt (a := d.rawLimit.toNat) (by omega),
        Nat.mod_eq_of_lt (by rw [Nat.shiftLeft_eq]; omega)]
    rw [BitVec.toNat_or, hshift]
    exact (Nat.shiftLeft_add_eq_or_of_lt (by decide) _).symm.trans (by rw [Nat.shiftLeft_eq]; rfl)
  · rw [BitVec.toNat_setWidth, Nat.mod_eq_of_lt (by omega)]

/-- Settles O38: the base is joined from three fields, the limit from two. -/
theorem descriptorFields : Obligations.DescriptorFields := by
  intro d
  refine ⟨?_, ?_, ?_, d.rawLimit_toNat, fun hg => ?_, fun hg => ?_⟩
  · exact (extract_high_of (d.hi.extractLsb' 24 8 ++ d.hi.extractLsb' 0 8) (d.lo.extractLsb' 16 16) 8 8).trans
      (extract_high _ _)
  · exact (extract_high_of (d.hi.extractLsb' 24 8 ++ d.hi.extractLsb' 0 8) (d.lo.extractLsb' 16 16) 0 8).trans
      (extract_low _ _)
  · exact extract_low _ _
  · rw [d.byteLimit_toNat, hg]
    rfl
  · rw [d.byteLimit_toNat, if_pos hg]

end Sys2Proof.Machine
end

section
/-! Operands: effective addresses, their segments, and the sources of a selector (R108 to R115, R154). -/

namespace Sys2Proof.Machine

/-! ### Effective addresses -/

/-- A 16-bit address is its sum modulo 2^16, zero-extended (R110, R115). -/
theorem effAddr_base16_toNat (b : Base16) (d : Disp 16) (s : State) :
    (effAddr (.base16 b d) s).toNat = ((base16Value s b).toNat + (dispValue d).toNat) % 2 ^ 16 := by
  rw [effAddr, BitVec.toNat_setWidth, BitVec.toNat_add]
  omega

/-- Settles O39: the sums are those of `base16Value`, and SS goes with BP. -/
theorem effectiveAddress16 : Obligations.EffectiveAddress16 := by
  intro s d x w h
  refine ⟨?_, ?_, ?_, ?_, ?_, ?_, ?_, ?_, ?_, ?_, rfl, rfl, fun b => ?_, rfl, fun m hnone => ?_, fun m g hsome => ?_⟩
  iterate 4
    · rw [effAddr_base16_toNat, base16Value, BitVec.toNat_add, Nat.mod_add_mod]
  iterate 4
    · rw [effAddr_base16_toNat, base16Value]
  · rw [effAddr, BitVec.toNat_setWidth]
    omega
  · exact BitVec.toInt_signExtend_of_le (by decide)
  · cases b <;> rfl
  · rw [easeg, hnone]
    rfl
  · rw [easeg, hsome]
    rfl

/-- A scaled index (R112). -/
theorem indexValue_toNat (s : State) (sc : BitVec 2) (x : Reg) :
    (indexValue s sc (some x)).toNat = ((s.r32 x).toNat * 2 ^ sc.toNat) % 2 ^ 32 := by
  rw [indexValue, BitVec.toNat_shiftLeft, Nat.shiftLeft_eq]

/-- Settles O40: each sum is taken modulo 2^32, the index scaled first; SS goes with ESP and EBP. -/
theorem effectiveAddress32 : Obligations.EffectiveAddress32 := by
  intro s b x sc d c w
  refine ⟨?_, rfl, ?_, ?_, ?_, ?_, ?_, rfl, rfl, ?_, fun ix => ?_, rfl, fun ix => rfl⟩
  · rw [effAddr, BitVec.toNat_add]
  · rw [effAddr, BitVec.toNat_add, BitVec.toNat_add, indexValue_toNat]
    omega
  · rw [effAddr, indexValue, add_zero, BitVec.toNat_add]
  · rw [effAddr, BitVec.toNat_add, indexValue_toNat, Nat.mod_add_mod]
  · rw [effAddr, indexValue, zero_add]
  · exact BitVec.toInt_signExtend_of_le (by decide)
  · cases b <;> rfl
  · cases b <;> rfl

/-! ### Sources of a selector -/

/-- Settles O41: the reads of two and of four bytes, by what each ends in. -/
theorem selectorSources : Obligations.SelectorSources := by
  intro h r m s
  refine ⟨rfl, fun z => rfl, fun v hv => ⟨?_, ?_, fun x hx => ?_⟩, fun x hx => ⟨?_, ?_, fun y hy => ?_⟩, fun v hv => ?_⟩
  · simp only [readRm16, hv, ok_bind]
  · simp only [readSelector, hv, ok_bind]
  · simp only [readSelector, readBand, Config.larLslMem32Width, hv, hx]
    rfl
  · simp only [readRm16, hx, error_bind]
  · simp only [readSelector, hx, error_bind]
  · simp only [readSelector, readBand, Config.larLslMem32Width, hx, hy, error_bind]
  · simp only [readSelector, readBand, Config.larLslMem32Width, hv, ok_bind]

end Sys2Proof.Machine
end

section
/-! LAHF, LAR and LSL (R140, R150 to R156, R260 to R266): the values they load, and every branch of the two loads. -/

namespace Sys2Proof.Machine

/-! ### How an operation that begins with another one ends -/

theorem complete_bind_raised {α : Type} {r : Res α} {x : Exception} (s : State) (h : r = .error (.raised x))
    (f : α → Res State) : complete s (r >>= f) = .fault (.exception x s) := by
  rw [h]
  rfl

theorem complete_bind_refused {α : Type} {r : Res α} {x : Refusal} (s : State) (h : r = .error (.refused x))
    (f : α → Res State) : complete s (r >>= f) = .refused x := by
  rw [h]
  rfl

/-! ### LAHF -/

theorem extract_one (x : Dword) (k : Nat) : x.extractLsb' k 1 = BitVec.ofBool (x.getLsbD k) := by
  apply BitVec.eq_of_getLsbD_eq
  intro i hi
  obtain rfl : i = 0 := by omega
  simp

/-- The byte LAHF loads, by the flags' names (R28). -/
theorem flagsByte_eq (s : State) (u : BitVec 3) :
    flagsByte s.eflags u = BitVec.ofBool s.sf ++ BitVec.ofBool s.zf ++ u.extractLsb' 2 1 ++ BitVec.ofBool s.af
      ++ u.extractLsb' 1 1 ++ BitVec.ofBool s.pf ++ u.extractLsb' 0 1 ++ BitVec.ofBool s.cf := by
  simp only [flagsByte, extract_one s.eflags, State.sf, State.zf, State.af, State.pf, State.cf]

/-- Settles O42: AH takes the flags byte, whose free bits are the draw. -/
theorem lahfLoadsTheFlags : Obligations.LahfLoadsTheFlags := by
  refine fun h s => ⟨rfl, Config.lahfUndef s.draws, ?_⟩
  rw [← flagsByte_eq]
  rfl

/-! ### ZF -/

theorem putZF_true (f : Dword) : putZF f true = f ||| 0x40 := by
  apply BitVec.eq_of_getLsbD_eq
  intro k hk
  have hbit : ∀ k, k < 32 → (0x40 : Dword).getLsbD k = decide (k = 6) := by decide
  rw [getLsbD_putZF, BitVec.getLsbD_or, hbit k hk]
  by_cases h6 : k = 6 <;> simp [h6]

theorem putZF_false (f : Dword) : putZF f false = f &&& 0xFFFFFFBF := by
  apply BitVec.eq_of_getLsbD_eq
  intro k hk
  have hbit : ∀ k, k < 32 → (0xFFFFFFBF : Dword).getLsbD k = !decide (k = 6) := by decide
  rw [getLsbD_putZF, BitVec.getLsbD_and, hbit k hk]
  by_cases h6 : k = 6 <;> simp [h6]

/-! ### The values loaded -/

/-- The access rights, field by field: 00FxFF00, x the free bits (R150). -/
theorem larValue_eq (hi : Dword) (u : BitVec 4) :
    larValue hi u = (0 : BitVec 8) ++ hi.extractLsb' 20 4 ++ u ++ hi.extractLsb' 8 8 ++ (0 : BitVec 8) := by
  apply BitVec.eq_of_getLsbD_eq
  intro k hk
  have hmask : ∀ k, k < 32 → arMask.getLsbD k = decide (8 ≤ k ∧ k < 16 ∨ 20 ≤ k ∧ k < 24) := by decide
  simp only [larValue, BitVec.getLsbD_or, BitVec.getLsbD_and, hmask k hk, BitVec.getLsbD_shiftLeft,
    BitVec.getLsbD_setWidth, BitVec.getLsbD_append, BitVec.getLsbD_extractLsb']
  interval_cases k <;> simp

/-- The limit LSL loads, by the granularity bit (R262). -/
theorem byteLimit_eq (d : Desc) :
    d.byteLimit = if d.hi.getLsbD 23 = true
      then d.hi.extractLsb' 16 4 ++ d.lo.extractLsb' 0 16 ++ (0xFFF : BitVec 12)
      else (0 : BitVec 12) ++ d.hi.extractLsb' 16 4 ++ d.lo.extractLsb' 0 16 := by
  apply BitVec.eq_of_toNat_eq
  rw [d.byteLimit_toNat, d.rawLimit_toNat]
  split_ifs
  · rw [toNat_append_eq, toNat_append_eq]
    rfl
  · rw [toNat_append_eq, toNat_append_eq]
    simp

/-! ### Finding the descriptor -/

section Examine

variable {tv : Dword → Bool} {sel : Word} {s : State}

theorem examine_error {e : Stop} (h0 : selNull sel = false) (he : descFetch sel s = .error e) :
    examine tv sel s = .error e := by
  simp only [examine, h0, Bool.false_eq_true, if_false, he, error_bind]

theorem examine_found {d : Desc} (h0 : selNull sel = false) (hd : descFetch sel s = .ok (some d)) (ht : tv d.hi = true)
    (hv : visible sel d.hi s = true) : examine tv sel s = .ok (some d) := by
  simp only [examine, h0, Bool.false_eq_true, if_false, hd, ok_bind, ht, hv, Bool.and_self, if_true]

/-- No descriptor is found for a null selector, outside the table, and where type or visibility fail. -/
theorem examine_missing (h : selNull sel = true ∨ descFetch sel s = .ok none
      ∨ ∃ d, descFetch sel s = .ok (some d) ∧ ¬(tv d.hi = true ∧ visible sel d.hi s = true)) :
    examine tv sel s = .ok none := by
  cases h0 : selNull sel with
  | true => simp only [examine, h0, if_true]
  | false =>
    rcases h with hnull | hnone | ⟨d, hd, hnot⟩
    · rw [h0] at hnull
      cases hnull
    · simp only [examine, h0, Bool.false_eq_true, if_false, hnone, ok_bind]
    · rw [← Bool.and_eq_true] at hnot
      simp only [examine, h0, Bool.false_eq_true, if_false, hd, ok_bind, if_neg hnot]

end Examine

/-! ### LAR -/

theorem encode_lar {i : Instr} {z : Size} {h : Head} {dst : Reg} {src : RM} (hi : larForm i = some (z, h, dst, src)) :
    encode i = h.pfx.map Pfx.byte ++ [0x0F, 0x02] ++ src.bytes dst.num := by
  rw [List.append_assoc]
  cases i with
  | lar16 | lar32 => cases hi; rfl
  | _ => cases hi

theorem encode_lsl {i : Instr} {z : Size} {h : Head} {dst : Reg} {src : RM} (hi : lslForm i = some (z, h, dst, src)) :
    encode i = h.pfx.map Pfx.byte ++ [0x0F, 0x03] ++ src.bytes dst.num := by
  rw [List.append_assoc]
  cases i with
  | lsl16 | lsl32 => cases hi; rfl
  | _ => cases hi

section Loads

variable {z : Size} {h : Head} {dst : Reg} {src : RM} {len : Nat} {s : State} {sel : Word}

theorem larOp_selector_error {e : Stop} (hm : s.mode = .prot) (he : readSelector z h src s = .error e) :
    larOp z h dst src len s = .error e := by
  rw [larOp, requireProtected_ok hm, ok_bind, he, error_bind]

theorem larOp_desc_error {e : Stop} (hm : s.mode = .prot) (hsel : readSelector z h src s = .ok sel)
    (he : examine larTypeValid sel s = .error e) : larOp z h dst src len s = .error e := by
  rw [larOp, requireProtected_ok hm, ok_bind, hsel, ok_bind, he, error_bind]

theorem larOp_missing (hm : s.mode = .prot) (hsel : readSelector z h src s = .ok sel)
    (hnone : examine larTypeValid sel s = .ok none) :
    larOp z h dst src len s = .ok ((s.setZF false).advance len) := by
  rw [larOp, requireProtected_ok hm, ok_bind, hsel, ok_bind, hnone, ok_bind]

theorem larOp_found {d : Desc} (hm : s.mode = .prot) (hsel : readSelector z h src s = .ok sel)
    (hd : examine larTypeValid sel s = .ok (some d)) :
    larOp z h dst src len s = .ok ((((s.setReg z dst (larValue d.hi (Config.larUndef s.draws))).withDraws
      (s.draws + 1)).setZF true).advance len) := by
  rw [larOp, requireProtected_ok hm, ok_bind, hsel, ok_bind, hd, ok_bind]

theorem lslOp_selector_error {e : Stop} (hm : s.mode = .prot) (he : readSelector z h src s = .error e) :
    lslOp z h dst src len s = .error e := by
  rw [lslOp, requireProtected_ok hm, ok_bind, he, error_bind]

theorem lslOp_desc_error {e : Stop} (hm : s.mode = .prot) (hsel : readSelector z h src s = .ok sel)
    (he : examine lslTypeValid sel s = .error e) : lslOp z h dst src len s = .error e := by
  rw [lslOp, requireProtected_ok hm, ok_bind, hsel, ok_bind, he, error_bind]

theorem lslOp_missing (hm : s.mode = .prot) (hsel : readSelector z h src s = .ok sel)
    (hnone : examine lslTypeValid sel s = .ok none) :
    lslOp z h dst src len s = .ok ((s.setZF false).advance len) := by
  rw [lslOp, requireProtected_ok hm, ok_bind, hsel, ok_bind, hnone, ok_bind]

theorem lslOp_found {d : Desc} (hm : s.mode = .prot) (hsel : readSelector z h src s = .ok sel)
    (hd : examine lslTypeValid sel s = .ok (some d)) :
    lslOp z h dst src len s = .ok (((s.setReg z dst d.byteLimit).setZF true).advance len) := by
  rw [lslOp, requireProtected_ok hm, ok_bind, hsel, ok_bind, hd, ok_bind]

end Loads

/-- ZF cleared and the instruction left behind: no other field changes. -/
theorem State.setZF_false_advance (s : State) (len : Nat) :
    (s.setZF false).advance len =
      { s with eflags := s.eflags &&& 0xFFFFFFBF, eip := s.eip + BitVec.ofNat 32 len } := by
  rw [← putZF_false]
  rfl

/-- A register written, a draw used, ZF set and the instruction left behind: no other field changes. -/
theorem State.setReg_setZF_true_advance (s : State) (z : Size) (r : Reg) (v : Dword) (k len : Nat) :
    (((s.setReg z r v).withDraws k).setZF true).advance len =
      { s with
        regs := s.regs.set r (merge z (s.r32 r) v)
        eflags := s.eflags ||| 0x40
        eip := s.eip + BitVec.ofNat 32 len
        draws := k } := by
  rw [setReg_merge, ← putZF_true]
  rfl

theorem State.withDraws_self (s : State) : s.withDraws s.draws = s := rfl

/-- Settles O43: the branches of the selector read and of the descriptor found, in their order. -/
theorem larLoadsAccessRights : Obligations.LarLoadsAccessRights := by
  intro i z h dst src s hi
  rw [exec_lar hi]
  refine ⟨encode_lar hi, fun hm => complete_unprotected hm _, fun hm => ⟨fun x hx => ?_, fun r hr => ?_, fun sel hsel =>
    ⟨fun x h0 hx => ?_, fun r h0 hr => ?_, fun d h0 hd ht hv => ⟨Config.larUndef s.draws, ?_⟩, fun hmiss => ?_⟩⟩⟩
  · rw [larOp_selector_error hm hx, complete_error_raised]
  · rw [larOp_selector_error hm hr, complete_error_refused]
  · rw [larOp_desc_error hm hsel (examine_error h0 hx), complete_error_raised]
  · rw [larOp_desc_error hm hsel (examine_error h0 hr), complete_error_refused]
  · rw [larOp_found hm hsel (examine_found h0 hd ht hv), complete_ok, State.setReg_setZF_true_advance, larValue_eq]
  · rw [larOp_missing hm hsel (examine_missing hmiss), complete_ok, State.setZF_false_advance]

/-- Settles O44: as for LAR, with the byte-granular limit as the value. -/
theorem lslLoadsTheLimit : Obligations.LslLoadsTheLimit := by
  intro i z h dst src s hi
  rw [exec_lsl hi]
  refine ⟨encode_lsl hi, fun hm => complete_unprotected hm _, fun hm => ⟨fun x hx => ?_, fun r hr => ?_, fun sel hsel =>
    ⟨fun x h0 hx => ?_, fun r h0 hr => ?_, fun d h0 hd ht hv => ?_, fun hmiss => ?_⟩⟩⟩
  · rw [lslOp_selector_error hm hx, complete_error_raised]
  · rw [lslOp_selector_error hm hr, complete_error_refused]
  · rw [lslOp_desc_error hm hsel (examine_error h0 hx), complete_error_raised]
  · rw [lslOp_desc_error hm hsel (examine_error h0 hr), complete_error_refused]
  · rw [lslOp_found hm hsel (examine_found h0 hd ht hv), complete_ok,
      ← State.withDraws_self (s.setReg z dst d.byteLimit), State.setReg_setZF_true_advance, byteLimit_eq,
      State.setReg_draws]
  · rw [lslOp_missing hm hsel (examine_missing hmiss), complete_ok, State.setZF_false_advance]

/-! ### Types and visibility -/

theorem larSystemType_iff (t : BitVec 4) :
    larSystemType t = true ↔ t ∉ ([0x0, 0x8, 0xA, 0xD] : List (BitVec 4)) := by
  revert t
  decide

theorem lslSystemType_iff (t : BitVec 4) :
    lslSystemType t = true ↔ t ∈ ([0x1, 0x2, 0x3, 0x9, 0xB] : List (BitVec 4)) := by
  revert t
  decide

/-- Settles O45: the two tables, and `visible` in bits. -/
theorem typesAndVisibility : Obligations.TypesAndVisibility := by
  intro hi sel s
  refine ⟨?_, ?_, ?_⟩
  · rw [larTypeValid, Bool.or_eq_true, larSystemType_iff]
    rfl
  · rw [lslTypeValid, Bool.or_eq_true, lslSystemType_iff]
    rfl
  · simp only [visible, isConforming, isCode, attrS, attrDpl, selRpl, Bool.or_eq_true, Bool.and_eq_true,
      and_assoc]
    exact or_congr Iff.rfl (and_congr decide_eq_true_iff decide_eq_true_iff)

/-! ### LEAVE where the stack cannot be read -/

theorem leaveOp_error {h : Head} {len : Nat} {s : State} {e : Stop}
    (he : popRead (s.reg s.stackSize .ebp) (sizeBytes h.opSize) s = .error e) : leaveOp h len s = .error e := by
  simp only [leaveOp, he, error_bind]

/-- Where the check passes, the stack is read like any segment. -/
theorem popRead_of_check {off : Dword} {n : Nat} {s : State} (h : segCheck .ss off n .read s = .ok ()) :
    popRead off n s = segRead .ss off n s := by
  refine if_neg fun hinvalid => ?_
  rw [segCheck_invalid hinvalid.1 hinvalid.2] at h
  cases h

/-- In Protected Mode every check that fails is #SS(0), that of the valid bit among them (log 12). -/
theorem popRead_stack_fault {off : Dword} {n : Nat} {s : State} {e : Stop} (hm : s.mode = .prot)
    (h : segCheck .ss off n .read s = .error e) : popRead off n s = .error (.raised (.ss 0)) := by
  cases hv : (s.seg .ss).valid with
  | false =>
    rw [popRead, if_pos ⟨hm, hv⟩]
    rfl
  | true =>
    have hnot : ¬(limitOk (s.seg .ss) off n = true ∧ typeOk (s.seg .ss) .read = true) := fun hok => by
      rw [(segCheck_prot_ok hm .ss off n .read ()).mpr ⟨hv, hok⟩] at h
      cases h
    rw [popRead, if_neg (by simp [hv])]
    exact segRead_error (segCheck_fault hm hv hnot)

/-- Settles O48: what stops the read of the stack stops LEAVE. -/
theorem leaveStackFaults : Obligations.LeaveStackFaults := by
  intro h s fp n
  refine ⟨fun e hm he => ?_, fun hm hout => ?_, fun x hcheck hx => ?_, fun r hcheck hr => ?_⟩
  · rw [exec_leave, leaveOp_error (popRead_stack_fault hm he), complete_error_raised]
  · have hread : popRead fp n s = .error (.raised (.gp none)) := by
      rw [popRead, if_neg fun hp => hm hp.1]
      refine segRead_error ?_
      rw [segCheck_real hm, require_neg (by rw [decide_eq_true_eq]; omega)]
      rfl
    rw [exec_leave, leaveOp_error hread, complete_error_raised]
  · rw [exec_leave, leaveOp_error ((popRead_of_check hcheck).trans hx), complete_error_raised]
  · rw [exec_leave, leaveOp_error ((popRead_of_check hcheck).trans hr), complete_error_refused]

end Sys2Proof.Machine
end

section
/-! The system-register loads (R180 to R186, R210 to R222, R270 to R275): every branch, and LTR's busy mark. -/

namespace Sys2Proof.Machine

open Config (Access Level)

/-! ### LGDT and LIDT -/

theorem exec_lgdt (h : Head) (src : RM) (s : State) :
    exec (.lgdt h src) s = complete s (tableOperand h src s >>= fun t =>
      .ok ((s.withGdtr t).advance (Instr.lgdt h src).len)) := rfl

theorem exec_lidt (h : Head) (src : RM) (s : State) :
    exec (.lidt h src) s = complete s (tableOperand h src s >>= fun t =>
      .ok ((s.withIdtr t).advance (Instr.lidt h src).len)) := rfl

/-- Both table loads stop with what stops their operand. -/
theorem exec_table_raised {h : Head} {src : RM} {s : State} {i : Instr} {x : Exception}
    (hi : i = .lgdt h src ∨ i = .lidt h src) (hx : tableOperand h src s = .error (.raised x)) :
    exec i s = .fault (.exception x s) := by
  rcases hi with rfl | rfl
  · exact complete_bind_raised s hx _
  · exact complete_bind_raised s hx _

theorem exec_table_refused {h : Head} {src : RM} {s : State} {i : Instr} {r : Refusal}
    (hi : i = .lgdt h src ∨ i = .lidt h src) (hr : tableOperand h src s = .error (.refused r)) :
    exec i s = .refused r := by
  rcases hi with rfl | rfl
  · exact complete_bind_refused s hr _
  · exact complete_bind_refused s hr _

theorem tableOperand_privilege {h : Head} {m : MemOp} {s : State} (hm : s.mode = .prot) (hc : s.cpl ≠ 0) :
    tableOperand h (.mem m) s = .error (.raised (.gp (some 0))) := by
  rw [tableOperand, requireCpl0_error hm hc, error_bind]

theorem tableOperand_v86 {h : Head} {m : MemOp} {s : State} (hm : s.mode = .v86) :
    tableOperand h (.mem m) s = .error (.refused .v86TableLoad) := by
  rw [tableOperand, requireCpl0_ok (by simp [hm]), ok_bind, hm]
  rfl

/-- With the privilege of a table load, its operand is the read of six bytes. -/
theorem tableOperand_allowed {h : Head} {m : MemOp} {s : State} (hm : s.mode ≠ .v86) (hc : s.mode = .prot → s.cpl = 0) :
    tableOperand h (.mem m) s = readMem h m 6 s >>= fun v => .ok (tableValue h.opSize v) := by
  rw [tableOperand, requireCpl0_ok hc, ok_bind, decide_eq_false hm]
  rfl

/-- The base has 24 bits when the operand size is 16 (R181). -/
theorem tableValue_eq (z : Size) (v : BitVec 64) :
    tableValue z v =
      ⟨if z = .s16 then (0 : BitVec 8) ++ v.extractLsb' 16 24 else v.extractLsb' 16 32, v.extractLsb' 0 16⟩ := by
  cases z with
  | s16 =>
    have hbase : (v.extractLsb' 16 24).setWidth 32 = ((0 : BitVec 8) ++ v.extractLsb' 16 24 : Dword) := by
      apply BitVec.eq_of_toNat_eq
      have hlt := (v.extractLsb' 16 24).isLt
      rw [BitVec.toNat_setWidth, toNat_append_eq, Nat.mod_eq_of_lt (by omega)]
      simp
    rw [tableValue, hbase]
    rfl
  | s32 => rfl

/-- Settles O49: the two loads differ in the register written alone. -/
theorem lgdtLidtLoadTheTables : Obligations.LgdtLidtLoadTheTables := by
  intro h src s
  refine ⟨by rw [List.append_assoc]; rfl, by rw [List.append_assoc]; rfl, fun i hi => ⟨?_, ?_⟩⟩
  · rintro r rfl
    exact exec_table_raised hi rfl
  · rintro m rfl
    refine ⟨fun hm hc => exec_table_raised hi (tableOperand_privilege hm hc),
      fun hm => exec_table_refused hi (tableOperand_v86 hm),
      fun hm hc => ⟨fun x hx => ?_, fun r hr => ?_, fun v hv => ?_⟩⟩
    · exact exec_table_raised hi (by rw [tableOperand_allowed hm hc, hx, error_bind])
    · exact exec_table_refused hi (by rw [tableOperand_allowed hm hc, hr, error_bind])
    · have hval : tableOperand h (.mem m) s = .ok (tableValue h.opSize v) := by
        rw [tableOperand_allowed hm hc, hv, ok_bind]
      rw [tableValue_eq] at hval
      refine ⟨fun heq => ?_, fun heq => ?_⟩
      · rw [heq, exec_lgdt, hval, ok_bind]
        rfl
      · rw [heq, exec_lidt, hval, ok_bind]
        rfl

/-! ### Loads through a selector, in Protected Mode -/

theorem selNull_iff (sel : Word) : selNull sel = true ↔ sel.extractLsb' 2 14 = 0 := decide_eq_true_iff

theorem selNull_eq_false {sel : Word} (h : sel.extractLsb' 2 14 ≠ 0) : selNull sel = false := decide_eq_false h

theorem descFetchOrGp_error {sel : Word} {s : State} {e : Stop} (h : descFetch sel s = .error e) :
    descFetchOrGp sel s = .error e := by
  rw [descFetchOrGp, h, error_bind]

theorem descFetchOrGp_none {sel : Word} {s : State} (h : descFetch sel s = .ok none) :
    descFetchOrGp sel s = .error (.raised (gpSel sel)) := by
  rw [descFetchOrGp, h, ok_bind]
  rfl

/-! ### LLDT -/

section Lldt

variable {h : Head} {src : RM} {len : Nat} {s : State} {sel : Word}

theorem lldtOp_privilege (hm : s.mode = .prot) (hc : s.cpl ≠ 0) :
    lldtOp h src len s = .error (.raised (.gp (some 0))) := by
  rw [lldtOp, requireProtected_ok hm, ok_bind, requireCpl0_error hm hc, error_bind]

theorem lldtOp_selector_error {e : Stop} (hm : s.mode = .prot) (hc : s.cpl = 0) (he : readRm16 h src s = .error e) :
    lldtOp h src len s = .error e := by
  rw [lldtOp, requireProtected_ok hm, ok_bind, requireCpl0_ok fun _ => hc, ok_bind, he, error_bind]

theorem lldtOp_null (hm : s.mode = .prot) (hc : s.cpl = 0) (hsel : readRm16 h src s = .ok sel)
    (h0 : selNull sel = true) :
    lldtOp h src len s = .ok ((s.withLdtr { s.ldtr with sel := sel, valid := false }).advance len) := by
  rw [lldtOp, requireProtected_ok hm, ok_bind, requireCpl0_ok fun _ => hc, ok_bind, hsel, ok_bind, if_pos h0]

/-- LLDT of a selector that is not null: the checks, and the load. -/
theorem lldtOp_selector (hm : s.mode = .prot) (hc : s.cpl = 0) (hsel : readRm16 h src s = .ok sel)
    (h0 : selNull sel = false) :
    lldtOp h src len s = require (!selTI sel) (gpSel sel) >>= fun _ => descFetchOrGp sel s >>= fun d =>
      require (isSystem d.hi 2) (gpSel sel) >>= fun _ => require (attrPresent d.hi) (npSel sel) >>= fun _ =>
      .ok ((s.withLdtr ⟨sel, d.base, d.byteLimit, true⟩).advance len) := by
  rw [lldtOp, requireProtected_ok hm, ok_bind, requireCpl0_ok fun _ => hc, ok_bind, hsel, ok_bind,
    if_neg (by rw [h0]; decide)]

end Lldt

theorem exec_lldt (h : Head) (src : RM) (s : State) :
    exec (.lldt h src) s = complete s (lldtOp h src (Instr.lldt h src).len s) := rfl

/-- Settles O54: the privilege, the selector, the table, the type, the present bit, in that order. -/
theorem lldtLoadsTheLocalTable : Obligations.LldtLoadsTheLocalTable := by
  intro h src s
  rw [exec_lldt]
  refine ⟨by rw [List.append_assoc]; rfl, fun hm => complete_unprotected hm _, fun hm hc => ?_, fun hm hc =>
    ⟨fun x hx => ?_, fun r hr => ?_, fun sel hsel => ⟨fun h0 => ?_, fun h0 hout => ?_, fun h0 hti => ?_⟩⟩⟩
  · rw [lldtOp_privilege hm hc, complete_error_raised]
  · rw [lldtOp_selector_error hm hc hx, complete_error_raised]
  · rw [lldtOp_selector_error hm hc hr, complete_error_refused]
  · rw [lldtOp_null hm hc hsel ((selNull_iff sel).mpr h0), complete_ok]
    rfl
  · rw [lldtOp_selector hm hc hsel (selNull_eq_false h0)]
    cases hti : selTI sel with
    | true => exact complete_bind_raised s (require_of_not (by rfl) _) _
    | false =>
      have hnone : descFetch sel s = .ok none := hout.resolve_left (by rw [← selTI, hti]; decide)
      rw [require_of (by rfl), ok_bind]
      exact complete_bind_raised s (descFetchOrGp_none hnone) _
  · have hti' : (!selTI sel) = true := by rw [selTI, hti]; rfl
    rw [lldtOp_selector hm hc hsel (selNull_eq_false h0), require_of hti', ok_bind]
    refine ⟨fun x hx => complete_bind_raised s (descFetchOrGp_error hx) _,
      fun r hr => complete_bind_refused s (descFetchOrGp_error hr) _, fun d hd => ?_⟩
    rw [descFetchOrGp_ok.mpr hd, ok_bind]
    refine ⟨fun hnot => ?_, fun hs ht hp => ?_, fun hs ht hp => ?_⟩
    · exact complete_bind_raised s (require_neg (fun hty => hnot (isSystem_iff.mp hty)) _) _
    · rw [require_of (isSystem_iff.mpr ⟨hs, ht⟩), ok_bind]
      exact complete_bind_raised s (require_of_not hp _) _
    · rw [require_of (isSystem_iff.mpr ⟨hs, ht⟩), ok_bind, require_of (c := attrPresent d.hi) hp, ok_bind]
      rfl

/-! ### LMSW -/

/-- The new status word with its PE bit told apart (R217). -/
theorem newMsw_eq (pe : Bool) (v : Word) :
    newMsw pe v = v.extractLsb' 1 15 ++ BitVec.ofBool (pe || v.getLsbD 0) := by
  apply BitVec.eq_of_getLsbD_eq
  intro k hk
  rw [BitVec.getLsbD_append]
  by_cases h0 : k = 0
  · subst h0
    cases pe <;> simp [newMsw]
  · cases pe <;> simp [newMsw, h0, show 1 + (k - 1) = k by omega, show k - 1 < 15 by omega]

theorem newCr0_eq (c : Dword) (pe : Bool) (v : Word) :
    (c.extractLsb' 16 16 ++ newMsw pe v : Dword)
      = c.extractLsb' 16 16 ++ v.extractLsb' 1 15 ++ BitVec.ofBool (pe || v.getLsbD 0) := by
  apply BitVec.eq_of_toNat_eq
  rw [newMsw_eq, toNat_append_eq, toNat_append_eq, toNat_append_eq, toNat_append_eq, Nat.add_mul, Nat.mul_assoc,
    Nat.add_assoc, Nat.pow_add]

theorem exec_lmsw (h : Head) (src : RM) (s : State) :
    exec (.lmsw h src) s = complete s (lmswOp h src (Instr.lmsw h src).len s) := rfl

/-- Settles O55: the privilege, the refusal in Virtual 8086 Mode, the operand, then the load. -/
theorem lmswLoadsTheStatusWord : Obligations.LmswLoadsTheStatusWord := by
  intro h src s
  rw [exec_lmsw, lmswOp]
  refine ⟨by rw [List.append_assoc]; rfl, fun hm hc => complete_bind_raised s (requireCpl0_error hm hc) _, fun hm => ?_,
    fun hm hc => ?_⟩
  · rw [requireCpl0_ok (by simp [hm]), ok_bind, hm]
    rfl
  · rw [requireCpl0_ok hc, ok_bind, (refuseIf_eq_ok _ _ ()).mpr (decide_eq_false hm), ok_bind]
    refine ⟨fun x hx => complete_bind_raised s hx _, fun r hr => complete_bind_refused s hr _, fun v hv => ?_⟩
    rw [hv, ok_bind, newCr0_eq]
    rfl

/-! ### LTR -/

section Ltr

variable {h : Head} {src : RM} {len : Nat} {s : State} {sel : Word}

theorem ltrOp_privilege (hm : s.mode = .prot) (hc : s.cpl ≠ 0) :
    ltrOp h src len s = .error (.raised (.gp (some 0))) := by
  rw [ltrOp, requireProtected_ok hm, ok_bind, requireCpl0_error hm hc, error_bind]

theorem ltrOp_selector_error {e : Stop} (hm : s.mode = .prot) (hc : s.cpl = 0) (he : readRm16 h src s = .error e) :
    ltrOp h src len s = .error e := by
  rw [ltrOp, requireProtected_ok hm, ok_bind, requireCpl0_ok fun _ => hc, ok_bind, he, error_bind]

/-- LTR of a selector: the checks, the store of the busy mark, and the load. -/
theorem ltrOp_selector (hm : s.mode = .prot) (hc : s.cpl = 0) (hsel : readRm16 h src s = .ok sel) :
    ltrOp h src len s = require (!selNull sel && !selTI sel) (gpSel sel) >>= fun _ => descFetchOrGp sel s >>= fun d =>
      require (isSystem d.hi 1 || isSystem d.hi 9) (gpSel sel) >>= fun _ =>
      require (attrPresent d.hi) (npSel sel) >>= fun _ =>
      memWrite d.arAddr 1 ((d.arByte ||| 0x02).setWidth 64) .supervisor s >>= fun t =>
      .ok ((t.withTr ⟨sel, d.base, d.byteLimit, (d.hi ||| 0x00000200) &&& arMask⟩).advance len) := by
  rw [ltrOp, requireProtected_ok hm, ok_bind, requireCpl0_ok fun _ => hc, ok_bind, hsel, ok_bind]

/-- LTR of a selector into the GDT: the checks on its descriptor, the store, and the load. -/
theorem ltrOp_desc {d : Desc} (hm : s.mode = .prot) (hc : s.cpl = 0) (hsel : readRm16 h src s = .ok sel)
    (h0 : selNull sel = false) (hti : selTI sel = false) (hd : descFetch sel s = .ok (some d)) :
    ltrOp h src len s = require (isSystem d.hi 1 || isSystem d.hi 9) (gpSel sel) >>= fun _ =>
      require (attrPresent d.hi) (npSel sel) >>= fun _ =>
      memWrite d.arAddr 1 ((d.arByte ||| 0x02).setWidth 64) .supervisor s >>= fun t =>
      .ok ((t.withTr ⟨sel, d.base, d.byteLimit, (d.hi ||| 0x00000200) &&& arMask⟩).advance len) := by
  rw [ltrOp_selector hm hc hsel, h0, hti, require_of (by rfl), ok_bind, descFetchOrGp_ok.mpr hd, ok_bind]

end Ltr

theorem exec_ltr (h : Head) (src : RM) (s : State) :
    exec (.ltr h src) s = complete s (ltrOp h src (Instr.ltr h src).len s) := rfl

theorem memWrite_one_error {a : Dword} {v : BitVec 64} {lvl : Level} {s : State} {e : Stop}
    (h : translate a .write lvl s = .error e) : memWrite a 1 v lvl s = .error e := by
  rw [memWrite, translateRange, h, error_bind, error_bind]

theorem memWrite_one_unpopulated {a : Dword} {v : BitVec 64} {lvl : Level} {s : State} {q : Nat}
    (h : translate a .write lvl s = .ok q) (hq : memGet s.mem q = none) :
    memWrite a 1 v lvl s = .error (.refused (.unpopulated q)) := by
  simp only [memWrite, translateRange, h, ok_bind, writeCells, hq]
  rfl

/-- The access-rights byte of a descriptor of the GDT, by its selector. -/
theorem arAddr_of_gdt {sel : Word} {s : State} {d : Desc} (hti : sel.getLsbD 2 = false)
    (hd : descFetch sel s = .ok (some d)) :
    d.arAddr = s.gdtr.base + BitVec.ofNat 32 (8 * (sel.toNat / 8) + 5) := by
  obtain ⟨-, haddr, -⟩ := descFetch_some hd
  rw [Desc.arAddr, haddr, State.descAddr, State.table_gdt hti, selIndex_eq, BitVec.add_assoc, BitVec.ofNat_add]
  rfl

/-- Settles O56: the privilege, the selector, the descriptor's type and present bit, then the store. -/
theorem ltrLoadsTheTaskRegister : Obligations.LtrLoadsTheTaskRegister := by
  intro h src s
  rw [exec_ltr]
  refine ⟨by rw [List.append_assoc]; rfl, fun hm => complete_unprotected hm _, fun hm hc => ?_, fun hm hc =>
    ⟨fun x hx => ?_, fun r hr => ?_, fun sel hsel => ⟨fun hout => ?_, fun h0 hti => ⟨fun x hx => ?_, fun r hr => ?_,
      fun d hd => ?_⟩⟩⟩⟩
  · rw [ltrOp_privilege hm hc, complete_error_raised]
  · rw [ltrOp_selector_error hm hc hx, complete_error_raised]
  · rw [ltrOp_selector_error hm hc hr, complete_error_refused]
  · rw [ltrOp_selector hm hc hsel]
    by_cases hgdt : (!selNull sel && !selTI sel) = true
    · rw [require_of hgdt, ok_bind]
      simp only [Bool.and_eq_true, Bool.not_eq_true', selTI] at hgdt
      rcases hout with h0 | hti | hnone
      · rw [(selNull_iff sel).mpr h0] at hgdt
        cases hgdt.1
      · rw [hti] at hgdt
        cases hgdt.2
      · exact complete_bind_raised s (descFetchOrGp_none hnone) _
    · exact complete_bind_raised s (require_neg hgdt _) _
  · rw [ltrOp_selector hm hc hsel, selNull_eq_false h0, selTI, hti, require_of (by rfl), ok_bind]
    exact complete_bind_raised s (descFetchOrGp_error hx) _
  · rw [ltrOp_selector hm hc hsel, selNull_eq_false h0, selTI, hti, require_of (by rfl), ok_bind]
    exact complete_bind_refused s (descFetchOrGp_error hr) _
  · rw [ltrOp_desc hm hc hsel (selNull_eq_false h0) hti hd]
    intro tss a
    have htss : (isSystem d.hi 1 || isSystem d.hi 9) = true ↔ tss := by
      rw [Bool.or_eq_true, isSystem_iff, isSystem_iff, ← and_or_left]
    have ha : d.arAddr = a := arAddr_of_gdt hti hd
    rw [ha]
    refine ⟨fun hnot => ?_, fun hty hp => ?_, fun hty hp => ?_⟩
    · exact complete_bind_raised s (require_neg (fun hty => hnot (htss.mp hty)) _) _
    · rw [require_of (htss.mpr hty), ok_bind]
      exact complete_bind_raised s (require_of_not hp _) _
    · rw [require_of (htss.mpr hty), ok_bind, require_of (c := attrPresent d.hi) hp, ok_bind]
      refine ⟨fun x hx => complete_bind_raised s (memWrite_one_error hx) _,
        fun q hq hnone => complete_bind_refused s (memWrite_one_unpopulated hq hnone) _, fun q b hq hb => ?_⟩
      rw [memWrite_one_ok hq hb, ok_bind, low_byte]
      rfl

/-! ### The busy mark (R274 a) -/

/-- A TSS whose busy bit is set is of neither available type. -/
theorem not_available_of_busy {hi : Dword} (h : hi.getLsbD 9 = true) : (isSystem hi 1 || isSystem hi 9) = false := by
  have hbit : (hi.extractLsb' 8 4).getLsbD 1 = true := by
    rw [BitVec.getLsbD_extractLsb']
    simpa using h
  have hno (t : BitVec 4) (ht : t.getLsbD 1 = false) : isSystem hi t = false := by
    rw [← Bool.not_eq_true, isSystem_iff]
    rintro ⟨-, rfl⟩
    rw [hbit] at ht
    cases ht
  rw [hno 1 (by decide), hno 9 (by decide)]
  rfl

/-- Bytes that were read are populated, with translation the identity. -/
theorem memRead_populated {a : Dword} {n : Nat} {lvl : Level} {s : State} {v : BitVec 64}
    (hid : s.mode = .real ∨ s.pg = false) (h : memRead a n lvl s = .ok v) (k : Nat) (hk : k < n) :
    (memGet s.mem (a + BitVec.ofNat 32 k).toNat).isSome = true := by
  induction k using Nat.strong_induction_on with
  | _ k ih =>
    by_contra hnone
    rw [Bool.not_eq_true, Option.isSome_eq_false_iff, Option.isNone_iff_eq_none] at hnone
    have hcells := readCells_error_of (f := fun k => (a + BitVec.ofNat 32 k).toNat) hk
      (fun j hj => ih j hj (hj.trans hk)) hnone
    have hrange : translateRange .read lvl s n a = .ok ((List.range n).map fun k => (a + BitVec.ofNat 32 k).toNat) :=
      translateRange_ok_of fun k _ => translate_identity hid _ _ _
    rw [memRead, hrange, ok_bind, hcells, error_bind] at h
    cases h

/-- A descriptor is read again after a store to its access-rights byte: it is found, with that byte in it. -/
theorem descFetch_of_arByte {sel : Word} {s t : State} {d : Desc} {b : Byte} (hid : t.mode = .real ∨ t.pg = false)
    (hd : descFetch sel s = .ok (some d)) (hgdtr : t.gdtr = s.gdtr) (hldtr : t.ldtr = s.ldtr)
    (hpop : ∀ a, (memGet t.mem a).isSome = (memGet s.mem a).isSome) (hids : s.mode = .real ∨ s.pg = false)
    (hb : memGet t.mem d.arAddr.toNat = some b) :
    ∃ d', descFetch sel t = .ok (some d') ∧ d'.hi.extractLsb' 8 8 = b := by
  obtain ⟨hin, haddr, v, hv, -, -⟩ := descFetch_some hd
  have htable : t.table sel = s.table sel := by rw [State.table, State.table, hgdtr, hldtr]
  have hin' : t.inTable sel = true := by rw [State.inTable, htable]; exact hin
  have haddr' : t.descAddr sel = d.addr := by rw [State.descAddr, htable, haddr]; rfl
  have hbytes (k : Nat) (hk : k < 8) : memGet t.mem (d.addr + BitVec.ofNat 32 k).toNat
      = some ((memGet t.mem (d.addr + BitVec.ofNat 32 k).toNat).getD 0) := by
    have hsome := hpop (d.addr + BitVec.ofNat 32 k).toNat
    rw [haddr, memRead_populated hids hv k hk, ← haddr] at hsome
    obtain ⟨c, hc⟩ := Option.isSome_iff_exists.mp hsome
    rw [hc]
    rfl
  have hread := memRead_ok_of (lvl := .supervisor) (fun k _ => translate_identity hid _ _ _) hbytes
  refine ⟨_, by rw [descFetch_of_inTable hin', haddr', hread, ok_bind], ?_⟩
  rw [extract_extract _ 32 32 8 8 (by decide)]
  refine (leValue_byte _ 5 (by decide)).trans ?_
  rw [getD_map_range 8 5 _ (by decide)]
  exact (congrArg (Option.getD · 0) hb).trans rfl

/-- Settles O57: the second LTR reads back the byte the first one stored, whose busy bit is set. -/
theorem ltrTwiceIsBusy : Obligations.LtrTwiceIsBusy := by
  intro h h' src src' s t sel hpg hsel hnext hsel'
  obtain ⟨hm, hc, sel', d, p, hsel'', h0, hti, hd, -, -, hp, -, ht⟩ := ltrOp_ok (complete_next.mp hnext)
  obtain rfl : sel' = sel := Except.ok.inj (hsel''.symm.trans hsel)
  rw [translate_identity (.inr hpg)] at hp
  obtain rfl : d.arAddr.toNat = p := Except.ok.inj hp
  have htm : t.mode = .prot := by rw [ht]; exact hm
  have htc : t.cpl = 0 := by rw [ht]; exact hc
  have hpg' : t.pg = false := by rw [ht]; exact hpg
  have hbusy : memGet t.mem d.arAddr.toNat = some (d.arByte ||| 0x02) := by
    rw [ht]
    simp
  obtain ⟨d', hd', hb'⟩ := descFetch_of_arByte (.inr hpg') hd (by rw [ht]; rfl) (by rw [ht]; rfl) (exec_isSome hnext)
    (.inr hpg) hbusy
  have hbit : d'.hi.getLsbD 9 = true := by
    have h1 := congrArg (·.getLsbD 1) hb'
    simpa using h1
  rw [exec_ltr, ltrOp_desc htm htc hsel' h0 hti hd']
  exact complete_bind_raised t (require_of_not (not_available_of_busy hbit) _) _

end Sys2Proof.Machine
end

section
/-! The pointer loads (R190 to R204): what stops them before the selector is looked at, and the load of the segment
register in each mode. -/

namespace Sys2Proof.Machine

open Config (Access Level)

section Far

variable {i : Instr} {n : SegName} {z : Size} {h : Head} {dst : Reg} {m : MemOp} {s : State} {p : BitVec 64}

/-- A pointer load is the read of the pointer, the load of its selector, then the writes. -/
theorem exec_far_mem (hi : farForm i = some (n, z, h, dst, .mem m)) (s : State) :
    exec i s = complete s (readMem h m (sizeBytes z + 2) s >>= fun p => loadSeg n (farSelector z p) s >>= fun u =>
      .ok ((u.setReg z dst (p.extractLsb' 0 32)).advance i.len)) :=
  exec_far hi s

/-- Settles O51: a register is no operand, and the read of the whole pointer comes first. -/
theorem pointerLoadOperandFaults : Obligations.PointerLoadOperandFaults := by
  intro i n z h dst src s hi
  refine ⟨?_, ?_, ?_⟩
  · rintro r rfl
    rw [exec_far hi]
    rfl
  · rintro m x rfl hx
    rw [exec_far_mem hi]
    exact complete_bind_raised s hx _
  · rintro m r rfl hr
    rw [exec_far_mem hi]
    exact complete_bind_refused s hr _

theorem exec_far_raised {x : Exception} (hi : farForm i = some (n, z, h, dst, .mem m))
    (hp : readMem h m (sizeBytes z + 2) s = .ok p) (hx : loadSeg n (farSelector z p) s = .error (.raised x)) :
    exec i s = .fault (.exception x s) := by
  rw [exec_far_mem hi, hp, ok_bind]
  exact complete_bind_raised s hx _

theorem exec_far_refused {r : Refusal} (hi : farForm i = some (n, z, h, dst, .mem m))
    (hp : readMem h m (sizeBytes z + 2) s = .ok p) (hr : loadSeg n (farSelector z p) s = .error (.refused r)) :
    exec i s = .refused r := by
  rw [exec_far_mem hi, hp, ok_bind]
  exact complete_bind_refused s hr _

theorem exec_far_ok {u : State} (hi : farForm i = some (n, z, h, dst, .mem m))
    (hp : readMem h m (sizeBytes z + 2) s = .ok p) (hu : loadSeg n (farSelector z p) s = .ok u) :
    exec i s = .next { u with
      regs := u.regs.set dst (merge z (u.r32 dst) (p.extractLsb' 0 32))
      eip := u.eip + BitVec.ofNat 32 i.len } := by
  rw [exec_far_mem hi, hp, ok_bind, hu, ok_bind, complete_ok, State.setReg_advance]

end Far

/-! ### Outside Protected Mode (R195) -/

theorem loadSeg_real {s : State} (hm : s.mode ≠ .prot) (n : SegName) (sel : Word) :
    loadSeg n sel s = .ok (loadSegReal n sel s) := by
  unfold loadSeg
  cases hmode : s.mode with
  | prot => exact absurd hmode hm
  | real | v86 => rfl

/-- The base of a Real Address Mode segment is its selector times 16. -/
theorem realBase_eq (sel : Word) : sel.setWidth 32 <<< 4 = BitVec.ofNat 32 (sel.toNat * 16) := by
  apply BitVec.eq_of_toNat_eq
  have hlt := sel.isLt
  rw [BitVec.toNat_shiftLeft, BitVec.toNat_setWidth, BitVec.toNat_ofNat, Nat.shiftLeft_eq]
  omega

/-- Settles O50: the load is `loadSegReal`, which keeps the hidden fields but the base. -/
theorem pointerLoadsOutsideProtectedMode : Obligations.PointerLoadsOutsideProtectedMode := by
  intro i n z h dst m s p hi hm hp
  rw [exec_far_ok hi hp (loadSeg_real hm n _), loadSegReal, realBase_eq]
  rfl

/-! ### In Protected Mode (R196 to R201) -/

section Protected

variable {s : State} {n : SegName} {sel : Word} {d : Desc}

theorem loadSeg_null (hm : s.mode = .prot) (hn : n ≠ .ss) (h0 : selNull sel = true) :
    loadSeg n sel s = .ok (s.setSeg n { s.seg n with sel := sel, valid := false }) := by
  simp only [loadSeg, hm, loadSegProtected, h0, if_true, if_neg hn]

theorem loadSeg_null_ss (hm : s.mode = .prot) (h0 : selNull sel = true) :
    loadSeg .ss sel s = .error (.raised (.gp (some 0))) := by
  simp only [loadSeg, hm, loadSegProtected, h0, if_true]
  rfl

/-- The checks on the descriptor of a segment that is loaded (R197, R198). -/
def segChecks (n : SegName) (sel : Word) (hi : Dword) (s : State) : Res Unit :=
  if n = .ss then stackSegChecks sel hi s else dataSegChecks sel hi s

/-- The load of a selector that is not null: the descriptor, its checks, the accessed bit, the register. -/
theorem loadSeg_selector (hm : s.mode = .prot) (h0 : selNull sel = false) :
    loadSeg n sel s = descFetchOrGp sel s >>= fun d => segChecks n sel d.hi s >>= fun _ => markAccessed d s >>= fun q =>
      .ok (q.1.setSeg n ⟨sel, d.base, d.byteLimit, q.2 &&& arMask, true⟩) := by
  simp only [loadSeg, hm, loadSegProtected, h0, Bool.false_eq_true, if_false, segChecks]
  by_cases hn : n = .ss
  · simp only [hn, if_true]
  · simp only [hn, if_false]

theorem loadSeg_desc_error {e : Stop} (hm : s.mode = .prot) (h0 : selNull sel = false)
    (he : descFetch sel s = .error e) : loadSeg n sel s = .error e := by
  rw [loadSeg_selector hm h0, descFetchOrGp_error he, error_bind]

theorem loadSeg_out (hm : s.mode = .prot) (h0 : selNull sel = false) (hnone : descFetch sel s = .ok none) :
    loadSeg n sel s = .error (.raised (gpSel sel)) := by
  rw [loadSeg_selector hm h0, descFetchOrGp_none hnone, error_bind]

theorem loadSeg_check_error {e : Stop} (hm : s.mode = .prot) (h0 : selNull sel = false)
    (hd : descFetch sel s = .ok (some d)) (he : segChecks n sel d.hi s = .error e) : loadSeg n sel s = .error e := by
  rw [loadSeg_selector hm h0, descFetchOrGp_ok.mpr hd, ok_bind, he, error_bind]

theorem loadSeg_checked (hm : s.mode = .prot) (h0 : selNull sel = false) (hd : descFetch sel s = .ok (some d))
    (hok : segChecks n sel d.hi s = .ok ()) :
    loadSeg n sel s = markAccessed d s >>= fun q =>
      .ok (q.1.setSeg n ⟨sel, d.base, d.byteLimit, q.2 &&& arMask, true⟩) := by
  rw [loadSeg_selector hm h0, descFetchOrGp_ok.mpr hd, ok_bind, hok, ok_bind]

end Protected

/-! ### The accessed bit (R201) -/

section Accessed

variable {d : Desc} {s : State}

theorem markAccessed_set (h8 : d.hi.getLsbD 8 = true) : markAccessed d s = .ok (s, d.hi) := if_pos h8

theorem markAccessed_fault {x : Exception} (h8 : d.hi.getLsbD 8 = false)
    (hx : translate (d.addr + 5) .write .supervisor s = .error (.raised x)) :
    markAccessed d s = .error (.refused .accessedBitPageFault) := by
  simp only [markAccessed, h8, Bool.false_eq_true, if_false, Desc.arAddr, hx]
  rfl

theorem markAccessed_unpopulated {q : Nat} (h8 : d.hi.getLsbD 8 = false)
    (hq : translate (d.addr + 5) .write .supervisor s = .ok q) (hnone : memGet s.mem q = none) :
    markAccessed d s = .error (.refused (.unpopulated q)) := by
  simp only [markAccessed, h8, Bool.false_eq_true, if_false, Desc.arAddr, hq, readCell, hnone]
  rfl

theorem markAccessed_store {q : Nat} {b : Byte} (h8 : d.hi.getLsbD 8 = false)
    (hq : translate (d.addr + 5) .write .supervisor s = .ok q) (hb : memGet s.mem q = some b) :
    markAccessed d s = .ok
      (((s.withMem (memSet s.mem q (b ||| (Config.accessedUndef s.draws).setWidth 8))).withStored
          (addStored s.stored q)).withDraws (s.draws + 1),
        d.hi ||| ((Config.accessedUndef s.draws).setWidth 32 <<< 8)) := by
  simp only [markAccessed, h8, Bool.false_eq_true, if_false, Desc.arAddr, hq, readCell_ok.mpr hb, ok_bind]

end Accessed

/-- What a pointer load does once its checks pass: the four outcomes of the accessed bit, as the statements on DS, ES,
FS, GS and on SS have them (R200, R201). -/
theorem exec_far_checked {i : Instr} {n : SegName} {z : Size} {h : Head} {dst : Reg} {m : MemOp} {s : State}
    {p : BitVec 64} {d : Desc} (hi : farForm i = some (n, z, h, dst, .mem m)) (hm : s.mode = .prot)
    (hp : readMem h m (sizeBytes z + 2) s = .ok p) (h0 : selNull (farSelector z p) = false)
    (hd : descFetch (farSelector z p) s = .ok (some d)) (hok : segChecks n (farSelector z p) d.hi s = .ok ()) :
    let regs' := s.regs.set dst (merge z (s.r32 dst) (p.extractLsb' 0 32))
    let eip' := s.eip + BitVec.ofNat 32 i.len
    (d.hi.getLsbD 8 = true →
      exec i s = .next { s with
        segs := s.segs.set n ⟨farSelector z p, d.base, d.byteLimit, d.hi &&& 0x00F0FF00, true⟩
        regs := regs', eip := eip' })
    ∧ (∀ q b, d.hi.getLsbD 8 = false → translate (d.addr + 5) .write .supervisor s = .ok q →
      memGet s.mem q = some b → ∃ u : BitVec 1,
      exec i s = .next { s with
        segs := s.segs.set n
          ⟨farSelector z p, d.base, d.byteLimit, (d.hi ||| (u.setWidth 32 <<< 8)) &&& 0x00F0FF00, true⟩
        regs := regs', eip := eip'
        mem := memSet s.mem q (b ||| u.setWidth 8)
        stored := addStored s.stored q, draws := s.draws + 1 })
    ∧ (∀ x, d.hi.getLsbD 8 = false → translate (d.addr + 5) .write .supervisor s = .error (.raised x) →
      exec i s = .refused .accessedBitPageFault)
    ∧ (∀ q, d.hi.getLsbD 8 = false → translate (d.addr + 5) .write .supervisor s = .ok q →
      memGet s.mem q = none → exec i s = .refused (.unpopulated q)) := by
  have hload := loadSeg_checked hm h0 hd hok
  refine ⟨fun h8 => ?_, fun q b h8 hq hb => ⟨Config.accessedUndef s.draws, ?_⟩, fun x h8 hx => ?_,
    fun q h8 hq hnone => ?_⟩
  · rw [markAccessed_set h8, ok_bind] at hload
    rw [exec_far_ok hi hp hload]
    rfl
  · rw [markAccessed_store h8 hq hb, ok_bind] at hload
    rw [exec_far_ok hi hp hload]
    rfl
  · rw [markAccessed_fault h8 hx, error_bind] at hload
    exact exec_far_refused hi hp hload
  · rw [markAccessed_unpopulated h8 hq hnone, error_bind] at hload
    exact exec_far_refused hi hp hload

/-- Settles O52: the null selector, the descriptor read, the checks of `dataSegChecks`, then the accessed bit. -/
theorem dataPointerLoadsInProtectedMode : Obligations.DataPointerLoadsInProtectedMode := by
  intro i n z h dst m s p hi hn hm hp sel regs' eip'
  refine ⟨fun h0 => ?_, fun x h0 hx => ?_, fun r h0 hr => ?_, fun h0 hnone => ?_, fun d h0 hd => ?_⟩
  · rw [exec_far_ok hi hp (loadSeg_null hm hn h0)]
    rfl
  · exact exec_far_raised hi hp (loadSeg_desc_error hm h0 hx)
  · exact exec_far_refused hi hp (loadSeg_desc_error hm h0 hr)
  · exact exec_far_raised hi hp (loadSeg_out hm h0 hnone)
  · have hchecks : segChecks n sel d.hi s = dataSegChecks sel d.hi s := if_neg hn
    obtain ⟨hbad, habsent, hpass⟩ := dataSegChecks_spec sel d.hi s
    refine ⟨fun hnot => ?_, fun ht ha hpr => ?_, fun ht ha hpr => ?_⟩
    · exact exec_far_raised hi hp (loadSeg_check_error hm h0 hd (hchecks.trans (hbad hnot)))
    · exact exec_far_raised hi hp (loadSeg_check_error hm h0 hd (hchecks.trans (habsent ht ha hpr)))
    · exact exec_far_checked hi hm hp h0 hd (hchecks.trans (hpass ht ha hpr))

/-- Settles O53: as for the data segments, with the checks of `stackSegChecks`. -/
theorem stackPointerLoadInProtectedMode : Obligations.StackPointerLoadInProtectedMode := by
  intro i z h dst m s p hi hm hp sel regs' eip'
  refine ⟨fun h0 => ?_, fun x h0 hx => ?_, fun r h0 hr => ?_, fun h0 hnone => ?_, fun d h0 hd => ?_⟩
  · exact exec_far_raised hi hp (loadSeg_null_ss hm h0)
  · exact exec_far_raised hi hp (loadSeg_desc_error hm h0 hx)
  · exact exec_far_refused hi hp (loadSeg_desc_error hm h0 hr)
  · exact exec_far_raised hi hp (loadSeg_out hm h0 hnone)
  · have hchecks : segChecks .ss sel d.hi s = stackSegChecks sel d.hi s := if_pos rfl
    obtain ⟨hbad, habsent, hpass⟩ := stackSegChecks_spec sel d.hi s
    refine ⟨fun hnot => ?_, fun hf hpr => ?_, fun hf hpr => ?_⟩
    · exact exec_far_raised hi hp (loadSeg_check_error hm h0 hd (hchecks.trans (hbad hnot)))
    · exact exec_far_raised hi hp (loadSeg_check_error hm h0 hd (hchecks.trans (habsent hf hpr)))
    · exact exec_far_checked hi hm hp h0 hd (hchecks.trans (hpass hf hpr))

end Sys2Proof.Machine
end

section
/-! LODS and the LOOP family (R240 to R245, R250 to R256). -/

namespace Sys2Proof.Machine

/-! ### LODS -/

theorem encode_lods {i : Instr} {w : LodsWidth} {h : Head} (hi : lodsForm i = some (w, h)) :
    encode i = h.pfx.map Pfx.byte ++ [if w = .byte then 0xAC else 0xAD] := by
  cases i <;> cases hi <;> rfl

theorem lodsOp_error {w : LodsWidth} {h : Head} {len : Nat} {s : State} {e : Stop}
    (he : segRead (h.segOverride.getD .ds) (s.reg h.addrSize .esi) (lodsBytes w) s = .error e) :
    lodsOp w h len s = .error e := by
  simp only [lodsOp, he, error_bind]

/-- The converse of `lodsOp_ok`: a value read at the index completes the operation. -/
theorem lodsOp_of_segRead {w : LodsWidth} {h : Head} {len : Nat} {s : State} {v : BitVec 64}
    (hv : segRead (h.segOverride.getD .ds) (s.reg h.addrSize .esi) (lodsBytes w) s = .ok v) :
    lodsOp w h len s = .ok (((loadAccumulator w v s).setReg h.addrSize .esi
      (nextIndex s.df (s.reg h.addrSize .esi) (lodsBytes w))).advance len) := by
  simp only [lodsOp, hv, ok_bind]

/-- Settles O58: the read at the index, the accumulator by the width, the index by the direction. -/
theorem lodsLoadsTheAccumulator : Obligations.LodsLoadsTheAccumulator := by
  intro i w h s hi idx n seg
  have hn : n = lodsBytes w := by cases w <;> rfl
  rw [hn, exec_lods hi]
  refine ⟨encode_lods hi, fun v hv => ?_, fun x hx => ?_, fun r hr => ?_⟩
  · rw [lodsOp_of_segRead hv, complete_ok, State.setReg_advance]
    cases w <;> rfl
  · rw [lodsOp_error hx, complete_error_raised]
  · rw [lodsOp_error hr, complete_error_refused]

/-! ### The LOOP family -/

/-- The opcode byte of each condition (R117). -/
def LoopCond.opcode : LoopCond → Byte
  | .always => 0xE2
  | .zero => 0xE1
  | .notZero => 0xE0

theorem encode_loop {i : Instr} {c : LoopCond} {h : Head} {rel : Byte} (hi : loopForm i = some (c, h, rel)) :
    encode i = h.pfx.map Pfx.byte ++ [c.opcode, rel] := by
  cases i <;> cases hi <;> rfl

/-- A write at a size takes the low bits of the value alone (R23). -/
theorem merge_truncTo (z : Size) (old v : Dword) : merge z old (truncTo z v) = merge z old v := by
  cases z with
  | s32 => rfl
  | s16 =>
    have hlow : (truncTo .s16 v).extractLsb' 0 16 = v.extractLsb' 0 16 := by
      apply BitVec.eq_of_toNat_eq
      simp [truncTo]
    rw [merge, merge, hlow]

/-- The count, written back at the address size. -/
theorem setReg_loopCount (h : Head) (s : State) :
    s.setReg h.addrSize .ecx (loopCount h s)
      = { s with regs := s.regs.set .ecx (merge h.addrSize (s.r32 .ecx) (s.r32 .ecx - 1)) } := by
  rw [setReg_merge, loopCount_eq, merge_truncTo]

theorem loopOp_not_taken {cond : Bool → Bool} {h : Head} {rel : Byte} {len : Nat} {s : State}
    (hnot : ¬(loopCount h s ≠ 0 ∧ cond s.zf = true)) :
    loopOp cond h rel len s = .ok ((s.setReg h.addrSize .ecx (loopCount h s)).advance len) := by
  simp only [loopOp, if_neg hnot]

/-- A taken LOOP is the check of its target, then the count and the branch. -/
theorem loopOp_taken {cond : Bool → Bool} {h : Head} {rel : Byte} {len : Nat} {s : State}
    (htaken : loopCount h s ≠ 0 ∧ cond s.zf = true) :
    loopOp cond h rel len s = targetCheck (loopTarget h rel len s) s >>= fun _ =>
      .ok ((s.setReg h.addrSize .ecx (loopCount h s)).withEip (loopTarget h rel len s)) := by
  simp only [loopOp, if_pos htaken]

/-- The check of a target in Protected Mode is the limit of CS (R251). -/
theorem targetCheck_prot {s : State} (hm : s.mode = .prot) (t : Dword) :
    targetCheck t s = require (decide (t ≤ s.segs.cs.limit)) gp0 := by
  simp only [targetCheck, hm]
  rfl

/-- Elsewhere it is the refusal above 0FFFFH (R251, D23). -/
theorem targetCheck_real {s : State} (hm : s.mode ≠ .prot) (t : Dword) :
    targetCheck t s = refuseIf (decide (0xFFFF < t)) (.loopTargetBeyond64K t) := by
  unfold targetCheck
  cases hmode : s.mode with
  | prot => exact absurd hmode hm
  | real | v86 => rfl

theorem targetCheck_ok {s : State} {t : Dword} (h : t ≤ if s.mode = .prot then s.segs.cs.limit else 0xFFFF) :
    targetCheck t s = .ok () := by
  by_cases hm : s.mode = .prot
  · rw [if_pos hm] at h
    rw [targetCheck_prot hm, require_of (decide_eq_true h)]
  · rw [if_neg hm] at h
    rw [targetCheck_real hm, (refuseIf_eq_ok _ _ ()).mpr (decide_eq_false (BitVec.not_lt.mpr h))]

/-- Settles O59: the operation is taken apart by its branch, the target within bounds. -/
theorem loopCountsAndBranches : Obligations.LoopCountsAndBranches := by
  intro i c h rel s hi count regs' next target taken
  obtain ⟨cond, hcond, hexec⟩ := exec_loop hi
  have hcount : loopCount h s = count := loopCount_eq h s
  rw [hexec]
  refine ⟨(encode_loop hi).trans (by cases c <;> rfl), fun hnot => ?_, fun htaken hbound => ?_⟩
  · rw [loopOp_not_taken (by rw [hcount, hcond]; exact hnot), complete_ok, setReg_loopCount]
    rfl
  · have hcheck : targetCheck (loopTarget h rel i.len s) s = .ok () := targetCheck_ok hbound
    rw [loopOp_taken (by rw [hcount, hcond]; exact htaken), hcheck, ok_bind, complete_ok, setReg_loopCount]
    rfl

/-- Settles O60: the target's check stops a taken LOOP before either write. -/
theorem loopTargetChecks : Obligations.LoopTargetChecks := by
  intro i c h rel s hi target hcount hz
  obtain ⟨cond, hcond, hexec⟩ := exec_loop hi
  rw [hexec, loopOp_taken ⟨by rw [loopCount_eq]; exact hcount, (hcond _).mpr hz⟩]
  refine ⟨fun hm hlt => complete_bind_raised s ?_ _, fun hm hlt => complete_bind_refused s ?_ _⟩
  · rw [targetCheck_prot hm]
    exact require_of_not (decide_eq_false (BitVec.not_le.mpr hlt)) _
  · rw [targetCheck_real hm]
    exact if_pos (decide_eq_true hlt)

end Sys2Proof.Machine
end
